-- ==== Sys2Proof/Word.lean ====
section
/-! DEFINITION. The word of the block (rule R7: a "word" is 32 bits, bit 0 the least significant) and the byte of a host
bus adapter (rule R85). -/

namespace Sys2Proof

/-- A 32-bit word: a command word, a register, a RAM word or a response data word (rules R6, R7). -/
abbrev Word := BitVec 32

/-- A byte of the host's adapter stream (rule R85); the block itself has no byte lanes. -/
abbrev Byte := BitVec 8

end Sys2Proof
end

