-- ==== Sys2Proof/Syntax.lean ====
section
/-! DEFINITION. The commands of the block (rules R110 to R114): one constructor per row of spec/opcode_table.json.

Every constructor keeps all the bits its words have beside the opcode: the 24-bit immediate (also where rule R117 says it is
ignored) and WR's data word. So decoding drops no bit, and what a command does not use is visible in its meaning. -/

namespace Sys2Proof

/-- The two agents of the block, its command ports (rules R2, R332): P the producer, C the consumer. -/
inductive Port where
  /-- Port P, driven by the real-time audio callback. -/
  | producer
  /-- Port C, driven by the display context. -/
  | consumer
  deriving DecidableEq, Repr

/-- A command (rule R114). `imm` is the ignored immediate of rule R117. -/
inductive Instr where
  /-- NOP, rule R140. -/
  | nop (imm : BitVec 24)
  /-- RD, read the word at an address, rule R141. -/
  | rd (addr : BitVec 24)
  /-- WR, write a word at an address, rule R143; the only two-word command (rule R111). -/
  | wr (addr : BitVec 24) (data : Word)
  /-- ACC, accumulate one host block, rule R180. -/
  | acc (imm : BitVec 24)
  /-- FWR, offer one host block to the FIFO, rule R261. -/
  | fwr (imm : BitVec 24)
  /-- DYN, update the dynamics series, rule R229. -/
  | dyn (imm : BitVec 24)
  /-- ENV, update the envelope series, rule R233. -/
  | env (imm : BitVec 24)
  /-- THD, recompute the distortion metrics, rule R220. -/
  | thd (imm : BitVec 24)
  /-- TRIG, arm one Linear capture, rule R292. -/
  | trig (imm : BitVec 24)
  /-- SRST, soft reset, rule R293. -/
  | srst (imm : BitVec 24)
  /-- FRD m, take up to m samples from the FIFO, rule R263. -/
  | frd (maxSamples : BitVec 24)
  deriving DecidableEq, Repr

end Sys2Proof
end

