-- ==== Sys2Proof/WellFormed.lean ====
section
/-! DEFINITION. Well-formedness of commands. The operand widths of rules R110 to R113 (a 24-bit immediate, a 32-bit data
word) are in the types of `Instr`, so every term of `Instr` has an encoding. What is left to check is which port a command
may be issued on (rule R115): a command issued on a port that may not issue it is ill-formed there, and the block answers it
ERR_PORT. -/

namespace Sys2Proof

/-- Rule R115: NOP, RD and WR may be issued on either port; ACC, FWR, DYN, ENV, THD, TRIG and SRST on Port P only; FRD on
Port C only. -/
def Instr.wellFormed (port : Port) : Instr → Bool
  | .nop _ => true
  | .rd _ => true
  | .wr _ _ => true
  | .acc _ => port == .producer
  | .fwr _ => port == .producer
  | .dyn _ => port == .producer
  | .env _ => port == .producer
  | .thd _ => port == .producer
  | .trig _ => port == .producer
  | .srst _ => port == .producer
  | .frd _ => port == .consumer

end Sys2Proof
end

