-- ==== Sys2Proof/Decode.lean ====
section
/-! DEFINITION. Decoding a port's word stream into commands, and encoding commands into words (rules R110 to R117). -/

namespace Sys2Proof

/-- What a port decoder reads from the words it has received. -/
inductive Decoded where
  /-- A command of rule R114, and the words that follow it. -/
  | command (i : Instr) (rest : List Word)
  /-- A reserved opcode (rule R116), refused by its value; it is one word long (rule R111). -/
  | reserved (opcode : BitVec 8) (rest : List Word)
  /-- The port has received no whole command: no word, or a WR whose DATA word has not come (rule R111). -/
  | incomplete
  deriving DecidableEq, Repr

/-- `OPC = w[31:24]` (rule R110). -/
def opcodeOf (w : Word) : BitVec 8 := w.extractLsb' 24 8

/-- `IMM = w[23:0]`, neither sign-extended nor scaled (rules R110, R112). -/
def immOf (w : Word) : BitVec 24 := w.extractLsb' 0 24

/-- The one-word commands by opcode (rule R114); WR, the two-word one, is read by `decode`. -/
def decodeOneWord (opc : BitVec 8) (imm : BitVec 24) : Option Instr :=
  match opc.toNat with
  | 0x00 => some (.nop imm)
  | 0x01 => some (.rd imm)
  | 0x10 => some (.acc imm)
  | 0x11 => some (.fwr imm)
  | 0x12 => some (.dyn imm)
  | 0x13 => some (.env imm)
  | 0x14 => some (.thd imm)
  | 0x15 => some (.trig imm)
  | 0x1F => some (.srst imm)
  | 0x20 => some (.frd imm)
  | _ => none

/-- Reads the next command of a port's stream. A command's length follows from its opcode alone: after a WR the next word
is DATA, whatever its bits (rule R111). -/
def decode : List Word → Decoded
  | [] => .incomplete
  | w :: ws =>
    if opcodeOf w = 0x02 then
      match ws with
      | [] => .incomplete
      | d :: rest => .command (.wr (immOf w) d) rest
    else
      match decodeOneWord (opcodeOf w) (immOf w) with
      | some i => .command i ws
      | none => .reserved (opcodeOf w) ws

/-- `opcode | imm`, the first word of a command (rule R110). -/
def firstWord (opc : BitVec 8) (imm : BitVec 24) : Word := opc ++ imm

/-- The opcode of a command (rule R114). -/
def Instr.opcode : Instr → BitVec 8
  | .nop _ => 0x00
  | .rd _ => 0x01
  | .wr _ _ => 0x02
  | .acc _ => 0x10
  | .fwr _ => 0x11
  | .dyn _ => 0x12
  | .env _ => 0x13
  | .thd _ => 0x14
  | .trig _ => 0x15
  | .srst _ => 0x1F
  | .frd _ => 0x20

/-- The words of a command (rules R110, R111, R114). -/
def encode : Instr → List Word
  | .nop imm => [firstWord 0x00 imm]
  | .rd a => [firstWord 0x01 a]
  | .wr a d => [firstWord 0x02 a, d]
  | .acc imm => [firstWord 0x10 imm]
  | .fwr imm => [firstWord 0x11 imm]
  | .dyn imm => [firstWord 0x12 imm]
  | .env imm => [firstWord 0x13 imm]
  | .thd imm => [firstWord 0x14 imm]
  | .trig imm => [firstWord 0x15 imm]
  | .srst imm => [firstWord 0x1F imm]
  | .frd m => [firstWord 0x20 m]

/-- The words of a command whose bits are `w`, numbered as spec/opcode_table.json numbers them: the first word is bits
31..0, WR's DATA word is bits 63..32; the bits at and above `nbits` are 0. -/
def tableWords (nbits w : Nat) : List Word :=
  let w0 : Word := BitVec.ofNat 32 (w % 2 ^ nbits)
  let w1 : Word := BitVec.ofNat 32 (w % 2 ^ nbits / 2 ^ 32)
  if opcodeOf w0 = 0x02 then [w0, w1] else [w0]

/-- The command the decoder reads from the bits `w` of an opcode-table row. -/
def decodeTableWord (nbits w : Nat) : Option Instr :=
  match decode (tableWords nbits w) with
  | .command i _ => some i
  | .reserved _ _ => none
  | .incomplete => none

/-- The bytes of a word on a host bus adapter: bits 7:0 first (rule R85). -/
def bytesOfWord (w : Word) : List Byte :=
  [w.extractLsb' 0 8, w.extractLsb' 8 8, w.extractLsb' 16 8, w.extractLsb' 24 8]

/-- The words of a recorded adapter byte stream (rule R85); bytes that do not yet make a whole word are left out. -/
def wordsOfBytes : List Byte → List Word
  | b0 :: b1 :: b2 :: b3 :: bs => (b3 ++ b2 ++ b1 ++ b0) :: wordsOfBytes bs
  | _ => []

end Sys2Proof
end

