-- ==== Sys2Proof/Machine/Binary32.lean ====
section
/-! DEFINITION. binary32 patterns (rules R9, R85), exact comparisons (rule R10) and correct rounding of rationals
(rule R11). A finite value is an integer multiple of 2^−149, so exact arithmetic on values is integer arithmetic in that
unit. -/

namespace Sys2Proof.Machine

/-- The exponent field, bits 30:23 (rule R85). -/
def f32Exp (w : Word) : Nat := w.toNat / 2 ^ 23 % 2 ^ 8

/-- The fraction field, bits 22:0 (rule R85). -/
def f32Frac (w : Word) : Nat := w.toNat % 2 ^ 23

/-- Bit 31, the sign (rule R85). -/
def f32Sign (w : Word) : Bool := w.getLsbD 31

/-- `isfinite` of rule R9. -/
def f32IsFinite (w : Word) : Bool := f32Exp w != 255

/-- Whether a pattern is a NaN (rule R9). -/
def f32IsNaN (w : Word) : Bool := f32Exp w == 255 && f32Frac w != 0

/-- `|x|`: clear bit 31 (rule R10). -/
def f32Abs (w : Word) : Word := w &&& 0x7FFFFFFF

/-- Whether a pattern is +0.0 or −0.0. -/
def f32IsZero (w : Word) : Bool := f32Abs w == 0

/-- The magnitude of a pattern's value in units of 2^−149. The patterns of ±Inf give 2^128 in that unit, above every finite
magnitude, so that non-NaN patterns compare as extended reals do. -/
def f32Mag (w : Word) : Nat :=
  if f32Exp w = 0 then f32Frac w else (2 ^ 23 + f32Frac w) * 2 ^ (f32Exp w - 1)

/-- `f32(w)` of rule R9 in units of 2^−149. -/
def f32Int (w : Word) : Int := if f32Sign w then -(f32Mag w : Int) else (f32Mag w : Int)

/-- The real 1 in units of 2^−149. -/
abbrev f32One : Nat := 2 ^ 149

/-- The pattern of +Inf. -/
def f32Inf : Word := 0x7F800000

/-- The largest finite binary32 value (rule R227). -/
def f32Max : Word := 0x7F7FFFFF

/-- `a / b` rounded to the nearest integer, ties to even. -/
def divRoundEven (a b : Nat) : Nat :=
  if 2 * (a % b) < b then a / b
  else if b < 2 * (a % b) then a / b + 1
  else a / b + a / b % 2

/-- The bits below the sign of `rne(num / den)` (rule R9): the quotient is brought to 24 significant bits in units of 2^−149
(fewer below the normal range), rounded to even, and the carry runs through the exponent field, up to +Inf. -/
def rneMagBits (num den : Nat) : Nat :=
  let shift := Nat.log2 (num * 2 ^ 149 / den) - 23
  min (shift * 2 ^ 23 + divRoundEven (num * 2 ^ 149) (den * 2 ^ shift)) 0x7F800000

/-- `bits32(rne(±num / den))` for `den > 0`; `rne(0)` is +0.0 (rule R9). -/
def rneFrac (neg : Bool) (num den : Nat) : Word :=
  if num = 0 then 0
  else BitVec.ofNat 32 (rneMagBits num den + if neg then 2 ^ 31 else 0)

/-- `bits32(rne(a / d))` of two integers, `d ≠ 0`. -/
def rneQuot (a d : Int) : Word := rneFrac (decide (a < 0) != decide (d < 0)) a.natAbs d.natAbs

/-- `roundHalfAway(num / den) = floor(num / den + 1/2)` (rule R16). -/
def roundHalfAway (num den : Nat) : Nat := (2 * num + den) / (2 * den)

end Sys2Proof.Machine
end

