-- ==== Sys2Proof/Config.lean ====
section
/-! DEFINITION. What an implementation fixes: the parameters of rule R6, the kind of the configuration functions of the
approximate results (rule R12), and the free values. A constant below without a body is a free value: nothing in Lean can
evaluate it, so a claim about the machine holds whatever it is. The numerics themselves, `Config.numerics`, are at the end of
Sys2Proof/Machine/Numerics.lean, beside the properties that they meet. -/

namespace Sys2Proof

/-- A parameter that is OPEN in 1..65536: BLK_MAX and the FIFO capacity C (rule R6). -/
abbrev Capacity := { n : Nat // 1 ≤ n ∧ n ≤ 65536 }

/-- The value rule R6 gives BLK_MAX and C: 32768. -/
def Capacity.default : Capacity := ⟨32768, by decide⟩

namespace Config

/-- MAG_FLOOR, −120 dB (rule R6), as a binary32 pattern. -/
def magFloor : Word := 0xC2F00000

/-- DYN_FLOOR, −100 dB (rule R6), as a binary32 pattern. -/
def dynFloor : Word := 0xC2C80000

/-- DYN_CAP, the most pairs the dynamics series holds (rule R6). -/
abbrev dynCap : Nat := 1000

/-- DYN_LAG, how many pairs back the ratio looks (rule R6). -/
abbrev dynLag : Nat := 10

/-- ENV_WIN, the envelope window in samples (rule R6). -/
abbrev envWin : Nat := 100

/-- ENV_SECONDS, the envelope series cap in seconds (rule R6). -/
abbrev envSeconds : Nat := 10

/-- HARM_MAX, the length of the harmonic-level table (rule R6). -/
abbrev harmMax : Nat := 10

/-- The spectrum RAM holds N_MAX/2 words per region (rule R58). -/
abbrev binsMax : Nat := 16384

/-- What a stage-RAM or CONS_BUF word (by its word address) holds that nothing has written since power-on: an arbitrary
initial image, fixed at power-on and kept by SRST (rule R359). A free value, notes/assumptions/10.md. -/
opaque powerOnWord : Nat → Word

/-- What a FIFO_RAM slot holds that no FWR has written since power-on (rule R62). A free value,
notes/assumptions/10.md. -/
opaque powerOnSlot : Nat → Word

end Config

/-- NUMERICS_MODE of rule R6. -/
inductive NumericsMode where
  /-- An approximate result is the binary32 value nearest to its ideal (rule R12). -/
  | reference
  /-- An approximate result meets the named property of its rule (rule R12). -/
  | tolerant
  deriving DecidableEq, Repr, Inhabited

/-- A tolerance of rule R6, OPEN; `none` is a tolerance without a bound, since the rule names none
(notes/assumptions/4.md). -/
abbrev Tolerance := Option ℚ≥0

/-- The numerics of an implementation: the OPEN parameters of rule R6 and one total function per approximate (class AP)
result of rule R12. The functions are named NUM_MAG, NUM_PH, NUM_THD, NUM_THDN and NUM_RMSDB in the rules. Rules R189 and
R191 list the inputs of the first two, `(x_c, k)`: the arguments here are one way to write x_c down, and conforming functions
answer the same for the same x_c (`DependsOnWorking` in Sys2Proof/Machine/Numerics.lean); rules R225, R226 and R230 write `(...)`,
and the inputs of the other three are the model's choice (DESIGN CHOICE, notes/assumptions/23.md). -/
structure Numerics where
  /-- NUMERICS_MODE. -/
  mode : NumericsMode
  /-- TOL_MAG_DB, in dB. -/
  tolMagDb : Tolerance
  /-- TOL_PHASE, in radians. -/
  tolPhase : Tolerance
  /-- PH_MIN_DB, the level in dB below which a phase is unconstrained. -/
  phMinDb : ℚ
  /-- TOL_THD_REL, relative. -/
  tolThdRel : Tolerance
  /-- TOL_RMS_DB, in dB. -/
  tolRmsDb : Tolerance
  /-- NUM_MAG of a channel's working values x_c, given by the samples and whether they are windowed, and the bin (rule R189;
  notes/assumptions/5.md, notes/assumptions/25.md). -/
  mag : List Word → Bool → Nat → Word
  /-- NUM_PH of a channel's working values x_c, given by the samples and whether they are windowed, and the bin (rule R191;
  notes/assumptions/5.md, notes/assumptions/25.md). -/
  ph : List Word → Bool → Nat → Word
  /-- NUM_THD (rule R225); the inputs are the model's choice: the coerced levels m(0), ..., m(B−1) and the fundamental bin
  (DESIGN CHOICE, notes/assumptions/23.md). -/
  thd : List Word → Nat → Word
  /-- NUM_THDN (rule R226); the inputs are the model's choice: the coerced levels m(0), ..., m(B−1) and the fundamental bin
  (DESIGN CHOICE, notes/assumptions/23.md). -/
  thdn : List Word → Nat → Word
  /-- NUM_RMSDB (rule R230); the input is the model's choice: the sample words of the block (DESIGN CHOICE,
  notes/assumptions/23.md). -/
  rmsDb : List Word → Word

/-- A turn of the interleaving (rule R90): which port moves, and how far. -/
inductive Turn where
  /-- Port P performs the rest of its command under way, or all of its next command, with no Port C step between. -/
  | wholeP
  /-- Port P performs one atomic step (rule R91): it opens its next command, performs one of the write steps that may come
  next (`choice` says which), or closes the command. -/
  | stepP (choice : Nat)
  /-- Port C performs its next command, one atomic step. -/
  | portC
  deriving DecidableEq, Repr, Inhabited

/-- The turn taken where both ports have work and the state holds no turn decided: rule R90 allows every interleaving, so
this is a free value, read at a counter (notes/assumptions/2.md). -/
opaque Config.freeTurn : Nat → Turn

end Sys2Proof
end

