-- ==== Sys2Proof/Machine/State.lean ====
section
/-! DEFINITION. The state of the block as plain data, the reasons a step can stop, and the state after power-on reset. -/

namespace Sys2Proof.Machine

/-- No constructor: the block has no traps, and every command completes with a response (rules R118, R320). -/
inductive Fault where
  deriving DecidableEq, Repr

/-- Why the model would give an instruction no meaning. No arm of `exec` uses it. -/
inductive Refusal where
  /-- Raised by an arm of `exec` whose instruction has no meaning yet; safe. -/
  | notModelled (mnemonic : String)
  deriving DecidableEq, Repr

/-- The AnalysisMode of rule R36, in code order. -/
inductive Mode where
  | linear
  | harmonic
  | hammerstein
  | whiteNoise
  | sineSweep
  | thdSweep
  | imd
  | dynamics
  | performance
  deriving DecidableEq, Repr

/-- A legal FFT order, 8..15 (rule R37). -/
abbrev Order := { v : Nat // 8 ≤ v ∧ v ≤ 15 }

/-- The six flags of STATUS (rule R34). -/
structure Status where
  valid : Bool
  ready : Bool
  analyzing : Bool
  errCmd : Bool
  errAddr : Bool
  errPort : Bool
  deriving DecidableEq, Repr

/-- The name of a STATUS flag (rule R34). -/
inductive Flag where
  | valid
  | ready
  | analyzing
  | errCmd
  | errAddr
  | errPort
  deriving DecidableEq, Repr

/-- The registers that hold a plain 32-bit word, but for GEN (rules R40 to R54). -/
structure Regs where
  /-- SRATE, binary32 (rule R40). -/
  srate : Word
  /-- TFREQ, binary32 (rule R41). -/
  tfreq : Word
  /-- BLKLEN (rule R42). -/
  blklen : Word
  /-- SEQ (rule R43). -/
  seq : Word
  /-- FBIN (rule R45). -/
  fbin : Word
  /-- THD, binary32 (rule R46). -/
  thd : Word
  /-- THDN, binary32 (rule R46). -/
  thdn : Word
  /-- IMD, binary32 (rule R47). -/
  imd : Word
  /-- HCNT (rule R48). -/
  hcnt : Word
  /-- HARM0..HARM9, binary32 (rule R48). -/
  harm : Vector Word 10
  /-- CRATIO, binary32 (rule R49). -/
  cratio : Word
  /-- DYN_IN, binary32 (rule R50). -/
  dynIn : Word
  /-- DYN_OUT, binary32 (rule R50). -/
  dynOut : Word
  /-- ATTACK, binary32 (rule R51). -/
  attack : Word
  /-- CONS_CNT (rule R54). -/
  consCnt : Word
  deriving DecidableEq, Repr

/-- The name of a register of `Regs`. -/
inductive WordReg where
  | srate
  | tfreq
  | blklen
  | seq
  | fbin
  | thd
  | thdn
  | imd
  | hcnt
  | harm (j : Fin 10)
  | cratio
  | dynIn
  | dynOut
  | attack
  | consCnt
  deriving DecidableEq, Repr

/-- A cell of a RAM: a word address (or a slot number) and the word it holds. The smallest addressable unit is a 32-bit
word and there is no byte addressing (rules R80, R85), so the cell is a word (notes/assumptions/13.md). -/
abbrev Cell := Nat × Word

/-- The RAM regions (rule R82), each word under its full word address, sparsely, with strictly rising addresses: `ram`
holds the stage RAM and CONS_BUF words written since power-on, `spectrum` the spectrum words that differ from their reset
value. -/
structure Memory where
  ram : List Cell
  spectrum : List Cell
  deriving DecidableEq, Repr

/-- The FIFO's storage, cursors and count (rules R53, R62); `slots` holds the FIFO_RAM slots written since power-on. -/
structure Fifo where
  slots : List Cell
  rd : Nat
  wr : Nat
  count : Nat
  deriving DecidableEq, Repr

/-- The 2-bit response code (rule R118). -/
inductive RespCode where
  | ok
  | errCmd
  | errAddr
  | errPort
  deriving DecidableEq, Repr

/-- A response: a code and a data word (rule R118). -/
structure Response where
  code : RespCode
  data : Word
  deriving DecidableEq, Repr

/-- One write of a Port P command (rule R91). Each changes one word that Port C can read (hidden state it changes with that
word is not readable), except `clearSpectrum`, which stands for the spectrum words one by one
(`Sys2Proof.Machine.WriteStep.expand`), and `clearFifo`, which rule R293 makes one step. -/
inductive WriteStep where
  /-- Write a word register. -/
  | reg (r : WordReg) (v : Word)
  /-- Write CTRL. -/
  | ctrl (irqEn : Bool)
  /-- Write MODE. -/
  | mode (m : Mode)
  /-- Write ORDER (NSIZE and the bounds follow). -/
  | order (o : Order)
  /-- Read-modify-write one flag of STATUS. -/
  | flag (f : Flag) (b : Bool)
  /-- Write 0 to STATUS. -/
  | clearStatus
  /-- Write a RAM word. -/
  | word (addr : Nat) (v : Word)
  /-- Write every spectrum word with its reset value. -/
  | clearSpectrum
  /-- Copy samples to the accumulators and advance FILL past them. -/
  | accept (xs : List (Word × Word))
  /-- FILL <- 0; the accumulators' contents are gone. -/
  | clearFill
  /-- Append a pair to the dynamics series and write DYN_CNT. -/
  | dynPush (pair : Word × Word)
  /-- Empty the dynamics series: DYN_CNT <- 0. -/
  | clearDyn
  /-- Append a value to the envelope series, trim it to `cap`, and write ENV_CNT. -/
  | envPush (v : Word) (cap : Nat)
  /-- Empty the envelope series: ENV_CNT <- 0. -/
  | clearEnv
  /-- FIFO_RD, FIFO_WR and FIFO_COUNT <- 0. -/
  | clearFifo
  deriving DecidableEq, Repr

/-- A write step of a command under way; `pub` is the number of the transform publication it belongs to within its
command, 0 for a step outside every publication (rule R193 orders only READY, within its publication). -/
structure Write where
  pub : Nat
  step : WriteStep
  deriving DecidableEq, Repr

/-- The state of the block. INVENTORY.md lists each field with the rule that names it. -/
structure State where
  /-- STATUS (rule R34). -/
  status : Status
  /-- CTRL bit 0, IRQ_EN (rule R35). -/
  irqEn : Bool
  /-- MODE (rule R36). -/
  mode : Mode
  /-- ORDER (rule R37); NSIZE is derived from it (rule R38). -/
  order : Order
  /-- The word registers (rules R40 to R54). -/
  regs : Regs
  /-- GEN (rule R44). -/
  gen : Word
  /-- FIFO_CAP, the constant C (rule R53). -/
  fifoCap : Capacity
  /-- BLK_MAX, a constant (rule R55). -/
  blkMax : Capacity
  /-- The RAM regions (rules R57 to R59). -/
  mem : Memory
  /-- ACC_L and ACC_R at [0, FILL), oldest first (rule R60); FILL (rule R39) is its length. -/
  acc : List (Word × Word)
  /-- The FIFO (rule R62). -/
  fifo : Fifo
  /-- The dynamics series, oldest first (rule R63); DYN_CNT (rule R50) is its length. -/
  dyn : List (Word × Word)
  /-- The envelope series, oldest first (rule R64); ENV_CNT (rule R52) is its length. -/
  env : List Word
  /-- The model's own: the port whose command `exec` performs. -/
  port : Port
  /-- The model's own: the command words Port P has yet to consume, next first (rule R89). -/
  inP : List Word
  /-- The model's own: the command words Port C has yet to consume, next first (rule R89). -/
  inC : List Word
  /-- The model's own: the responses Port P has returned, oldest first (rule R118). -/
  outP : List Response
  /-- The model's own: the responses Port C has returned, oldest first (rule R118). -/
  outC : List Response
  /-- The model's own: the write steps still to come of the Port P command under way (rule R91). -/
  inFlight : Option (List Write)
  /-- The model's own: the turns already decided, next first (rule R90). -/
  sched : List Turn
  /-- The model's own: the counter `Config.freeTurn` is read at. -/
  ticks : Nat
  deriving DecidableEq, Repr

/-- STATUS after reset: 0 (rule R34). -/
def Status.reset : Status :=
  { valid := false, ready := false, analyzing := false, errCmd := false, errAddr := false, errPort := false }

/-- ORDER after reset: 11 (rule R37). -/
def Order.reset : Order := ⟨11, by decide⟩

/-- The word registers after reset (the reset column of rule R32). -/
def Regs.reset : Regs where
  srate := 0x472C4400
  tfreq := 0x447A0000
  blklen := 0
  seq := 0
  fbin := 0
  thd := 0
  thdn := 0
  imd := 0
  hcnt := 0
  harm := Vector.replicate 10 Config.magFloor
  cratio := 0x3F800000
  dynIn := Config.dynFloor
  dynOut := Config.dynFloor
  attack := 0
  consCnt := 0

/-- RAM after power-on: no stage-RAM or CONS_BUF word written, every spectrum word at its reset value (rule R350). -/
def Memory.reset : Memory := { ram := [], spectrum := [] }

/-- The FIFO after power-on: empty (rule R350). -/
def Fifo.reset : Fifo := { slots := [], rd := 0, wr := 0, count := 0 }

/-- The block after power-on, before any command (rule R350). No command word has come and no turn is decided
(notes/assumptions/19.md). -/
def State.reset : State where
  status := Status.reset
  irqEn := false
  mode := .linear
  order := Order.reset
  regs := Regs.reset
  gen := 0
  fifoCap := Capacity.default
  blkMax := Capacity.default
  mem := Memory.reset
  acc := []
  fifo := Fifo.reset
  dyn := []
  env := []
  port := .producer
  inP := []
  inC := []
  outP := []
  outC := []
  inFlight := none
  sched := []
  ticks := 0

end Sys2Proof.Machine
end

