-- ==== Sys2Proof/Machine/Flags.lean ====
section
/-! DEFINITION. The STATUS register: its word, its flags, what clears them, and the interrupt line (rules R34, R144, R322,
R325). -/

namespace Sys2Proof.Machine

/-- STATUS as RD reads it: bits 31:6 read 0 (rule R34). -/
def Status.toWord (st : Status) : Word :=
  BitVec.ofNat 32 (st.valid.toNat + 2 * st.ready.toNat + 4 * st.analyzing.toNat + 8 * st.errCmd.toNat +
    16 * st.errAddr.toNat + 32 * st.errPort.toNat)

/-- Writes one flag, an atomic read-modify-write (rules R91, R322). -/
def Status.setFlag (st : Status) (f : Flag) (b : Bool) : Status :=
  match f with
  | .valid => { st with valid := b }
  | .ready => { st with ready := b }
  | .analyzing => { st with analyzing := b }
  | .errCmd => { st with errCmd := b }
  | .errAddr => { st with errAddr := b }
  | .errPort => { st with errPort := b }

/-- A WR to STATUS (rule R144): a 1 in bit 1, 3, 4 or 5 clears that flag; VALID, ANALYZING and bits 31:6 ignore the
data. -/
def Status.writeOneToClear (st : Status) (data : Word) : Status :=
  { st with
    ready := st.ready && !data.getLsbD 1
    errCmd := st.errCmd && !data.getLsbD 3
    errAddr := st.errAddr && !data.getLsbD 4
    errPort := st.errPort && !data.getLsbD 5 }

/-- The sticky bit an error response sets (rule R322). -/
def RespCode.flag : RespCode → Option Flag
  | .ok => none
  | .errCmd => some .errCmd
  | .errAddr => some .errAddr
  | .errPort => some .errPort

/-- The number of a response code (rule R118). -/
def RespCode.toBits : RespCode → BitVec 2
  | .ok => 0
  | .errCmd => 1
  | .errAddr => 2
  | .errPort => 3

/-- The interrupt line: IRQ = STATUS.READY AND CTRL.IRQ_EN, at all times (rules R65, R325). -/
def State.irq (s : State) : Bool := s.status.ready && s.irqEn

end Sys2Proof.Machine
end

