-- ==== Sys2Proof/Machine/Memory.lean ====
section
/-! DEFINITION. Sparse word storage in canonical form, and the RAM regions of rule R82 over it. A word address is 24 bits
(rule R80); the cells' keys are its value. -/

namespace Sys2Proof.Machine

/-- The word stored under a key, if any. -/
def cellsGet : List Cell → Nat → Option Word
  | [], _ => none
  | (b, v) :: cs, a => if a = b then some v else cellsGet cs a

/-- Stores a word under a key, keeping the keys in rising order. -/
def cellsPut : List Cell → Nat → Word → List Cell
  | [], a, v => [(a, v)]
  | (b, u) :: cs, a, v =>
    if a < b then (a, v) :: (b, u) :: cs
    else if a = b then (a, v) :: cs
    else (b, u) :: cellsPut cs a v

/-- Removes what is stored under a key. -/
def cellsErase (cs : List Cell) (a : Nat) : List Cell := cs.filter fun c => c.1 != a

/-- The keys rise strictly. -/
def cellsSorted : List Cell → Bool
  | [] => true
  | [_] => true
  | (a, _) :: (b, v) :: cs => decide (a < b) && cellsSorted ((b, v) :: cs)

/-- Base word addresses of the regions (rule R82). -/
abbrev basePreL : Nat := 0x010000
abbrev basePostL : Nat := 0x020000
abbrev basePostR : Nat := 0x030000
abbrev baseMagL : Nat := 0x040000
abbrev baseMagR : Nat := 0x050000
abbrev basePhL : Nat := 0x060000
abbrev basePhR : Nat := 0x070000
abbrev baseCons : Nat := 0x080000

/-- Whether a word address lies in the spectrum regions MAG_L, MAG_R, PH_L, PH_R (rule R82). -/
def isSpectrum (a : Nat) : Bool := decide (baseMagL ≤ a) && decide (a < baseCons)

/-- The reset value of a spectrum word: −120.0 in MAG_L and MAG_R, +0.0 in PH_L and PH_R (rule R58). -/
def spectrumReset (a : Nat) : Word := if a < basePhL then Config.magFloor else 0

/-- What a RAM word reads as that is not listed: its reset value (rules R58, R92), or an unspecified value where rule R359
gives the word none. -/
def unlisted (a : Nat) : Word := if isSpectrum a then spectrumReset a else Config.powerOnWord a

/-- Reads a RAM word (`MemRead` of rule R8, by word address). -/
def Memory.read (m : Memory) (a : Nat) : Word :=
  (if isSpectrum a then cellsGet m.spectrum a else cellsGet m.ram a).getD (unlisted a)

/-- Writes a RAM word (`MemWrite` of rule R8, by word address). A spectrum word written with its reset value is not
listed. -/
def Memory.write (m : Memory) (a : Nat) (v : Word) : Memory :=
  if isSpectrum a then
    if v = spectrumReset a then { m with spectrum := cellsErase m.spectrum a }
    else { m with spectrum := cellsPut m.spectrum a v }
  else { m with ram := cellsPut m.ram a v }

/-- Gives every spectrum word its reset value (rules R293, R295). -/
def Memory.clearSpectrum (m : Memory) : Memory := { m with spectrum := [] }

/-- The addresses of the 4 × 16384 spectrum words, in the order of the loops of rules R293 and R295. -/
def spectrumAddresses : List Nat :=
  (List.range Config.binsMax).flatMap fun k => [baseMagL + k, baseMagR + k, basePhL + k, basePhR + k]

/-- Whether an address is that of a word the spectrum RAM has (rule R58: 16384 words per region). -/
def hasSpectrumWord (a : Nat) : Bool := isSpectrum a && decide (a % 0x10000 < Config.binsMax)

/-- Whether an address lies in the stage RAM or CONS_BUF regions (rule R82). -/
def isPlainRam (a : Nat) : Bool :=
  (decide (basePreL ≤ a) && decide (a < baseMagL)) || (decide (baseCons ≤ a) && decide (a < 0x090000))

/-- The canonical form: keys rise strictly, every key is an address of its regions, and no spectrum entry equals what an
unlisted address reads as. (Stage-RAM and CONS_BUF words have no value before they are written, so every entry there
differs from an unlisted word.) -/
def Memory.wf (m : Memory) : Bool :=
  cellsSorted m.ram && m.ram.all (fun c => isPlainRam c.1) &&
    (cellsSorted m.spectrum && m.spectrum.all fun c => hasSpectrumWord c.1 && c.2 != spectrumReset c.1)

/-- The words of a region at indices [0, len), in order. -/
def Memory.block (m : Memory) (base len : Nat) : List Word := (List.range len).map fun j => m.read (base + j)

end Sys2Proof.Machine
end

