-- ==== Sys2Proof/Machine/Operands.lean ====
section
/-! DEFINITION. Addresses, regions and registers as operands of RD and WR: decoding, access rights, bounds, and the value a
register reads as (rules R32 to R56, R80 to R84, R119). -/

namespace Sys2Proof.Machine

/-- A region of the address map (rule R82). -/
inductive Region where
  | regs
  | preL
  | postL
  | postR
  | magL
  | magR
  | phL
  | phR
  | consBuf
  deriving DecidableEq, Repr

/-- The region of a region number; none where the map has no region (rule R82). -/
def Region.ofNumber : Nat → Option Region
  | 0x00 => some .regs
  | 0x01 => some .preL
  | 0x02 => some .postL
  | 0x03 => some .postR
  | 0x04 => some .magL
  | 0x05 => some .magR
  | 0x06 => some .phL
  | 0x07 => some .phR
  | 0x08 => some .consBuf
  | _ => none

/-- `region = A[23:16]` (rule R81), if mapped. -/
def regionOf (addr : BitVec 24) : Option Region := Region.ofNumber (addr.toNat / 2 ^ 16)

/-- `index = A[15:0]` (rule R81). -/
def indexOf (addr : BitVec 24) : Nat := addr.toNat % 2 ^ 16

/-- The mode of a code 0..8 (rule R36). -/
def Mode.ofCode : Nat → Option Mode
  | 0 => some .linear
  | 1 => some .harmonic
  | 2 => some .hammerstein
  | 3 => some .whiteNoise
  | 4 => some .sineSweep
  | 5 => some .thdSweep
  | 6 => some .imd
  | 7 => some .dynamics
  | 8 => some .performance
  | _ => none

/-- The code of a mode (rule R36). -/
def Mode.code : Mode → Nat
  | .linear => 0
  | .harmonic => 1
  | .hammerstein => 2
  | .whiteNoise => 3
  | .sineSweep => 4
  | .thdSweep => 5
  | .imd => 6
  | .dynamics => 7
  | .performance => 8

/-- The order of a value, if legal (rule R37). -/
def Order.ofNat? (v : Nat) : Option Order := if h : 8 ≤ v ∧ v ≤ 15 then some ⟨v, h⟩ else none

/-- N = 2^ORDER, which NSIZE reads (rule R38). -/
def State.nsize (s : State) : Nat := 2 ^ s.order.val

/-- BINS = N/2, the bins per channel (rule R6). -/
def State.bins (s : State) : Nat := s.nsize / 2

/-- A register of the map (rule R32). -/
inductive Register where
  | id
  | status
  | ctrl
  | mode
  | order
  | nsize
  | fill
  | srate
  | tfreq
  | blklen
  | seq
  | gen
  | fbin
  | thd
  | thdn
  | imd
  | hcnt
  | harm (j : Fin 10)
  | cratio
  | dynCnt
  | dynIn
  | dynOut
  | attack
  | envCnt
  | fifoCount
  | fifoCap
  | consCnt
  | blkMax
  deriving DecidableEq, Repr

/-- The register at an index of the register region; none at a reserved index (rules R32, R56). -/
def Register.ofIndex : Nat → Option Register
  | 0x00 => some .id
  | 0x01 => some .status
  | 0x02 => some .ctrl
  | 0x03 => some .mode
  | 0x04 => some .order
  | 0x05 => some .nsize
  | 0x06 => some .fill
  | 0x07 => some .srate
  | 0x08 => some .tfreq
  | 0x09 => some .blklen
  | 0x0A => some .seq
  | 0x0B => some .gen
  | 0x0C => some .fbin
  | 0x0D => some .thd
  | 0x0E => some .thdn
  | 0x0F => some .imd
  | 0x10 => some .hcnt
  | 0x11 => some (.harm 0)
  | 0x12 => some (.harm 1)
  | 0x13 => some (.harm 2)
  | 0x14 => some (.harm 3)
  | 0x15 => some (.harm 4)
  | 0x16 => some (.harm 5)
  | 0x17 => some (.harm 6)
  | 0x18 => some (.harm 7)
  | 0x19 => some (.harm 8)
  | 0x1A => some (.harm 9)
  | 0x1B => some .cratio
  | 0x1C => some .dynCnt
  | 0x1D => some .dynIn
  | 0x1E => some .dynOut
  | 0x1F => some .attack
  | 0x20 => some .envCnt
  | 0x21 => some .fifoCount
  | 0x22 => some .fifoCap
  | 0x23 => some .consCnt
  | 0x24 => some .blkMax
  | _ => none

/-- The access column of rule R32 for a write from Port P: only STATUS, CTRL, MODE, ORDER, SRATE, TFREQ and BLKLEN are
writable. -/
def Register.writable : Register → Bool
  | .status | .ctrl | .mode | .order | .srate | .tfreq | .blklen => true
  | _ => false

/-- The word a register reads as (rules R33 to R55). -/
def Register.read (s : State) : Register → Word
  | .id => 0x57424131
  | .status => s.status.toWord
  | .ctrl => BitVec.ofNat 32 s.irqEn.toNat
  | .mode => BitVec.ofNat 32 s.mode.code
  | .order => BitVec.ofNat 32 s.order.val
  | .nsize => BitVec.ofNat 32 s.nsize
  | .fill => BitVec.ofNat 32 s.acc.length
  | .srate => s.regs.srate
  | .tfreq => s.regs.tfreq
  | .blklen => s.regs.blklen
  | .seq => s.regs.seq
  | .gen => s.gen
  | .fbin => s.regs.fbin
  | .thd => s.regs.thd
  | .thdn => s.regs.thdn
  | .imd => s.regs.imd
  | .hcnt => s.regs.hcnt
  | .harm j => s.regs.harm.get j
  | .cratio => s.regs.cratio
  | .dynCnt => BitVec.ofNat 32 s.dyn.length
  | .dynIn => s.regs.dynIn
  | .dynOut => s.regs.dynOut
  | .attack => s.regs.attack
  | .envCnt => BitVec.ofNat 32 s.env.length
  | .fifoCount => BitVec.ofNat 32 s.fifo.count
  | .fifoCap => BitVec.ofNat 32 s.fifoCap.val
  | .consCnt => s.regs.consCnt
  | .blkMax => BitVec.ofNat 32 s.blkMax.val

/-- The number of valid indices of a region (rules R82, R84), at this moment. -/
def Region.bound (s : State) : Region → Nat
  | .regs => 0x25
  | .preL | .postL | .postR => s.blkMax.val
  | .magL | .magR | .phL | .phR => s.bins
  | .consBuf => s.fifoCap.val

/-- RD reads, WR writes (the columns of rule R83). -/
inductive Access where
  | read
  | write
  deriving DecidableEq, Repr

/-- Step 4 of rule R119: the port may not make this access to the region (rule R83). Of the registers, Port C may write
STATUS only. -/
def portForbids (port : Port) (acc : Access) (region : Region) (index : Nat) : Bool :=
  match port, acc, region with
  | .producer, _, .consBuf => true
  | .producer, _, _ => false
  | .consumer, _, .preL | .consumer, _, .postL | .consumer, _, .postR => true
  | .consumer, .read, _ => false
  | .consumer, .write, .consBuf => false
  | .consumer, .write, .regs => index != 1
  | .consumer, .write, _ => true

/-- Step 6 of rule R119: the word is read-only. -/
def readOnlyWord (region : Region) (index : Nat) : Bool :=
  match region with
  | .regs => match Register.ofIndex index with
    | some r => !r.writable
    | none => true
  | .phL | .phR | .consBuf => true
  | .preL | .postL | .postR | .magL | .magR => false

/-- Steps 3 to 6 of rule R119 for a RD or WR: the code the access is answered with, `ok` when it is performed. -/
def checkAccess (s : State) (acc : Access) (addr : BitVec 24) : RespCode :=
  match regionOf addr with
  | none => .errAddr
  | some region =>
    if region = .regs ∧ 0x24 < indexOf addr then .errAddr
    else if portForbids s.port acc region (indexOf addr) then .errPort
    else if region.bound s ≤ indexOf addr then .errAddr
    else if acc = .write ∧ readOnlyWord region (indexOf addr) then .errAddr
    else .ok

/-- The word a performed RD answers (rule R141). -/
def readWord (s : State) (addr : BitVec 24) : Word :=
  match regionOf addr with
  | some .regs => match Register.ofIndex (indexOf addr) with
    | some r => r.read s
    | none => 0
  | _ => s.mem.read addr.toNat

end Sys2Proof.Machine
end

