-- ==== Sys2Proof/Machine/Ops.lean ====
section
/-! DEFINITION. The shared operations of the meanings: answering a command, the GEN bracket, the write steps of a Port P
command, and the FIFO. -/

namespace Sys2Proof.Machine

/-! ### Responses -/

/-- `respond(code, data)` of rule R8: the port whose command is performed returns one response (rule R118). -/
def respond (code : RespCode) (data : Word) (s : State) : State :=
  match s.port with
  | .producer => { s with outP := s.outP ++ [⟨code, data⟩] }
  | .consumer => { s with outC := s.outC ++ [⟨code, data⟩] }

/-- ANSWERING AN ERROR, what this block has in place of taking an exception (rules R320 to R322): the sticky STATUS bit of
the code is set, the response is (code, 0), and nothing else changes. There is no state to save and no return
(rules R327, R328). -/
def answerError (code : RespCode) (s : State) : State :=
  respond code 0 (match code.flag with
    | some f => { s with status := s.status.setFlag f true }
    | none => s)

/-! ### The GEN bracket -/

/-- `GEN_OPEN()` (rule R44). -/
def genOpen (s : State) : State := { s with gen := s.gen + 1 }

/-- `GEN_CLOSE()` (rule R44). -/
def genClose (s : State) : State := { s with gen := s.gen + 1 }

/-! ### Write steps -/

/-- Writes a word register. -/
def Regs.set (r : Regs) (name : WordReg) (v : Word) : Regs :=
  match name with
  | .srate => { r with srate := v }
  | .tfreq => { r with tfreq := v }
  | .blklen => { r with blklen := v }
  | .seq => { r with seq := v }
  | .fbin => { r with fbin := v }
  | .thd => { r with thd := v }
  | .thdn => { r with thdn := v }
  | .imd => { r with imd := v }
  | .hcnt => { r with hcnt := v }
  | .harm j => { r with harm := r.harm.set j v }
  | .cratio => { r with cratio := v }
  | .dynIn => { r with dynIn := v }
  | .dynOut => { r with dynOut := v }
  | .attack => { r with attack := v }
  | .consCnt => { r with consCnt := v }

/-- The dynamics series with a pair appended, its oldest pair dropped at the cap (rule R231). -/
def pushPair (series : List (Word × Word)) (pair : Word × Word) : List (Word × Word) :=
  (series ++ [pair]).drop (series.length + 1 - Config.dynCap)

/-- The envelope series with a value appended and its oldest entries dropped down to the cap (rules R234, R236). -/
def pushEnv (series : List Word) (v : Word) (cap : Nat) : List Word :=
  (series ++ [v]).drop (series.length + 1 - cap)

/-- Performs one write step. -/
def WriteStep.apply (w : WriteStep) (s : State) : State :=
  match w with
  | .reg r v => { s with regs := s.regs.set r v }
  | .ctrl b => { s with irqEn := b }
  | .mode m => { s with mode := m }
  | .order o => { s with order := o }
  | .flag f b => { s with status := s.status.setFlag f b }
  | .clearStatus => { s with status := Status.reset }
  | .word a v => { s with mem := s.mem.write a v }
  | .clearSpectrum => { s with mem := s.mem.clearSpectrum }
  | .accept xs => { s with acc := s.acc ++ xs }
  | .clearFill => { s with acc := [] }
  | .dynPush pair => { s with dyn := pushPair s.dyn pair }
  | .clearDyn => { s with dyn := [] }
  | .envPush v cap => { s with env := pushEnv s.env v cap }
  | .clearEnv => { s with env := [] }
  | .clearFifo => { s with fifo := { s.fifo with rd := 0, wr := 0, count := 0 } }

/-- Performs write steps in order. -/
def applyAll (ws : List Write) (s : State) : State := ws.foldl (fun t w => w.step.apply t) s

/-- A write step outside every publication. -/
def WriteStep.plain (w : WriteStep) : Write := ⟨0, w⟩

/-- The end of a bracketed Port P command: `GEN_CLOSE()`, `respond(OK, 0)`. -/
def closeBracket (s : State) : State := respond .ok 0 (genClose s)

/-- A bracketed Port P command from start to end (rule R91): `GEN_OPEN()`, its write steps, `GEN_CLOSE()`,
`respond(OK, 0)`. -/
def bracket (ws : List Write) (s : State) : State := closeBracket (applyAll ws (genOpen s))

/-- A producer command with its write steps: on Port C it answers ERR_PORT (rule R115). -/
def producerCommand (ws : State → List Write) (s : State) : State :=
  match s.port with
  | .producer => bracket (ws s) s
  | .consumer => answerError .errPort s

/-! ### A command under way (rule R91) -/

/-- The write steps of the harmonic registers HARM1 to HARM10, in order (rule R224). -/
def harmSteps (level : Fin 10 → Word) : List WriteStep := (List.finRange 10).map fun j => .reg (.harm j) (level j)

/-- The single-word steps a write step stands for: the spectrum words are written one by one. -/
def WriteStep.expand : WriteStep → List WriteStep
  | .clearSpectrum => spectrumAddresses.map fun a => .word a (spectrumReset a)
  | w => [w]

/-- The single-word steps of a command's write steps, each in the publication of the step it comes from. -/
def expandAll (ws : List Write) : List Write := ws.flatMap fun w => w.step.expand.map fun x => ⟨w.pub, x⟩

/-- What a write step writes. -/
inductive Target where
  | reg (r : WordReg)
  | ctrl
  | mode
  | order
  | flag (f : Flag)
  | status
  | word (addr : Nat)
  | spectrum
  | fill
  | dynSeries
  | envSeries
  | fifo
  deriving DecidableEq, Repr

/-- The target of a write step. -/
def WriteStep.target : WriteStep → Target
  | .reg r _ => .reg r
  | .ctrl _ => .ctrl
  | .mode _ => .mode
  | .order _ => .order
  | .flag f _ => .flag f
  | .clearStatus => .status
  | .word a _ => .word a
  | .clearSpectrum => .spectrum
  | .accept _ => .fill
  | .clearFill => .fill
  | .dynPush _ => .dynSeries
  | .clearDyn => .dynSeries
  | .envPush _ _ => .envSeries
  | .clearEnv => .envSeries
  | .clearFifo => .fifo

/-- Two targets share a word. STATUS flags are separate read-modify-write steps; a write of all of STATUS, or of the whole
spectrum RAM, concerns each of its parts. -/
def Target.meets : Target → Target → Bool
  | .flag _, .status => true
  | .status, .flag _ => true
  | .word _, .spectrum => true
  | .spectrum, .word _ => true
  | a, b => a == b

/-- Two steps write the same word, so their order is the command's own. -/
def WriteStep.conflicts (a b : WriteStep) : Bool := a.target.meets b.target

/-- The step that sets STATUS.READY comes after every other step of its publication (rule R193). -/
def Write.readyWaits (earlier later : Write) : Bool :=
  later.step == .flag .ready true && later.pub != 0 && earlier.pub == later.pub

/-- An earlier step that must be performed before a later one; every other order is allowed (rule R91). -/
def Write.blocks (earlier later : Write) : Bool :=
  earlier.step.conflicts later.step || earlier.readyWaits later

/-- The steps that may come next, each with the steps then left, in the command's order. -/
def nextSteps : List Write → List (Write × List Write)
  | [] => []
  | w :: ws => (w, ws) :: ((nextSteps ws).filter fun p => !w.blocks p.1).map fun p => (p.1, w :: p.2)

/-- The state after the Port P command under way, if any, has run to its end with no Port C step between. -/
def State.drain (s : State) : State :=
  match s.inFlight with
  | none => s
  | some ws => closeBracket (applyAll ws { s with port := .producer, inFlight := none })

/-! ### The FIFO (rules R260 to R265) -/

/-- The word of a FIFO_RAM slot. -/
def Fifo.slot (f : Fifo) (i : Nat) : Word := (cellsGet f.slots i).getD (Config.powerOnSlot i)

/-- The FIFO's contents Q, oldest first (rules R62, R260). -/
def Fifo.queue (f : Fifo) (cap : Nat) : List Word := (List.range f.count).map fun j => f.slot ((f.rd + j) % cap)

/-- Stores words in consecutive slots from a cursor, wrapping at the capacity. -/
def storeSlots (cap : Nat) : List Cell → Nat → List Word → List Cell
  | slots, _, [] => slots
  | slots, at_, x :: xs => storeSlots cap (cellsPut slots (at_ % cap) x) (at_ + 1) xs

/-- FWR's effect on the FIFO: the first `min(L, C − FIFO_COUNT)` words are appended, the rest dropped (rules R261,
R262). -/
def Fifo.push (f : Fifo) (cap : Nat) (xs : List Word) : Fifo :=
  let kept := xs.take (cap - f.count)
  { f with
    slots := storeSlots cap f.slots f.wr kept
    wr := (f.wr + kept.length) % cap
    count := f.count + kept.length }

/-- FRD's effect on the FIFO: the `n` oldest words leave it (rule R263). -/
def Fifo.pop (f : Fifo) (cap n : Nat) : Fifo := { f with rd := (f.rd + n) % cap, count := f.count - n }

/-- Writes words to consecutive RAM words from an address. -/
def Memory.writeList (m : Memory) : Nat → List Word → Memory
  | _, [] => m
  | a, x :: xs => Memory.writeList (m.write a x) (a + 1) xs

end Sys2Proof.Machine
end

