-- ==== Sys2Proof/Machine/Control.lean ====
section
/-! DEFINITION. Mode control, the Linear trigger, the soft reset and the resize (rules R290 to R295). -/

namespace Sys2Proof.Machine

/-- SetMode (rules R290, R291). -/
def setModeSteps (m : Mode) (s : State) : List Write :=
  if m = s.mode then []
  else [WriteStep.plain (.mode m), WriteStep.plain .clearFill, WriteStep.plain (.flag .analyzing false)]

/-- Resize (rule R295), for a new order; a write of the current order changes nothing (rule R147). -/
def resizeSteps (o : Order) (s : State) : List Write :=
  if o = s.order then []
  else
    [WriteStep.plain (.order o), WriteStep.plain .clearFill, WriteStep.plain .clearSpectrum,
      WriteStep.plain (.flag .valid false)]

/-- The write steps of TRIG (rule R292). -/
def trigSteps (_s : State) : List Write := [WriteStep.plain (.flag .analyzing true)]

/-- TRIG (rule R292). -/
def execTrig (_imm : BitVec 24) (s : State) : Host.Outcome State Fault Refusal := .next (producerCommand trigSteps s)

/-- The word registers before the harmonics with their reset values (the reset column of rule R32). -/
def resetWordSteps : List WriteStep :=
  [.reg .srate Regs.reset.srate, .reg .tfreq Regs.reset.tfreq, .reg .blklen Regs.reset.blklen, .reg .seq Regs.reset.seq,
    .reg .fbin Regs.reset.fbin, .reg .thd Regs.reset.thd, .reg .thdn Regs.reset.thdn, .reg .imd Regs.reset.imd,
    .reg .hcnt Regs.reset.hcnt]

/-- The word registers after the harmonics with their reset values (the reset column of rule R32). -/
def resetDynSteps : List WriteStep :=
  [.reg .cratio Regs.reset.cratio, .reg .dynIn Regs.reset.dynIn, .reg .dynOut Regs.reset.dynOut,
    .reg .attack Regs.reset.attack, .reg .consCnt Regs.reset.consCnt]

/-- The word registers with their reset values (the reset column of rule R32). -/
def resetRegSteps : List WriteStep := resetWordSteps ++ (harmSteps fun _ => Config.magFloor) ++ resetDynSteps

/-- The write steps of SRST (rule R293): every register but GEN, the spectrum RAM, FILL, both series, and the FIFO in one
step. -/
def srstSteps (_s : State) : List Write :=
  (WriteStep.clearStatus :: .ctrl false :: .mode .linear :: .order Order.reset :: .clearSpectrum :: .clearFill ::
    .clearDyn :: .clearEnv :: .clearFifo :: resetRegSteps).map WriteStep.plain

/-- SRST (rule R293). -/
def execSrst (_imm : BitVec 24) (s : State) : Host.Outcome State Fault Refusal := .next (producerCommand srstSteps s)

end Sys2Proof.Machine
end

