-- ==== Sys2Proof/Machine/AccessCommands.lean ====
section
/-! DEFINITION. NOP, RD and WR (rules R140 to R152). -/

namespace Sys2Proof.Machine

/-- NOP (rule R140). -/
def execNop (_imm : BitVec 24) (s : State) : Host.Outcome State Fault Refusal := .next (respond .ok 0 s)

/-- RD (rule R141): the word, or the error of rule R119. -/
def execRd (addr : BitVec 24) (s : State) : Host.Outcome State Fault Refusal :=
  match checkAccess s .read addr with
  | .ok => .next (respond .ok (readWord s addr) s)
  | .errCmd => .next (answerError .errCmd s)
  | .errAddr => .next (answerError .errAddr s)
  | .errPort => .next (answerError .errPort s)

/-! ### The write rules of the targets -/

/-- 20.0, 20000.0 (rule R149); 8000.0, 192000.0 (rule R148). -/
def f32Twenty : Word := 0x41A00000
def f32TwentyThousand : Word := 0x469C4000
def f32EightThousand : Word := 0x45FA0000
def f32HundredNinetyTwoThousand : Word := 0x483B8000

/-- A legal sample rate: finite and in [8000, 192000] (rule R148). -/
def legalRate (w : Word) : Bool :=
  f32IsFinite w && decide (f32Int f32EightThousand ≤ f32Int w) && decide (f32Int w ≤ f32Int f32HundredNinetyTwoThousand)

/-- WR to TFREQ (rule R149): a NaN is ignored, a value outside [20, 20000] is clamped. -/
def tfreqSteps (data : Word) : List WriteStep :=
  if f32IsNaN data then []
  else if f32Int data < f32Int f32Twenty then [.reg .tfreq f32Twenty]
  else if f32Int f32TwentyThousand < f32Int data then [.reg .tfreq f32TwentyThousand]
  else [.reg .tfreq data]

/-- WR to a register other than STATUS (rules R145 to R150). -/
def regWriteSteps (r : Register) (data : Word) (s : State) : List Write :=
  match r with
  | .ctrl => [WriteStep.plain (.ctrl (data.getLsbD 0))]
  | .mode =>
    match Mode.ofCode data.toNat with
    | some m => setModeSteps m s
    | none => []
  | .order =>
    match Order.ofNat? data.toNat with
    | some o => resizeSteps o s
    | none => []
  | .srate => if legalRate data then [WriteStep.plain (.reg .srate data)] else []
  | .tfreq => (tfreqSteps data).map WriteStep.plain
  | .blklen => if data.toNat ≤ s.blkMax.val then [WriteStep.plain (.reg .blklen data)] else []
  | _ => []

/-- The write steps of a performed WR to any address but STATUS (rules R143, R145 to R152). -/
def wrSteps (addr : BitVec 24) (data : Word) (s : State) : List Write :=
  match regionOf addr with
  | some .regs =>
    match Register.ofIndex (indexOf addr) with
    | some r => regWriteSteps r data s
    | none => []
  | _ => [WriteStep.plain (.word addr.toNat data)]

/-- The word address of STATUS (rule R34). -/
def statusAddr : BitVec 24 := 0x000001

/-- WR to STATUS: one atomic step, without a GEN bracket (rules R91, R143, R144). -/
def writeStatus (data : Word) (s : State) : State :=
  respond .ok 0 { s with status := s.status.writeOneToClear data }

/-- WR (rule R143). -/
def execWr (addr : BitVec 24) (data : Word) (s : State) : Host.Outcome State Fault Refusal :=
  match checkAccess s .write addr with
  | .ok => .next (if addr = statusAddr then writeStatus data s else bracket (wrSteps addr data s) s)
  | .errCmd => .next (answerError .errCmd s)
  | .errAddr => .next (answerError .errAddr s)
  | .errPort => .next (answerError .errPort s)

end Sys2Proof.Machine
end

