-- ==== Sys2Proof/Machine/Ideal.lean ====
section
/-! DEFINITION. The ideal values of the approximate results, in exact real arithmetic (rules R9, R12, R14, R15, R184 to
R191, R223 to R226, R230). Nothing here is computed by the machine: these are the reals that the named properties of
Sys2Proof/Machine/Numerics.lean compare a stored word with. -/

namespace Sys2Proof.Machine.Ideal

/-- `f32(w)` of rule R9, the real value of a finite pattern. -/
noncomputable def f32Real (w : Word) : ℝ := (f32Int w : ℝ) / 2 ^ 149

/-- `w = bits32(rne(r))` (rule R9, roundTiesToEven): at or above the middle between the largest finite value and 2^128 the
result is an infinity; otherwise no finite pattern is nearer, and of two equally near ones the result has the even
significand; a zero result takes the sign of `r`, and `rne(0)` is +0.0. -/
def IsRne (r : ℝ) (w : Word) : Prop :=
  if 2 ^ 128 - 2 ^ 103 ≤ |r| then w = if r < 0 then 0xFF800000 else 0x7F800000
  else f32IsFinite w ∧ (∀ v : Word, f32IsFinite v → |r - f32Real w| ≤ |r - f32Real v|) ∧
    (∀ v : Word, f32IsFinite v → f32Real v ≠ f32Real w → |r - f32Real w| = |r - f32Real v| → w.getLsbD 0 = false) ∧
    (f32IsZero w → (f32Sign w ↔ r < 0))

/-- `w = bits32(sat(r))` of rule R227: `rne(r)` when that is finite, else the largest finite binary32. -/
def IsSat (r : ℝ) (w : Word) : Prop := if 2 ^ 128 - 2 ^ 103 ≤ |r| then w = f32Max else IsRne r w

/-- `toDb(M, F)` of rule R14 for a finite magnitude: the floor for 0, else `max(F, 20·log10(M))`. -/
noncomputable def toDb (m floor : ℝ) : ℝ := if m = 0 then floor else max floor (20 * Real.logb 10 m)

/-- `gain(d) = 10^(d/20)` of rule R15. -/
noncomputable def gain (d : ℝ) : ℝ := (10 : ℝ) ^ (d / 20)

/-- The symmetric Hann window `WIN_N[n] = 0.5 − 0.5·cos(2πn/(N − 1))` of rule R185. -/
noncomputable def hann (len n : ℕ) : ℝ := 1 / 2 - 1 / 2 * Real.cos (2 * Real.pi * n / ((len : ℝ) - 1))

/-- The working value `x_c[n]` of rule R184: windowed in every mode but Linear. -/
noncomputable def working (block : List Word) (windowed : Bool) (n : ℕ) : ℝ :=
  f32Real (block.getD n 0) * if windowed then hann block.length n else 1

/-- Two channels have the same x_c of rule R184: equally many working values, each the same real. -/
def SameWorking (block : List Word) (windowed : Bool) (block' : List Word) (windowed' : Bool) : Prop :=
  block.length = block'.length ∧ ∀ n < block.length, working block windowed n = working block' windowed' n

/-- `re_c[k]` of rule R186, unnormalised. -/
noncomputable def re (block : List Word) (windowed : Bool) (k : ℕ) : ℝ :=
  ∑ n ∈ Finset.range block.length,
    working block windowed n * Real.cos (2 * Real.pi * k * n / block.length)

/-- `im_c[k]` of rule R186, with the kernel e^(−2πikn/N). -/
noncomputable def im (block : List Word) (windowed : Bool) (k : ℕ) : ℝ :=
  -∑ n ∈ Finset.range block.length,
    working block windowed n * Real.sin (2 * Real.pi * k * n / block.length)

/-- `M_c[k]` of rule R188: `|re|` in bin 0, `sqrt(re² + im²)` above it. -/
noncomputable def magnitude (block : List Word) (windowed : Bool) (k : ℕ) : ℝ :=
  if k = 0 then |re block windowed 0|
  else Real.sqrt (re block windowed k ^ 2 + im block windowed k ^ 2)

/-- The ideal of rule R189: `toDb(M_c[k], −120)`. -/
noncomputable def magDb (block : List Word) (windowed : Bool) (k : ℕ) : ℝ := toDb (magnitude block windowed k) (-120)

/-- The ideal θ of rule R191: 0 in bin 0 and where the magnitude is 0, else `atan2(im, re)` in (−π, π]. -/
noncomputable def phase (block : List Word) (windowed : Bool) (k : ℕ) : ℝ :=
  if k = 0 ∨ magnitude block windowed k = 0 then 0
  else Complex.arg ⟨re block windowed k, im block windowed k⟩

/-- `g(i)` of rule R223, of the coerced levels. -/
noncomputable def g (levels : List Word) (i : ℕ) : ℝ := gain (f32Real (levels.getD i Config.magFloor))

/-- `S_h` of rule R225: the squared gains of the harmonics 2..10 whose bin is below B. -/
noncomputable def harmonicPower (levels : List Word) (fb : ℕ) : ℝ :=
  ∑ h ∈ (Finset.Icc 2 10).filter (fun h => h * fb < levels.length), g levels (h * fb) ^ 2

/-- `S_n` of rule R226: the squared gains of the bins from 1 up that are no multiple of the fundamental bin. -/
noncomputable def noisePower (levels : List Word) (fb : ℕ) : ℝ :=
  ∑ i ∈ (Finset.Ico 1 levels.length).filter (fun i => i % fb ≠ 0), g levels i ^ 2

/-- `THD*` of rule R225. -/
noncomputable def thd (levels : List Word) (fb : ℕ) : ℝ :=
  100 * Real.sqrt (harmonicPower levels fb) / g levels fb

/-- `THDN*` of rule R226. -/
noncomputable def thdn (levels : List Word) (fb : ℕ) : ℝ :=
  100 * Real.sqrt (harmonicPower levels fb + noisePower levels fb) / g levels fb

/-- The ideal level of rule R230: the RMS of the samples in dB, floored at −100. -/
noncomputable def rmsDb (samples : List Word) : ℝ :=
  toDb (Real.sqrt (1 / samples.length * (samples.map fun w => f32Real w ^ 2).sum)) (-100)

end Sys2Proof.Machine.Ideal
end

