-- ==== Sys2Proof/Machine/Numerics.lean ====
section
/-! DEFINITION. The approximate (class AP) results as the machine stores them, the named properties SPECTRUM_OK, THD_OK and
RMS_OK, and the numerics of this block, which meet them (rules R12, R189 to R192, R196, R225 to R227, R230).

Rule R12 makes a result of class AP a word of a configuration function that is the rounded ideal in `reference` mode and a
word with the rule's named property in `tolerant` mode. The properties are predicates here (`MagOk`, `PhOk`, `PercentOk`,
`RmsOk`), `Conforms` says that a `Numerics` meets them, and `Config.numerics` is a free value among the conforming ones. The
ranges and the exact cases that the rules state are kept by the stored words whatever the numerics. -/

namespace Sys2Proof.Machine

/-- A level of the configuration kept finite and at or above `floor` (rules R196 item 1, R230). -/
def keepLevel (floor w : Word) : Word :=
  if f32IsFinite w && decide (f32Int floor ≤ f32Int w) then w else floor

/-- The pattern of rne(π) (rule R191). -/
def f32Pi : Word := 0x40490FDB

/-- A phase of the configuration kept in [−rne(π), rne(π)] (rules R191, R196 item 1). -/
def keepPhase (w : Word) : Word := if (f32Abs w).toNat ≤ f32Pi.toNat then w else 0

/-- A percentage of the configuration for a power sum above 0, kept finite and at or above +0.0 (rules R46, R227), and in
`tolerant` mode other than +0.0 (rule R227: THD = +0.0 exactly when S_h = 0); any other word gives way to the largest finite
binary32, as rule R227 saturates. -/
def keepPercent (mode : NumericsMode) (w : Word) : Word :=
  if w.toNat < f32Inf.toNat && (mode == .reference || w != 0) then w else f32Max

/-- The level next above −100.0. -/
def aboveDynFloor : Word := 0xC2C7FFFF

/-- An RMS level of the configuration for a block with a sample other than ±0.0, kept finite and at or above −100.0, and in
`tolerant` mode other than −100.0 (rule R230: equal to −100.0 exactly when every sample is ±0.0). -/
def keepRms (mode : NumericsMode) (w : Word) : Word :=
  if f32IsFinite w && decide (f32Int Config.dynFloor ≤ f32Int w) && (mode == .reference || w != Config.dynFloor) then w
  else aboveDynFloor

/-- Whether sample `n` of an `len`-sample block has window weight 0: rule R185 gives `WIN_N[0] = WIN_N[N−1] = 0`. -/
def windowEnd (windowed : Bool) (len n : Nat) : Bool := windowed && (n == 0 || n + 1 == len)

/-- The samples as NUM_MAG and NUM_PH see them: the working values x_c of rule R184 depend neither on the sign of a zero nor
on the samples a window zeroes (rule R12: "depends on the listed inputs only"; notes/assumptions/5.md). -/
def workingKey (windowed : Bool) (block : List Word) : List Word :=
  block.zipIdx.map fun (w, n) => if f32IsZero w || windowEnd windowed block.length n then 0 else w

/-- Rule R196 item 2: every working value is the real 0. -/
def silent (windowed : Bool) (block : List Word) : Bool := (workingKey windowed block).all (· == 0)

/-- Rule R190 (a): some sample of the channel is NaN or ±Inf. -/
def degenerate (block : List Word) : Bool := block.any fun w => !f32IsFinite w

/-- The stored magnitude words of a channel's bins 0 to `bins` − 1 (rules R187, R189, R190, R196). The
samples and the window flag stand for x_c (`DependsOnWorking`). -/
def magWords (num : Numerics) (windowed : Bool) (block : List Word) (bins : Nat) : List Word :=
  if degenerate block || silent windowed block then List.replicate bins Config.magFloor
  else (List.range bins).map fun k => keepLevel Config.magFloor (num.mag (workingKey windowed block) windowed k)

/-- The stored phase words of a channel's bins 0 to `bins` − 1 (rules R187, R190, R191, R192, R196). The
samples and the window flag stand for x_c (`DependsOnWorking`). -/
def phWords (num : Numerics) (windowed : Bool) (block : List Word) (bins : Nat) : List Word :=
  if degenerate block || silent windowed block then List.replicate bins 0
  else (List.range bins).map fun k =>
    if k = 0 then 0 else keepPhase (num.ph (workingKey windowed block) windowed k)

/-- Whether the sum S_h of rule R225 is empty: already harmonic 2 is at or above `bins`. -/
def noHarmonics (bins fb : Nat) : Bool := decide (bins ≤ 2 * fb)

/-- Whether the sum S_n of rule R226 is empty: every bin is a multiple of the fundamental bin. -/
def noNoise (fb : Nat) : Bool := fb == 1

/-- The stored THD word (rules R225, R227): +0.0 when S_h = 0. -/
def thdWord (num : Numerics) (levels : List Word) (fb : Nat) : Word :=
  if noHarmonics levels.length fb then 0 else keepPercent num.mode (num.thd levels fb)

/-- The THD+N value that rule R227 stores where it is not below THD: +0.0 when S_h + S_n = 0. -/
def thdnValue (num : Numerics) (levels : List Word) (fb : Nat) : Word :=
  if noHarmonics levels.length fb && noNoise fb then 0 else keepPercent num.mode (num.thdn levels fb)

/-- The stored THDN word, `max(THD, THDN value)` (rules R226, R227). Percentages are nonnegative, so the larger pattern is the
larger value. -/
def thdnWord (num : Numerics) (levels : List Word) (fb : Nat) : Word :=
  if (thdWord num levels fb).toNat ≤ (thdnValue num levels fb).toNat then thdnValue num levels fb
  else thdWord num levels fb

/-- `Level` of rule R230: −100.0 for a block with a NaN or ±Inf sample and for a block of zeros. -/
def levelWord (num : Numerics) (samples : List Word) : Word :=
  if degenerate samples || samples.all f32IsZero then Config.dynFloor
  else keepRms num.mode (num.rmsDb samples)

/-! ### The named properties -/

/-- An error is at most a tolerance times the size it is relative to. -/
def Within (tol : Tolerance) (error size : ℝ) : Prop := ∀ t : ℚ≥0, tol = some t → error ≤ (t : ℝ) * size

/-- Rule R196 item 5: `N × max|x_c[n]| ≥ 2^128`. -/
def OverflowBand (block : List Word) (windowed : Bool) : Prop :=
  ∃ n < block.length, (2 : ℝ) ^ 128 ≤ block.length * |Ideal.working block windowed n|

/-- The magnitude clauses of SPECTRUM_OK (rule R196 items 1 to 3 and 5; in `reference` mode rule R189): `w` is an admissible
word for bin `k` of a channel whose samples are all finite. -/
def MagOk (num : Numerics) (block : List Word) (windowed : Bool) (k : Nat) (w : Word) : Prop :=
  f32IsFinite w ∧ -120 ≤ Ideal.f32Real w ∧ (silent windowed block → w = Config.magFloor) ∧
    ((OverflowBand block windowed ∧ w = Config.magFloor) ∨
      match num.mode with
      | .reference => Ideal.IsRne (Ideal.magDb block windowed k) w
      | .tolerant => Within num.tolMagDb |Ideal.f32Real w - Ideal.magDb block windowed k| 1)

/-- The phase clauses of SPECTRUM_OK (rule R196 items 1, 2, 4 and 5; in `reference` mode rule R191). The difference taken
modulo 2π into (−π, π] is at most the tolerance when some representative of it is. -/
def PhOk (num : Numerics) (block : List Word) (windowed : Bool) (k : Nat) (w : Word) : Prop :=
  f32IsFinite w ∧ |Ideal.f32Real w| ≤ Ideal.f32Real f32Pi ∧ (k = 0 ∨ silent windowed block → w = 0) ∧
    (OverflowBand block windowed ∨
      match num.mode with
      | .reference => Ideal.IsRne (Ideal.phase block windowed k) w
      | .tolerant => (num.phMinDb : ℝ) ≤ Ideal.magDb block windowed k →
          ∃ m : ℤ, Within num.tolPhase |Ideal.f32Real w - Ideal.phase block windowed k - 2 * Real.pi * m| 1)

/-- THD_OK of one percentage with power sum `power` and ideal `r` (rule R227): S_h and THD*, or S_h + S_n and THDN*. -/
def PercentOk (num : Numerics) (power r : ℝ) (w : Word) : Prop :=
  w.toNat < f32Inf.toNat ∧
    match num.mode with
    | .reference => Ideal.IsSat r w
    | .tolerant => (w = 0 ↔ power = 0) ∧
        if Ideal.f32Real f32Max < r then w = f32Max else Within num.tolThdRel |Ideal.f32Real w - r| r

/-- `PercentOk` of a THD word for coerced levels and a fundamental bin (rules R225, R227). -/
def ThdValueOk (num : Numerics) (levels : List Word) (fb : Nat) (w : Word) : Prop :=
  PercentOk num (Ideal.harmonicPower levels fb) (Ideal.thd levels fb) w

/-- `PercentOk` of a THD+N word for coerced levels and a fundamental bin (rules R226, R227). -/
def ThdnValueOk (num : Numerics) (levels : List Word) (fb : Nat) (w : Word) : Prop :=
  PercentOk num (Ideal.harmonicPower levels fb + Ideal.noisePower levels fb) (Ideal.thdn levels fb) w

/-- THD_OK (rule R227) of the stored pair. In `reference` mode THDN is the larger of THD and `sat(THDN*)`. -/
def ThdOk (num : Numerics) (levels : List Word) (fb : Nat) (thd thdn : Word) : Prop :=
  ThdValueOk num levels fb thd ∧ thd.toNat ≤ thdn.toNat ∧
    match num.mode with
    | .reference => ∃ v, Ideal.IsSat (Ideal.thdn levels fb) v ∧ thdn = if thd.toNat ≤ v.toNat then v else thd
    | .tolerant => ThdnValueOk num levels fb thdn

/-- RMS_OK (rule R230) of the level of a block whose samples are all finite; in `reference` mode the rounded ideal. -/
def RmsOk (num : Numerics) (samples : List Word) (w : Word) : Prop :=
  f32IsFinite w ∧ -100 ≤ Ideal.f32Real w ∧
    match num.mode with
    | .reference => Ideal.IsRne (Ideal.rmsDb samples) w
    | .tolerant => (w = Config.dynFloor ↔ ∀ x ∈ samples, f32IsZero x) ∧
        Within num.tolRmsDb |Ideal.f32Real w - Ideal.rmsDb samples| 1

/-! ### The numerics of this block -/

/-- `w` has the property wherever some word has it. In `reference` mode one word always has it, the rounded ideal; in
`tolerant` mode a tolerance may be too narrow for any binary32 word (notes/assumptions/24.md). -/
def Admissible (ok : Word → Prop) (w : Word) : Prop := (∃ v, ok v) → ok w

/-- A spectrum function depends on its listed inputs `(x_c, k)` only (rules R12, R189, R191): two channels with the same working
values get the same words, also where one of them is windowed and the other is not. That x_c is the N reals of rule R184 and
nothing beside them is read from rule R12 (DEDUCED, notes/assumptions/25.md). -/
def DependsOnWorking (f : List Word → Bool → Nat → Word) : Prop :=
  ∀ block windowed block' windowed', degenerate block = false → degenerate block' = false →
    Ideal.SameWorking block windowed block' windowed' →
    f (workingKey windowed block) windowed = f (workingKey windowed' block') windowed'

/-- An implementation conforms (rule R12): on every input the machine hands it, each configuration function gives a word
with the named property of its rule, and the spectrum functions depend on the listed inputs only. -/
structure Conforms (num : Numerics) : Prop where
  magInputs : DependsOnWorking num.mag
  phInputs : DependsOnWorking num.ph
  mag : ∀ block windowed k, degenerate block = false → k < block.length / 2 →
    Admissible (MagOk num block windowed k) (num.mag (workingKey windowed block) windowed k)
  ph : ∀ block windowed k, degenerate block = false → k < block.length / 2 →
    Admissible (PhOk num block windowed k) (num.ph (workingKey windowed block) windowed k)
  thd : ∀ levels fb, 1 ≤ fb → fb < levels.length → Admissible (ThdValueOk num levels fb) (num.thd levels fb)
  thdn : ∀ levels fb, 1 ≤ fb → fb < levels.length → Admissible (ThdnValueOk num levels fb) (num.thdn levels fb)
  rmsDb : ∀ samples, samples ≠ [] → degenerate samples = false → Admissible (RmsOk num samples) (num.rmsDb samples)

/-- Numerics with no bound on any error: the ranges and the exact cases are all they meet. They conform
(`looseNumerics_conforms`). -/
def looseNumerics : Numerics where
  mode := .tolerant
  tolMagDb := none
  tolPhase := none
  phMinDb := 0
  tolThdRel := none
  tolRmsDb := none
  mag := fun _ _ _ => Config.magFloor
  ph := fun _ _ _ => 0
  thd := fun levels fb => if noHarmonics levels.length fb then 0 else f32Max
  thdn := fun levels fb => if noHarmonics levels.length fb && noNoise fb then 0 else f32Max
  rmsDb := fun samples => if samples.all f32IsZero then Config.dynFloor else aboveDynFloor

/-- The conforming numerics: any `Numerics` with a proof that it conforms. `loose` shows that there is one. -/
inductive ConformingNumerics where
  | loose
  | of (num : Numerics) (conforms : Conforms num)
  deriving Inhabited

/-- The numerics themselves. -/
def ConformingNumerics.numerics : ConformingNumerics → Numerics
  | .loose => looseNumerics
  | .of num _ => num

end Sys2Proof.Machine

namespace Sys2Proof.Config

/-- Which conforming numerics this block has: a free value (rules R6, R12; 93_implementation_defined.md;
notes/assumptions/4.md). -/
opaque conformingNumerics : Machine.ConformingNumerics

/-- The numerics of this block: NUMERICS_MODE, the tolerances and the configuration functions are parameters without a value,
of which the machine has nothing but that they conform (`config_numerics_conform`). -/
def numerics : Numerics := conformingNumerics.numerics

end Sys2Proof.Config
end

