-- ==== Sys2Proof/Machine/Metrics.lean ====
section
/-! DEFINITION. The metric engine: THD and THD+N, dynamics, envelope (rules R220 to R236). -/

namespace Sys2Proof.Machine

/-! ### Distortion (rules R221 to R227) -/

/-- The fundamental bin `roundHalfAway(TFREQ × N / SRATE)`, exact from the stored patterns (rule R221). -/
def fundamentalBin (order : Order) (srate tfreq : Word) : Nat :=
  roundHalfAway (f32Mag tfreq * 2 ^ order.val) (f32Mag srate)

/-- The coerced level `m(i)` of a spectrum word: −120.0 for NaN, ±Inf and values below it (rule R223). -/
def coerceLevel (w : Word) : Word := keepLevel Config.magFloor w

/-- HARMj: the level of harmonic j + 1 where its bin is below B, else −120.0 (rule R224). -/
def harmLevel (levels : List Word) (fb j : Nat) : Word :=
  if (j + 1) * fb < levels.length then levels.getD ((j + 1) * fb) Config.magFloor else Config.magFloor

/-- HCNT: 1 + the number of harmonics h in 2..10 with h × fb < B, for a fundamental bin below B (rule R224). -/
def harmCount (bins fb : Nat) : Nat :=
  ((List.range Config.harmMax).filter fun j => decide ((j + 1) * fb < bins)).length

/-- The write steps of Distortion() from the MAG_L words `mags` of the N/2 bins (rules R221 to R227). -/
def distortionSteps (num : Numerics) (order : Order) (srate tfreq : Word) (mags : List Word) : List WriteStep :=
  let fb := fundamentalBin order srate tfreq
  let levels := mags.map coerceLevel
  .reg .fbin (BitVec.ofNat 32 fb) ::
    if fb < 1 ∨ levels.length ≤ fb then
      .reg .thd 0 :: .reg .thdn 0 :: .reg .hcnt 0 :: harmSteps fun _ => Config.magFloor
    else
      harmSteps (fun j => harmLevel levels fb j) ++
        [.reg .hcnt (BitVec.ofNat 32 (harmCount levels.length fb)),
          .reg .thd (thdWord num levels fb), .reg .thdn (thdnWord num levels fb)]

/-- The write steps of THD: Distortion() on the stored spectrum of channel L (rules R220, R223). -/
def thdSteps (num : Numerics) (s : State) : List Write :=
  (distortionSteps num s.order s.regs.srate s.regs.tfreq (s.mem.block baseMagL s.bins)).map WriteStep.plain

/-- THD (rule R220). -/
def execThd (_imm : BitVec 24) (s : State) : Host.Outcome State Fault Refusal :=
  .next (producerCommand (thdSteps Config.numerics) s)

/-! ### Dynamics (rules R229 to R232) -/

/-- UpdateRatio on the dynamics series, newest pair last (rule R232). Levels are differences of exact values in units of
2^−149. -/
def ratioSteps (series : List (Word × Word)) : List WriteStep :=
  if series.length < Config.dynLag then []
  else
    match series[series.length - Config.dynLag]?, series.getLast? with
    | some old, some new =>
      let a := f32Int new.1 - f32Int old.1
      let d := f32Int new.2 - f32Int old.2
      if f32One < a.natAbs ∧ d ≠ 0 then [.reg .cratio (rneQuot a d)] else []
    | _, _ => []

/-- The write steps of DYN (rules R229 to R232). -/
def dynSteps (num : Numerics) (s : State) : List Write :=
  let len := s.regs.blklen.toNat
  if len = 0 then []
  else
    let lin := levelWord num (s.mem.block basePreL len)
    let lout := levelWord num (s.mem.block basePostL len)
    (WriteStep.dynPush (lin, lout) :: .reg .dynIn lin :: .reg .dynOut lout ::
      ratioSteps (pushPair s.dyn (lin, lout))).map WriteStep.plain

/-- DYN (rule R229). -/
def execDyn (_imm : BitVec 24) (s : State) : Host.Outcome State Fault Refusal :=
  .next (producerCommand (dynSteps Config.numerics) s)

/-! ### Envelope (rules R233 to R236) -/

/-- The value ENV appends for a sample: its magnitude, +0.0 for NaN (rule R233). -/
def envValue (w : Word) : Word := if f32IsNaN w then 0 else f32Abs w

/-- The envelope cap `floor(10 × f32(SRATE))` (rule R236). -/
def envCap (srate : Word) : Nat := Config.envSeconds * f32Mag srate / f32One

/-- The largest of nonnegative values, +0.0 of none: larger patterns are larger values (rule R235). -/
def envPeak (window : List Word) : Word := window.foldl (fun p w => if p.toNat < w.toNat then w else p) 0

/-- `w ≥ tenths × peak / 10` in the extended reals (rule R235). -/
def reaches (tenths : Nat) (peak w : Word) : Bool :=
  if peak = f32Inf then w == f32Inf else decide (tenths * f32Mag peak ≤ 10 * f32Mag w)

/-- UpdateAttack on the envelope series, newest value last (rule R235). -/
def attackSteps (srate : Word) (series : List Word) : List WriteStep :=
  if series.length < Config.envWin then []
  else
    let window := series.drop (series.length - Config.envWin)
    let peak := envPeak window
    let idx10 := window.findIdx (reaches 1 peak)
    let idx90 := window.findIdx (reaches 9 peak)
    if idx10 < idx90 then [.reg .attack (rneFrac false ((idx90 - idx10) * f32One) (f32Mag srate))] else []

/-- The write steps of ENV (rules R233 to R236). -/
def envSteps (s : State) : List Write :=
  let len := s.regs.blklen.toNat
  if len = 0 then []
  else
    let cap := envCap s.regs.srate
    let values := (s.mem.block basePostL len).map envValue
    (values.map (fun v => WriteStep.envPush v cap) ++
      attackSteps s.regs.srate (values.foldl (fun series v => pushEnv series v cap) s.env)).map WriteStep.plain

/-- ENV (rule R233). -/
def execEnv (_imm : BitVec 24) (s : State) : Host.Outcome State Fault Refusal :=
  .next (producerCommand envSteps s)

end Sys2Proof.Machine
end

