-- ==== Sys2Proof/Machine/Accumulate.lean ====
section
/-! DEFINITION. Accumulation, transform and publication (rules R180 to R197). -/

namespace Sys2Proof.Machine

/-- The write steps of words to consecutive addresses from `base`. -/
def wordSteps (base : Nat) (ws : List Word) : List WriteStep := ws.zipIdx.map fun (v, k) => .word (base + k) v

/-- The configuration a transform runs under; no step of ACC changes it. -/
structure AccSetup where
  mode : Mode
  order : Order
  srate : Word
  tfreq : Word

/-- Every mode but Linear is windowed (rule R184). -/
def AccSetup.windowed (u : AccSetup) : Bool := u.mode != .linear

/-- The spectrum steps of a publication: MAG and PH of both channels, bins 0 to N/2 − 1 (rules R187, R193). -/
def spectrumSteps (num : Numerics) (u : AccSetup) (left right : List Word) : List WriteStep :=
  let bins := 2 ^ u.order.val / 2
  wordSteps baseMagL (magWords num u.windowed left bins) ++ wordSteps baseMagR (magWords num u.windowed right bins) ++
    wordSteps basePhL (phWords num u.windowed left bins) ++ wordSteps basePhR (phWords num u.windowed right bins)

/-- The metric a mode runs at a transform (rules R193, R228): Distortion in Harmonic and THDSweep, the IMD placeholder in
IMD, none in the others. -/
def metricSteps (num : Numerics) (u : AccSetup) (left : List Word) : List WriteStep :=
  match u.mode with
  | .harmonic | .thdSweep =>
    distortionSteps num u.order u.srate u.tfreq (magWords num u.windowed left (2 ^ u.order.val / 2))
  | .imd => [.reg .imd 0]
  | .linear | .hammerstein | .whiteNoise | .sineSweep | .dynamics | .performance => []

/-- The publication of a transform of the N accumulated samples (rule R193). READY is last. -/
def publicationSteps (num : Numerics) (u : AccSetup) (seq : Word) (samples : List (Word × Word)) : List WriteStep :=
  let left := samples.map Prod.fst
  let right := samples.map Prod.snd
  spectrumSteps num u left right ++ [WriteStep.flag .valid true] ++
    (if u.mode = .linear then [WriteStep.flag .analyzing false] else []) ++ metricSteps num u left ++
    [WriteStep.reg .seq (seq + 1), WriteStep.flag .ready true]

/-- The passes of ACC's loop (rules R180 to R183, R194): `acc` is what is accumulated, `xs` what is left of the host block,
`analyzing` and `seq` are the register values the loop has reached, `pub` numbers its publications. A pass that fills the
block publishes and leaves FILL = 0, so FILL = N is never written (rule R39). `fuel` bounds the passes; each one copies a
sample at least while FILL < N. -/
def accPasses (num : Numerics) (u : AccSetup) :
    Nat → Nat → List (Word × Word) → List (Word × Word) → Bool → Word → List Write
  | 0, _, _, _, _, _ => []
  | fuel + 1, pub, acc, xs, analyzing, seq =>
    if xs.isEmpty || (u.mode = .linear && !analyzing) then []
    else
      let n := min (2 ^ u.order.val - acc.length) xs.length
      let acc' := acc ++ xs.take n
      if acc'.length = 2 ^ u.order.val then
        (publicationSteps num u seq acc').map (Write.mk pub) ++
          WriteStep.clearFill.plain ::
            accPasses num u fuel (pub + 1) [] (xs.drop n) (analyzing && u.mode != .linear) (seq + 1)
      else
        (WriteStep.accept (xs.take n)).plain :: accPasses num u fuel pub acc' (xs.drop n) analyzing seq

/-- The host block as sample pairs, POST_L with POST_R (rule R180). -/
def hostBlock (s : State) : List (Word × Word) :=
  (s.mem.block basePostL s.regs.blklen.toNat).zip (s.mem.block basePostR s.regs.blklen.toNat)

/-- The write steps of ACC (rule R180). -/
def accSteps (num : Numerics) (s : State) : List Write :=
  accPasses num ⟨s.mode, s.order, s.regs.srate, s.regs.tfreq⟩ (s.regs.blklen.toNat + 1) 1 s.acc (hostBlock s)
    s.status.analyzing s.regs.seq

/-- ACC (rule R180). -/
def execAcc (_imm : BitVec 24) (s : State) : Host.Outcome State Fault Refusal :=
  .next (producerCommand (accSteps Config.numerics) s)

end Sys2Proof.Machine
end

