-- ==== Sys2Proof/Machine/FifoCommands.lean ====
section
/-! DEFINITION. The sample FIFO's commands FWR and FRD, one atomic step each (rules R260 to R267). -/

namespace Sys2Proof.Machine

/-- FWR (rules R261, R262): POST_L[0, BLKLEN) is offered to the FIFO; the response does not say how much was stored. -/
def execFwr (_imm : BitVec 24) (s : State) : Host.Outcome State Fault Refusal :=
  match s.port with
  | .producer =>
    .next (respond .ok 0
      { s with fifo := s.fifo.push s.fifoCap.val (s.mem.block basePostL s.regs.blklen.toNat) })
  | .consumer => .next (answerError .errPort s)

/-- The count FRD moves: `min(m, FIFO_COUNT)` (rule R263). -/
def frdCount (m : BitVec 24) (s : State) : Nat := min m.toNat s.fifo.count

/-- FRD's effect: the oldest `n` samples go to CONS_BUF[0, n), CONS_CNT <- n (rules R263, R264). -/
def takeSamples (n : Nat) (s : State) : State :=
  { s with
    mem := s.mem.writeList baseCons ((s.fifo.queue s.fifoCap.val).take n)
    fifo := s.fifo.pop s.fifoCap.val n
    regs := { s.regs with consCnt := BitVec.ofNat 32 n } }

/-- FRD m (rule R263); the response data is the count moved. -/
def execFrd (maxSamples : BitVec 24) (s : State) : Host.Outcome State Fault Refusal :=
  match s.port with
  | .consumer =>
    .next (respond .ok (BitVec.ofNat 32 (frdCount maxSamples s)) (takeSamples (frdCount maxSamples s) s))
  | .producer => .next (answerError .errPort s)

end Sys2Proof.Machine
end

