-- ==== Sys2Proof/Machine/Dispatch.lean ====
section
/-! DEFINITION. The meaning of each command, one arm per constructor of Instr. -/

namespace Sys2Proof.Machine

-- A command performed whole on the port `s.port`; rule R89.
def exec (i : Instr) (s : State) : Host.Outcome State Fault Refusal :=
  match i with
  | .nop imm => Sys2Proof.Machine.execNop imm s
  | .rd addr => Sys2Proof.Machine.execRd addr s
  | .wr addr data => Sys2Proof.Machine.execWr addr data s
  | .acc imm => Sys2Proof.Machine.execAcc imm s
  | .fwr imm => Sys2Proof.Machine.execFwr imm s
  | .dyn imm => Sys2Proof.Machine.execDyn imm s
  | .env imm => Sys2Proof.Machine.execEnv imm s
  | .thd imm => Sys2Proof.Machine.execThd imm s
  | .trig imm => Sys2Proof.Machine.execTrig imm s
  | .srst imm => Sys2Proof.Machine.execSrst imm s
  | .frd maxSamples => Sys2Proof.Machine.execFrd maxSamples s

end Sys2Proof.Machine
end

