-- ==== Sys2Proof/Machine/Ports.lean ====
section
/-! DEFINITION. The ports: receiving commands, and the atomic steps of a Port P command (rules R89 to R91). -/

namespace Sys2Proof.Machine

/-- What the decoder reads next on a port. -/
def State.received (s : State) (port : Port) : Decoded :=
  match port with
  | .producer => decode s.inP
  | .consumer => decode s.inC

/-- Consumes a port's words down to `rest` and makes it the port whose command is performed. -/
def State.take (s : State) (port : Port) (rest : List Word) : State :=
  match port with
  | .producer => { s with port := .producer, inP := rest }
  | .consumer => { s with port := .consumer, inC := rest }

/-- A port receives its next command and performs it whole. A reserved opcode answers ERR_CMD (rule R116). A port that has
received no whole command does nothing (rules R111, R334). -/
def runPort (port : Port) (s : State) : Host.Outcome State Fault Refusal :=
  match s.received port with
  | .command i rest => exec i (s.take port rest)
  | .reserved _ rest => .next (answerError .errCmd (s.take port rest))
  | .incomplete => .next s

/-- The write steps of a command that rule R91 performs as a sequence on Port P; none for a command that is one atomic
step (NOP, RD, FWR, WR to STATUS, and every command answered with an error). -/
def bracketed (i : Instr) (s : State) : Option (List Write) :=
  match i with
  | .nop _ | .rd _ | .fwr _ | .frd _ => none
  | .wr addr data =>
    if checkAccess s .write addr = .ok ∧ addr ≠ statusAddr then some (wrSteps addr data s) else none
  | .acc _ => some (accSteps Config.numerics s)
  | .dyn _ => some (dynSteps Config.numerics s)
  | .env _ => some (envSteps s)
  | .thd _ => some (thdSteps Config.numerics s)
  | .trig _ => some (trigSteps s)
  | .srst _ => some (srstSteps s)

/-- Port P begins its next command: `GEN_OPEN()` of a bracketed command, or the whole of any other (rule R91). -/
def beginP (s : State) : Host.Outcome State Fault Refusal :=
  match s.received .producer with
  | .command i rest =>
    match bracketed i (s.take .producer rest) with
    | some ws => .next { genOpen (s.take .producer rest) with inFlight := some (expandAll ws) }
    | none => exec i (s.take .producer rest)
  | .reserved _ rest => .next (answerError .errCmd (s.take .producer rest))
  | .incomplete => .next s

/-- One atomic step of Port P (rule R91): the beginning of its next command, one of the write steps that may come next, or
the closing of the command (rule R91: `GEN_CLOSE()`, with the response of rule R89). -/
def stepP (choice : Nat) (s : State) : Host.Outcome State Fault Refusal :=
  match s.inFlight with
  | none => beginP s
  | some ws =>
    match (nextSteps ws)[choice % (nextSteps ws).length]? with
    | some (w, rest) => .next { w.step.apply s with inFlight := some rest }
    | none => .next s.drain

/-- All that is left of Port P's command under way, or all of its next command (rule R89). -/
def wholeP (s : State) : Host.Outcome State Fault Refusal :=
  match s.inFlight with
  | none => runPort .producer s
  | some _ => .next s.drain

/-- A port has something to do. -/
def State.hasWork (s : State) (port : Port) : Bool :=
  (port == .producer && s.inFlight.isSome) ||
    match s.received port with
    | .incomplete => false
    | .command _ _ | .reserved _ _ => true

/-- The turn taken next, and the state with that decision consumed (rule R90): the turn already decided; else the port that
alone has work; else, where both have, a free turn. -/
def State.nextTurn (s : State) : Option Turn × State :=
  match s.sched with
  | t :: ts => (some t, { s with sched := ts })
  | [] =>
    match s.hasWork .producer, s.hasWork .consumer with
    | false, false => (none, s)
    | true, false => (some .wholeP, s)
    | false, true => (some .portC, s)
    | true, true => (some (Config.freeTurn s.ticks), { s with ticks := s.ticks + 1 })

/-- What a turn does. -/
def runTurn (t : Turn) (s : State) : Host.Outcome State Fault Refusal :=
  match t with
  | .wholeP => wholeP s
  | .stepP choice => stepP choice s
  | .portC => runPort .consumer s

end Sys2Proof.Machine
end

