-- ==== Sys2Proof/Machine/Step.lean ====
section
/-! DEFINITION. One step of the block, and the placing of a command where the next step receives it. -/

namespace Sys2Proof.Machine

/-- One step: the next turn of the interleaving (rule R90). A block with nothing to do does not change (rule R334). -/
def step (s : State) : Host.Outcome State Fault Refusal :=
  match s.nextTurn with
  | (none, t) => .next t
  | (some turn, t) => runTurn turn t

/-- The port a host agent issues an opcode-table row on: FRD on Port C, every other command on Port P (rule R115). -/
def portOfWords (ws : List Word) : Port :=
  match decode ws with
  | .command (.frd _) _ => .consumer
  | .command _ _ => .producer
  | .reserved _ _ => .producer
  | .incomplete => .producer

/-- `s` with the command of bits `w` received on the port that may issue it, ahead of whatever waits there, no command under
way on Port P, and the next turn decided to be that port's: the very next step receives and performs it. -/
def State.withFetchWord (s : State) (nbits w : Nat) : State :=
  match portOfWords (tableWords nbits w) with
  | .producer => { s with inP := tableWords nbits w ++ s.inP, inFlight := none, sched := .wholeP :: s.sched }
  | .consumer => { s with inC := tableWords nbits w ++ s.inC, sched := .portC :: s.sched }

end Sys2Proof.Machine
end

