-- ==== Sys2Proof/Safety.lean ====
section
/-! DEFINITION. What claims about runs of the block speak of: the invariants of rule R66 and of the rules beside it, error
bits, the words Port C can read, and the samples that pass through the FIFO. -/

namespace Sys2Proof.Machine

/-- No sticky error bit is set; 93_implementation_defined.md asks claims about programs to take this as a premise. -/
def State.noError (s : State) : Bool := !s.status.errCmd && !s.status.errAddr && !s.status.errPort

/-- The FIFO invariant (rules R53, R62): cursors below C, the count at most C, the write cursor where the queue ends, the
slots in canonical form, and every slot of the queue written. -/
structure FifoOk (cap : Nat) (f : Fifo) : Prop where
  rd : f.rd < cap
  wr : f.wr = (f.rd + f.count) % cap
  count : f.count ≤ cap
  sorted : cellsSorted f.slots = true
  inRange : ∀ c ∈ f.slots, c.1 < cap
  written : ∀ j < f.count, (cellsGet f.slots ((f.rd + j) % cap)).isSome = true

/-- A legal test frequency: a number in [20, 20000] (rule R41). -/
def legalFreq (w : Word) : Bool :=
  !f32IsNaN w && decide (f32Int f32Twenty ≤ f32Int w) && decide (f32Int w ≤ f32Int f32TwentyThousand)

/-- A level in dB as a result register holds it: finite and at or above a floor. -/
def levelInRange (floor w : Word) : Bool := f32IsFinite w && decide (f32Int floor ≤ f32Int w)

/-- What holds between commands on Port P (rule R66, and the ranges of rules R39 to R64, R227 and R292). -/
structure Settled (s : State) : Prop where
  /-- The memory is in its canonical form. -/
  mem : s.mem.wf = true
  /-- 0 ≤ FILL < N (rules R39, R66). -/
  fill : s.acc.length < s.nsize
  /-- In Linear mode FILL = 0 whenever ANALYZING = 0 (rule R292). -/
  linearIdle : s.mode = .linear → s.status.analyzing = false → s.acc = []
  /-- BLKLEN ≤ BLK_MAX (rule R66). -/
  blklen : s.regs.blklen.toNat ≤ s.blkMax.val
  /-- 8000 ≤ SRATE ≤ 192000 (rule R66). -/
  srate : legalRate s.regs.srate = true
  /-- 20 ≤ TFREQ ≤ 20000 (rule R66). -/
  tfreq : legalFreq s.regs.tfreq = true
  /-- The FIFO invariant (rule R62). -/
  fifo : FifoOk s.fifoCap.val s.fifo
  /-- CONS_CNT ≤ C (rule R54). -/
  consCnt : s.regs.consCnt.toNat ≤ s.fifoCap.val
  /-- FBIN ≤ 81920 (rule R45). -/
  fbin : s.regs.fbin.toNat ≤ 81920
  /-- HCNT ≤ 10 (rule R48). -/
  hcnt : s.regs.hcnt.toNat ≤ 10
  /-- HARMj = −120.0 for j ≥ HCNT (rule R48). -/
  harm : ∀ j : Fin 10, s.regs.hcnt.toNat ≤ j.val → s.regs.harm.get j = Config.magFloor
  /-- THD and THDN are finite and ≥ +0.0, and THDN ≥ THD (rules R46, R227). -/
  thdn : s.regs.thd.toNat ≤ s.regs.thdn.toNat ∧ s.regs.thdn.toNat < f32Inf.toNat
  /-- IMD is +0.0 (rule R47). -/
  imd : s.regs.imd = 0
  /-- DYN_CNT ≤ 1000 (rule R50). -/
  dynCnt : s.dyn.length ≤ Config.dynCap
  /-- DYN_IN and DYN_OUT are the newest pair (rule R63), or their reset values. -/
  dynNewest : s.dyn.getLast?.getD (Config.dynFloor, Config.dynFloor) = (s.regs.dynIn, s.regs.dynOut)
  /-- DYN_IN and DYN_OUT are finite and ≥ −100.0 (rule R50). -/
  dynLevels : levelInRange Config.dynFloor s.regs.dynIn = true ∧ levelInRange Config.dynFloor s.regs.dynOut = true
  /-- ENV_CNT ≤ 10 × 192000 (rule R13). -/
  envCnt : s.env.length ≤ 1920000
  /-- The envelope series holds magnitudes: nonnegative and not NaN (rule R64). -/
  envValues : ∀ w ∈ s.env, w.toNat ≤ f32Inf.toNat
  /-- No result register is NaN (93_implementation_defined.md). -/
  noNaN : f32IsNaN s.regs.cratio = false ∧ f32IsNaN s.regs.attack = false
  /-- Phases lie in [−rne(π), rne(π)] (rule R58). -/
  phases : ∀ c ∈ s.mem.spectrum, basePhL ≤ c.1 → (f32Abs c.2).toNat ≤ f32Pi.toNat
  /-- GEN is even (rule R66). -/
  gen : s.gen.toNat % 2 = 0

/-- A write step to RAM is to a word the RAM has. -/
def Write.inRam (w : Write) : Bool :=
  match w.step with
  | .word a _ => isPlainRam a || hasSpectrumWord a
  | _ => true

/-- The invariant of every step, also in the midst of a Port P command: the memory and the FIFO are in order, the write
steps still to come are to words the RAM has, and when the command under way has run to its end the state is settled. -/
structure Inv (s : State) : Prop where
  mem : s.mem.wf = true
  fifo : FifoOk s.fifoCap.val s.fifo
  inRam : ∀ ws, s.inFlight = some ws → ∀ w ∈ ws, w.inRam = true
  settled : Settled s.drain

/-- The newest response of the port whose command was performed. -/
def State.lastResponse (s : State) : Option Response :=
  match s.port with
  | .producer => s.outP.getLast?
  | .consumer => s.outC.getLast?

/-- The words of rule R93's snapshots: every register but STATUS, GEN, FIFO_COUNT and CONS_CNT. -/
def Register.snapshot : Register → Bool
  | .status | .gen | .fifoCount | .consCnt => false
  | _ => true

/-- A command issued on a port: what it does to the state, where the block completes it (rules R89, R118). -/
def issue (port : Port) (i : Instr) (s : State) : State :=
  match exec i { s with port := port } with
  | .next t => t
  | .fault _ => s
  | .refused _ => s

/-- The samples a command issued on a port stores in the FIFO: FWR's first `C − FIFO_COUNT` (rule R262). -/
def samplesStored (port : Port) (i : Instr) (s : State) : List Word :=
  match i, port with
  | .fwr _, .producer => (s.mem.block basePostL s.regs.blklen.toNat).take (s.fifoCap.val - s.fifo.count)
  | _, _ => []

/-- The samples a command issued on a port delivers, as Port C finds them in CONS_BUF[0, CONS_CNT) after an FRD
(rule R264). -/
def samplesRead (port : Port) (i : Instr) (s : State) : List Word :=
  match i, port with
  | .frd _, .consumer =>
    (issue port i s).mem.block baseCons (issue port i s).regs.consCnt.toNat
  | _, _ => []

/-- The state after commands issued on the ports in an order, with the samples stored and the samples read (rule R266). -/
def streamOf : List (Port × Instr) → State → State × List Word × List Word
  | [], s => (s, [], [])
  | (port, i) :: cmds, s =>
    let r := streamOf cmds (issue port i s)
    (r.1, samplesStored port i s ++ r.2.1, samplesRead port i s ++ r.2.2)

end Sys2Proof.Machine
end

