-- ==== Sys2Proof/Certificates/Slice0/Obligations.lean ====
section
/-! DEFINITION. The statements for the provers. Each docstring names the rule of spec/ the statement formalises; where a clause
rests on a choice of the model, the docstring says so and names the log entry. -/

open Sys2Proof Sys2Proof.Machine

/-! ### Encoding -/

/-- Rules R110 to R114, R117: the words of every command, with every operand at every value, decode to it, and the words that
follow are left for the next command. -/
def Obligations.DecodeReadsEveryEncoding : Prop :=
  ∀ (i : Instr) (rest : List Word), decode (encode i ++ rest) = .command i rest

/-- Rules R110 to R114: what is decoded as a command is exactly that command's words. -/
def Obligations.DecodedCommandsReencode : Prop :=
  ∀ (ws : List Word) (i : Instr) (rest : List Word), decode ws = .command i rest → encode i ++ rest = ws

/-- Rule R116. -/
def Obligations.ReservedOpcodesAnswerErrCmd : Prop :=
  ∀ (port : Port) (s : State) (w : Word) (ws : List Word),
    (0x03 ≤ (opcodeOf w).toNat ∧ (opcodeOf w).toNat ≤ 0x0F ∨ 0x16 ≤ (opcodeOf w).toNat ∧ (opcodeOf w).toNat ≤ 0x1E ∨
      0x21 ≤ (opcodeOf w).toNat) →
    (match port with
      | .producer => s.inP
      | .consumer => s.inC) = w :: ws →
    runPort port s = .next (respond .errCmd 0
      { s.take port ws with status := { s.status with errCmd := true } })

/-- Rule R111. -/
def Obligations.LengthFollowsFromOpcode : Prop :=
  ∀ (w : Word) (ws : List Word),
    (opcodeOf w = 0x02 →
      decode [w] = .incomplete ∧ ∀ d : Word, decode (w :: d :: ws) = .command (.wr (immOf w) d) ws) ∧
    (opcodeOf w ≠ 0x02 →
      (∃ i, (encode i).length = 1 ∧ decode (w :: ws) = .command i ws) ∨ decode (w :: ws) = .reserved (opcodeOf w) ws)

/-- A sanity statement over words written out from rule R114. -/
def Obligations.SpecWordsDecode : Prop :=
  decode [0x00ABCDEF] = .command (.nop 0xABCDEF) [] ∧ decode [0x0108000A] = .command (.rd 0x08000A) [] ∧
    decode [0x02000007, 0x473B8000] = .command (.wr 0x000007 0x473B8000) [] ∧
    decode [0x10FFFFFF] = .command (.acc 0xFFFFFF) [] ∧ decode [0x11000000] = .command (.fwr 0) [] ∧
    decode [0x12000000] = .command (.dyn 0) [] ∧ decode [0x13000000] = .command (.env 0) [] ∧
    decode [0x14000000] = .command (.thd 0) [] ∧ decode [0x15000000] = .command (.trig 0) [] ∧
    decode [0x1F000000] = .command (.srst 0) [] ∧ decode [0x20000002] = .command (.frd 2) [] ∧
    decode [0x03000000] = .reserved 0x03 []

/-- Rule R85, the adapter clause: a byte stream that sends bits 7:0 of each word first has one reading. -/
def Obligations.AdapterBytesCarryWords : Prop :=
  ∀ ws : List Word, wordsOfBytes (ws.flatMap bytesOfWord) = ws ∧
    ∀ w ∈ ws, (bytesOfWord w).head? = some (w.extractLsb' 0 8)

/-! ### Steps, responses and errors -/

/-- A step whose turn is a port's whole command runs the command that port has received: `exec` of it at the state with the
turn and the command's words consumed and the port noted. Where no turn is decided and one port alone has work, the turn is
that port's. The turns are the model's (log 2). -/
def Obligations.StepRunsTheReceivedCommand : Prop :=
  (∀ (s : State) (ts : List Turn) (i : Instr) (rest : List Word),
    s.sched = .wholeP :: ts → s.inFlight = none → decode s.inP = .command i rest →
    step s = exec i { s with sched := ts, port := .producer, inP := rest }) ∧
  (∀ (s : State) (ts : List Turn) (i : Instr) (rest : List Word),
    s.sched = .portC :: ts → decode s.inC = .command i rest →
    step s = exec i { s with sched := ts, port := .consumer, inC := rest }) ∧
  (∀ (s : State) (i : Instr) (rest : List Word),
    s.sched = [] → s.inFlight = none → decode s.inP = .command i rest → decode s.inC = .incomplete →
    step s = exec i { s with port := .producer, inP := rest }) ∧
  ∀ (s : State) (i : Instr) (rest : List Word),
    s.sched = [] → s.inFlight = none → decode s.inP = .incomplete → decode s.inC = .command i rest →
    step s = exec i { s with port := .consumer, inC := rest }

/-- Rule R334's last sentence: a block with no command received and none under way does not change. The hypotheses take in a
port that has received a WR's first word and not its DATA word: rule R111 makes the next word the DATA word, and that the port
waits for it is the model's reading (log 17, DEDUCED). The premise that no turn is decided is about the model's own turns
(log 2, DESIGN CHOICE). -/
def Obligations.IdleBlockDoesNotChange : Prop :=
  ∀ s : State, s.sched = [] → s.inFlight = none → decode s.inP = .incomplete → decode s.inC = .incomplete →
    step s = .next s

/-- Rule R118. -/
def Obligations.EveryCommandReturnsOneResponse : Prop :=
  (RespCode.ok.toBits = 0 ∧ RespCode.errCmd.toBits = 1 ∧ RespCode.errAddr.toBits = 2 ∧ RespCode.errPort.toBits = 3) ∧
  ∀ (i : Instr) (s : State), ∃ (t : State) (r : Response), exec i s = .next t ∧
    (match s.port with
      | .producer => t.outP = s.outP ++ [r] ∧ t.outC = s.outC
      | .consumer => t.outC = s.outC ++ [r] ∧ t.outP = s.outP) ∧
    r.data = if r.code = .ok then
        (match i with
          | .rd a => readWord s a
          | .frd m => BitVec.ofNat 32 (min m.toNat s.fifo.count)
          | _ => 0)
      else 0

/-- Rules R320 to R322: a command answered with an error sets its one STATUS bit and changes nothing else. -/
def Obligations.ErrorAnswersChangeOneStatusBit : Prop :=
  ∀ (i : Instr) (s t : State) (r : Response), exec i s = .next t → t.lastResponse = some r → r.code ≠ .ok →
    ∃ f : Flag, r.code.flag = some f ∧ t = respond r.code 0 { s with status := s.status.setFlag f true }

/-- Rule R322: the error bits stay 1 until a WR of STATUS writes 1 to them or SRST. -/
def Obligations.ErrorBitsAreSticky : Prop :=
  ∀ (i : Instr) (s t : State), exec i s = .next t → (∀ d, i ≠ .wr statusAddr d) → (∀ imm, i ≠ .srst imm) →
    (s.status.errCmd → t.status.errCmd) ∧ (s.status.errAddr → t.status.errAddr) ∧ (s.status.errPort → t.status.errPort)

/-- Rule R115: a producer command on Port C, and FRD on Port P, answers ERR_PORT and changes nothing but STATUS.ERR_PORT; NOP,
RD and WR run on both ports. -/
def Obligations.OpcodesAreTiedToPorts : Prop :=
  (∀ (i : Instr) (s : State), i.wellFormed s.port = false →
    exec i s = .next (respond .errPort 0 { s with status := { s.status with errPort := true } })) ∧
  (∀ (port : Port) (imm : BitVec 24), (Instr.nop imm).wellFormed port = true ∧ (Instr.rd imm).wellFormed port = true ∧
    (∀ d, (Instr.wr imm d).wellFormed port = true) ∧
    (Instr.acc imm).wellFormed port = (port == .producer) ∧ (Instr.fwr imm).wellFormed port = (port == .producer) ∧
    (Instr.dyn imm).wellFormed port = (port == .producer) ∧ (Instr.env imm).wellFormed port = (port == .producer) ∧
    (Instr.thd imm).wellFormed port = (port == .producer) ∧ (Instr.trig imm).wellFormed port = (port == .producer) ∧
    (Instr.srst imm).wellFormed port = (port == .producer) ∧ (Instr.frd imm).wellFormed port = (port == .consumer)) ∧
  ∀ (s : State) (imm : BitVec 24) (d : Word),
    exec (.nop imm) s = .next (respond .ok 0 s) ∧
    exec (.rd 0x000000) s = .next (respond .ok 0x57424131 s) ∧
    exec (.wr 0x000001 d) s = .next (respond .ok 0 { s with status := s.status.writeOneToClear d })

/-- Rules R82 to R84 and R119: the address errors of RD and WR, in their order. Unmapped and reserved addresses first, then the
port's rights, then the bounds, then read-only words. -/
def Obligations.AccessErrorsInOrder : Prop :=
  ∀ (s : State) (a : BitVec 24) (d : Word),
    let region := a.toNat / 0x10000
    let index := a.toNat % 0x10000
    let errAddr := respond .errAddr 0 { s with status := { s.status with errAddr := true } }
    let errPort := respond .errPort 0 { s with status := { s.status with errPort := true } }
    (0x08 < region ∨ region = 0 ∧ 0x24 < index → exec (.rd a) s = .next errAddr ∧ exec (.wr a d) s = .next errAddr) ∧
    (s.port = .producer → region = 0x08 → exec (.rd a) s = .next errPort ∧ exec (.wr a d) s = .next errPort) ∧
    (s.port = .consumer → 0x01 ≤ region → region ≤ 0x03 →
      exec (.rd a) s = .next errPort ∧ exec (.wr a d) s = .next errPort) ∧
    (s.port = .consumer → 0x04 ≤ region → region ≤ 0x07 → exec (.wr a d) s = .next errPort) ∧
    (s.port = .consumer → region = 0 → index ≤ 0x24 → index ≠ 1 → exec (.wr a d) s = .next errPort) ∧
    (s.port = .producer → 0x01 ≤ region → region ≤ 0x03 → s.blkMax.val ≤ index →
      exec (.rd a) s = .next errAddr ∧ exec (.wr a d) s = .next errAddr) ∧
    (0x04 ≤ region → region ≤ 0x07 → 2 ^ s.order.val / 2 ≤ index →
      exec (.rd a) s = .next errAddr ∧ (s.port = .producer → exec (.wr a d) s = .next errAddr)) ∧
    (s.port = .consumer → region = 0x08 → s.fifoCap.val ≤ index → exec (.rd a) s = .next errAddr) ∧
    (s.port = .consumer → region = 0x08 → exec (.wr a d) s = .next errAddr) ∧
    (s.port = .producer → region = 0x06 ∨ region = 0x07 → exec (.wr a d) s = .next errAddr) ∧
    (s.port = .producer → region = 0 → index = 0 ∨ 0x05 ≤ index ∧ index ≤ 0x06 ∨ 0x0A ≤ index →
      exec (.wr a d) s = .next errAddr)

/-- Rule R141: a performed RD answers the word at the address, of a register or of a RAM region, and changes nothing. -/
def Obligations.RdAnswersTheWord : Prop :=
  (∀ (s : State) (index : Nat) (r : Register), Register.ofIndex index = some r →
    exec (.rd (BitVec.ofNat 24 index)) s = .next (respond .ok (r.read s) s)) ∧
  (∀ (s : State) (k : Nat), s.port = .producer → k < s.blkMax.val → ∀ base ∈ [0x010000, 0x020000, 0x030000],
    exec (.rd (BitVec.ofNat 24 (base + k))) s = .next (respond .ok (s.mem.read (base + k)) s)) ∧
  (∀ (s : State) (k : Nat), k < 2 ^ s.order.val / 2 → ∀ base ∈ [0x040000, 0x050000, 0x060000, 0x070000],
    exec (.rd (BitVec.ofNat 24 (base + k))) s = .next (respond .ok (s.mem.read (base + k)) s)) ∧
  ∀ (s : State) (k : Nat), s.port = .consumer → k < s.fifoCap.val →
    exec (.rd (BitVec.ofNat 24 (0x080000 + k))) s = .next (respond .ok (s.mem.read (0x080000 + k)) s)

/-- Rules R32 to R55: what RD of each register address answers. STATUS, CTRL, MODE (the nine codes of rule R36), ORDER, NSIZE,
FILL, the counts of the two series and of the FIFO, FIFO_CAP and BLK_MAX are not stored as words; every other register answers
its word of the state. -/
def Obligations.RegistersReadAsTheMapSays : Prop :=
  ∀ s : State,
    let word (index : Nat) : Word := readWord s (BitVec.ofNat 24 index)
    word 0x00 = 0x57424131 ∧
    (∀ b : Nat, ((word 0x01).getLsbD b = true ↔
      b = 0 ∧ s.status.valid ∨ b = 1 ∧ s.status.ready ∨ b = 2 ∧ s.status.analyzing ∨ b = 3 ∧ s.status.errCmd ∨
        b = 4 ∧ s.status.errAddr ∨ b = 5 ∧ s.status.errPort)) ∧
    (∀ b : Nat, ((word 0x02).getLsbD b = true ↔ b = 0 ∧ s.irqEn)) ∧
    word 0x03 = (match s.mode with
      | .linear => 0
      | .harmonic => 1
      | .hammerstein => 2
      | .whiteNoise => 3
      | .sineSweep => 4
      | .thdSweep => 5
      | .imd => 6
      | .dynamics => 7
      | .performance => 8) ∧
    (word 0x04).toNat = s.order.val ∧ (word 0x05).toNat = 2 ^ s.order.val ∧
    (s.acc.length < 2 ^ s.order.val → (word 0x06).toNat = s.acc.length) ∧
    (word 0x07 = s.regs.srate ∧ word 0x08 = s.regs.tfreq ∧ word 0x09 = s.regs.blklen ∧ word 0x0A = s.regs.seq ∧
      word 0x0B = s.gen ∧ word 0x0C = s.regs.fbin ∧ word 0x0D = s.regs.thd ∧ word 0x0E = s.regs.thdn ∧
      word 0x0F = s.regs.imd ∧ word 0x10 = s.regs.hcnt ∧ (∀ j : Fin 10, word (0x11 + j.val) = s.regs.harm.get j) ∧
      word 0x1B = s.regs.cratio ∧ word 0x1D = s.regs.dynIn ∧ word 0x1E = s.regs.dynOut ∧ word 0x1F = s.regs.attack ∧
      word 0x23 = s.regs.consCnt) ∧
    (s.dyn.length ≤ 1000 → (word 0x1C).toNat = s.dyn.length) ∧
    (s.env.length ≤ 1920000 → (word 0x20).toNat = s.env.length) ∧
    (s.fifo.count ≤ 65536 → (word 0x21).toNat = s.fifo.count) ∧
    (word 0x22).toNat = s.fifoCap.val ∧ (word 0x24).toNat = s.blkMax.val

/-- Rules R32, R350: what RD of every register answers after power-on, from either port, and the spectrum RAM. BLK_MAX and C are
at the value rule R6 gives them (log 12). Stage RAM and CONS_BUF words read as the arbitrary power-on image of rule R359. -/
def Obligations.ResetWordsReadAsTheMapSays : Prop :=
  (∀ port : Port, ((List.range 0x25).map fun k => readWord { State.reset with port := port } (BitVec.ofNat 24 k)) =
    [0x57424131, 0, 0, 0, 11, 2048, 0, 0x472C4400, 0x447A0000, 0, 0, 0, 0, 0, 0, 0, 0] ++ List.replicate 10 0xC2F00000 ++
      [0x3F800000, 0, 0xC2C80000, 0xC2C80000, 0, 0, 0, 32768, 0, 32768]) ∧
  (∀ a, 0x040000 ≤ a → a < 0x060000 → State.reset.mem.read a = 0xC2F00000) ∧
  (∀ a, 0x060000 ≤ a → a < 0x080000 → State.reset.mem.read a = 0) ∧
  (∀ a, a < 0x040000 ∨ 0x080000 ≤ a → State.reset.mem.read a = Config.powerOnWord a) ∧
  State.reset.irq = false

/-! ### NOP and WR -/

/-- Rule R140. -/
def Obligations.NopOnlyAnswers : Prop :=
  ∀ (imm : BitVec 24) (s : State), encode (.nop imm) = [BitVec.ofNat 32 imm.toNat] ∧
    exec (.nop imm) s = .next (respond .ok 0 s)

/-- Rule R151: every bit of the word is stored, GEN advances by 2, every other word and every other part of the state is as
before, and a following RD answers the word. -/
def Obligations.WrStagesAWord : Prop :=
  ∀ (s : State) (k : Nat) (d : Word), s.port = .producer → k < s.blkMax.val →
    ∀ base ∈ [0x010000, 0x020000, 0x030000], ∃ t : State,
      exec (.wr (BitVec.ofNat 24 (base + k)) d) s = .next t ∧
      t = respond .ok 0 { s with gen := s.gen + 2, mem := t.mem } ∧
      t.mem.read (base + k) = d ∧ (∀ a, a ≠ base + k → t.mem.read a = s.mem.read a) ∧
      exec (.rd (BitVec.ofNat 24 (base + k))) t = .next (respond .ok d t)

/-- Rule R152: the test access to MAG_L and MAG_R stores all 32 bits and leaves VALID, SEQ and READY. -/
def Obligations.WrMagIsATestAccess : Prop :=
  ∀ (s : State) (k : Nat) (d : Word), s.port = .producer → k < 2 ^ s.order.val / 2 →
    ∀ base ∈ [0x040000, 0x050000], ∃ t : State,
      exec (.wr (BitVec.ofNat 24 (base + k)) d) s = .next t ∧
      t = respond .ok 0 { s with gen := s.gen + 2, mem := t.mem } ∧
      t.mem.read (base + k) = d ∧ (∀ a, a ≠ base + k → t.mem.read a = s.mem.read a) ∧
      exec (.rd (BitVec.ofNat 24 (base + k))) t = .next (respond .ok d t)

/-- Rule R144: from either port, a 1 in bit 1, 3, 4 or 5 clears that flag of STATUS; nothing else changes, GEN included. -/
def Obligations.WrStatusClearsWhereOnes : Prop :=
  ∀ (s : State) (d : Word), ∃ st : Status,
    exec (.wr 0x000001 d) s = .next (respond .ok 0 { s with status := st }) ∧
    (st.toWord = s.status.toWord &&& ~~~(d &&& 0x0000003A))

/-- Rule R145: IRQ_EN takes bit 0; bits 31:1 are ignored; IRQ follows at once. -/
def Obligations.WrCtrlSetsIrqEnable : Prop :=
  ∀ (s : State) (d : Word), s.port = .producer → ∃ t : State,
    exec (.wr 0x000002 d) s = .next t ∧ t = respond .ok 0 { s with gen := s.gen + 2, irqEn := d.getLsbD 0 } ∧
    Register.ctrl.read t = d &&& 1 ∧ t.irq = (s.status.ready && d.getLsbD 0)

/-- Rules R146, R290, R291: a code above 8 and the current mode change nothing but GEN; another mode is set, FILL becomes 0 and
ANALYZING is cleared, and nothing else changes. -/
def Obligations.WrModeSwitchesAndResets : Prop :=
  ∀ (s : State) (d : Word), s.port = .producer →
    (8 < d.toNat ∨ d = Register.mode.read s →
      exec (.wr 0x000003 d) s = .next (respond .ok 0 { s with gen := s.gen + 2 })) ∧
    (d.toNat ≤ 8 → d ≠ Register.mode.read s → ∃ m : Mode, m.code = d.toNat ∧
      exec (.wr 0x000003 d) s = .next (respond .ok 0
        { s with gen := s.gen + 2, mode := m, acc := [], status := { s.status with analyzing := false } }))

/-- Rules R147, R295: a value outside [8, 15] and the current order change nothing but GEN; another order is set, FILL becomes
0, every spectrum word takes its reset value and VALID is cleared; nothing else changes, and an index at or above the new N/2
answers ERR_ADDR. -/
def Obligations.WrOrderResizes : Prop :=
  ∀ (s : State) (d : Word), s.port = .producer →
    (d.toNat < 8 ∨ 15 < d.toNat ∨ d.toNat = s.order.val →
      exec (.wr 0x000004 d) s = .next (respond .ok 0 { s with gen := s.gen + 2 })) ∧
    (8 ≤ d.toNat → d.toNat ≤ 15 → d.toNat ≠ s.order.val → ∃ t : State,
      exec (.wr 0x000004 d) s = .next t ∧
      t = respond .ok 0 { s with
        gen := s.gen + 2, order := t.order, mem := t.mem, acc := [], status := { s.status with valid := false } } ∧
      t.order.val = d.toNat ∧
      (∀ a, 0x040000 ≤ a → a < 0x060000 → t.mem.read a = 0xC2F00000) ∧
      (∀ a, 0x060000 ≤ a → a < 0x080000 → t.mem.read a = 0) ∧
      (∀ a, a < 0x040000 ∨ 0x080000 ≤ a → t.mem.read a = s.mem.read a) ∧
      ∀ k, 2 ^ d.toNat / 2 ≤ k → k < 0x10000 →
        exec (.rd (BitVec.ofNat 24 (0x040000 + k))) t =
          .next (respond .errAddr 0 { t with status := { t.status with errAddr := true } }))

/-- Rule R148, with the values of the patterns as reals: a finite rate in [8000, 192000] is stored exactly, any other pattern is
ignored, and nothing but GEN changes beside. -/
def Obligations.WrSrateStoresLegalRates : Prop :=
  ∀ (s : State) (d : Word), s.port = .producer →
    (f32IsFinite d = true → 8000 ≤ Ideal.f32Real d → Ideal.f32Real d ≤ 192000 →
      exec (.wr 0x000007 d) s = .next (respond .ok 0 { s with gen := s.gen + 2, regs := { s.regs with srate := d } })) ∧
    (f32IsFinite d = false ∨ Ideal.f32Real d < 8000 ∨ 192000 < Ideal.f32Real d →
      exec (.wr 0x000007 d) s = .next (respond .ok 0 { s with gen := s.gen + 2 }))

/-- Rule R149, with the values of the patterns as reals: a NaN is ignored; ±Inf and values outside [20, 20000] are clamped; any
other pattern is stored. -/
def Obligations.WrTfreqClamps : Prop :=
  ∀ (s : State) (d : Word), s.port = .producer →
    let stored (w : Word) := respond .ok 0 { s with gen := s.gen + 2, regs := { s.regs with tfreq := w } }
    (f32IsNaN d = true → exec (.wr 0x000008 d) s = .next (respond .ok 0 { s with gen := s.gen + 2 })) ∧
    (d = 0xFF800000 ∨ f32IsFinite d = true ∧ Ideal.f32Real d < 20 →
      exec (.wr 0x000008 d) s = .next (stored 0x41A00000)) ∧
    (d = 0x7F800000 ∨ f32IsFinite d = true ∧ 20000 < Ideal.f32Real d →
      exec (.wr 0x000008 d) s = .next (stored 0x469C4000)) ∧
    (f32IsFinite d = true → 20 ≤ Ideal.f32Real d → Ideal.f32Real d ≤ 20000 →
      exec (.wr 0x000008 d) s = .next (stored d))

/-- Rule R150: a length up to BLK_MAX is stored, a longer one ignored. -/
def Obligations.WrBlklenWithinBlkMax : Prop :=
  ∀ (s : State) (d : Word), s.port = .producer →
    (d.toNat ≤ s.blkMax.val →
      exec (.wr 0x000009 d) s = .next (respond .ok 0 { s with gen := s.gen + 2, regs := { s.regs with blklen := d } })) ∧
    (s.blkMax.val < d.toNat → exec (.wr 0x000009 d) s = .next (respond .ok 0 { s with gen := s.gen + 2 }))

/-! ### ACC -/

/-- Rules R180, R182, R193, R194 in a continuous mode: the samples of POST_L and POST_R are appended to what is accumulated,
every N of them complete a transform, what is left stays accumulated for the next cycle, SEQ counts the transforms, and VALID
and READY are set by any of them. -/
def Obligations.AccCarriesSamplesAcrossTransforms : Prop :=
  ∀ (imm : BitVec 24) (s : State), s.port = .producer → s.mode ≠ .linear → s.acc.length < 2 ^ s.order.val →
    let total := s.acc ++ (List.range s.regs.blklen.toNat).map fun j =>
      (s.mem.read (0x020000 + j), s.mem.read (0x030000 + j))
    let transforms := total.length / 2 ^ s.order.val
    ∃ t : State, exec (.acc imm) s = .next t ∧
      t.acc = total.drop (transforms * 2 ^ s.order.val) ∧ t.acc.length = total.length % 2 ^ s.order.val ∧
      t.regs.seq = s.regs.seq + BitVec.ofNat 32 transforms ∧
      t.status = { s.status with
        valid := s.status.valid || decide (0 < transforms), ready := s.status.ready || decide (0 < transforms) } ∧
      t.gen = s.gen + 2 ∧ t.outP = s.outP ++ [⟨.ok, 0⟩]

/-- Rules R181, R360: the Linear one-shot gate. Untriggered, ACC changes nothing but GEN; triggered, it accumulates, and the
sample that fills the block completes one transform, clears ANALYZING and discards the rest of the host block, whatever its
length. In every other mode ANALYZING has no part in ACC. -/
def Obligations.AccLinearOneShotGate : Prop :=
  (∀ (imm : BitVec 24) (s : State), s.port = .producer → s.mode = .linear → s.acc.length < 2 ^ s.order.val →
    let total := s.acc ++ (List.range s.regs.blklen.toNat).map fun j =>
      (s.mem.read (0x020000 + j), s.mem.read (0x030000 + j))
    (s.status.analyzing = false → exec (.acc imm) s = .next (respond .ok 0 { s with gen := s.gen + 2 })) ∧
    (s.status.analyzing = true → total.length < 2 ^ s.order.val →
      exec (.acc imm) s = .next (respond .ok 0 { s with gen := s.gen + 2, acc := total })) ∧
    (s.status.analyzing = true → 2 ^ s.order.val ≤ total.length → ∃ t : State,
      exec (.acc imm) s = .next t ∧
      t = respond .ok 0 { s with
        gen := s.gen + 2, acc := [], mem := t.mem, regs := { s.regs with seq := s.regs.seq + 1 },
        status := { s.status with valid := true, ready := true, analyzing := false } })) ∧
  ∀ (imm : BitVec 24) (s : State) (b : Bool), s.mode ≠ .linear → s.port = .producer → ∃ t : State,
    exec (.acc imm) s = .next t ∧
    exec (.acc imm) { s with status := { s.status with analyzing := b } } =
      .next { t with status := { t.status with analyzing := b } }

/-- Rules R183 to R193: after an ACC that completed a transform, the N/2 bins of each channel are those of the last block of N
samples it filled, windowed in every mode but Linear, and every other RAM word is as before. In Harmonic and THDSweep the
distortion results are those of the MAG_L words of that block (rules R193, R220 to R227): a THD command straight after, which
computes them from the stored spectrum (ThdWritesTheDistortionResults), changes nothing but GEN. `magWords` and `phWords` hand
NUM_MAG and NUM_PH the samples as `workingKey` gives them, the model's reading of rule R184 (log 5, DEDUCED, unsafe); that the
THD command finds the percentages unchanged rests on the model's choice of the inputs of NUM_THD and NUM_THDN (log 23, DESIGN
CHOICE, unsafe). -/
def Obligations.AccPublishesTheLastFullBlock : Prop :=
  ∀ (imm : BitVec 24) (s : State), s.port = .producer → s.acc.length < 2 ^ s.order.val →
    s.mode ≠ .linear ∨ s.status.analyzing = true →
    let len := 2 ^ s.order.val
    let total := s.acc ++ (List.range s.regs.blklen.toNat).map fun j =>
      (s.mem.read (0x020000 + j), s.mem.read (0x030000 + j))
    let last := if s.mode = .linear then total.take len else (total.drop ((total.length / len - 1) * len)).take len
    let windowed := decide (s.mode ≠ .linear)
    len ≤ total.length → ∃ t : State, exec (.acc imm) s = .next t ∧
      (∀ k < len / 2,
        t.mem.read (0x040000 + k) = (magWords Config.numerics windowed (last.map Prod.fst) (len / 2)).getD k 0 ∧
        t.mem.read (0x050000 + k) = (magWords Config.numerics windowed (last.map Prod.snd) (len / 2)).getD k 0 ∧
        t.mem.read (0x060000 + k) = (phWords Config.numerics windowed (last.map Prod.fst) (len / 2)).getD k 0 ∧
        t.mem.read (0x070000 + k) = (phWords Config.numerics windowed (last.map Prod.snd) (len / 2)).getD k 0) ∧
      (∀ a, a < 0x040000 ∨ 0x080000 ≤ a ∨ len / 2 ≤ a % 0x10000 → t.mem.read a = s.mem.read a) ∧
      (s.mode = .harmonic ∨ s.mode = .thdSweep →
        exec (.thd imm) t = .next (respond .ok 0 { t with gen := t.gen + 2 }))

/-- Rules R190 (a), R192, R196 items 1 and 2, of the stored words themselves, whatever the numerics: magnitudes are finite and
at least −120 dB, phases lie in [−rne(π), rne(π)], bin 0 has phase +0.0, and a channel with a non-finite sample, or whose
working values are all 0, is stored at −120.0 and +0.0. That a word of the configuration outside the range is replaced is the
model's choice (log 4). -/
def Obligations.SpectrumWordsStayInRange : Prop :=
  ∀ (num : Numerics) (windowed : Bool) (block : List Word) (bins k : Nat), k < bins →
    let mag := (magWords num windowed block bins).getD k 0
    let ph := (phWords num windowed block bins).getD k 0
    f32IsFinite mag = true ∧ -120 ≤ Ideal.f32Real mag ∧ f32IsFinite ph = true ∧
      |Ideal.f32Real ph| ≤ Ideal.f32Real 0x40490FDB ∧ (k = 0 → ph = 0) ∧
      ((∃ w ∈ block, f32IsFinite w = false) → mag = 0xC2F00000 ∧ ph = 0) ∧
      ((∀ n < block.length, f32IsFinite (block.getD n 0) = true ∧ Ideal.working block windowed n = 0) →
        mag = 0xC2F00000 ∧ ph = 0)

/-- Rule R197: nothing of one channel affects the other channel's spectrum. -/
def Obligations.ChannelsAreIndependent : Prop :=
  (∀ (imm : BitVec 24) (s s' : State), s.port = .producer → s'.port = .producer → s.mode = s'.mode →
    s.order = s'.order → s.status.analyzing = s'.status.analyzing → s.regs.blklen = s'.regs.blklen →
    s.acc.map Prod.fst = s'.acc.map Prod.fst →
    (∀ j < s.regs.blklen.toNat, s.mem.read (0x020000 + j) = s'.mem.read (0x020000 + j)) →
    ∀ a, 0x040000 ≤ a ∧ a < 0x050000 ∨ 0x060000 ≤ a ∧ a < 0x070000 → s.mem.read a = s'.mem.read a →
    ∃ t t' : State, exec (.acc imm) s = .next t ∧ exec (.acc imm) s' = .next t' ∧ t.mem.read a = t'.mem.read a) ∧
  ∀ (imm : BitVec 24) (s s' : State), s.port = .producer → s'.port = .producer → s.mode = s'.mode →
    s.order = s'.order → s.status.analyzing = s'.status.analyzing → s.regs.blklen = s'.regs.blklen →
    s.acc.map Prod.snd = s'.acc.map Prod.snd →
    (∀ j < s.regs.blklen.toNat, s.mem.read (0x030000 + j) = s'.mem.read (0x030000 + j)) →
    ∀ a, 0x050000 ≤ a ∧ a < 0x060000 ∨ 0x070000 ≤ a ∧ a < 0x080000 → s.mem.read a = s'.mem.read a →
    ∃ t t' : State, exec (.acc imm) s = .next t ∧ exec (.acc imm) s' = .next t' ∧ t.mem.read a = t'.mem.read a

/-- The frame of ACC on Port P (rules R180, R181, R193): what no ACC changes; that an ACC which completes no transform (an
untriggered one in Linear mode, or one whose samples do not fill the block) changes nothing but GEN and what is accumulated;
that a transform writes no RAM word but the N/2 bins of the four spectrum regions; and what only a distortion run or an IMD
transform changes. -/
def Obligations.AccLeavesTheRest : Prop :=
  ∀ (imm : BitVec 24) (s : State), s.port = .producer → ∃ t : State, exec (.acc imm) s = .next t ∧
    t = respond .ok 0 { s with
      gen := s.gen + 2, acc := t.acc, mem := t.mem,
      status := { s.status with
        valid := t.status.valid, ready := t.status.ready, analyzing := t.status.analyzing },
      regs := { s.regs with
        seq := t.regs.seq, fbin := t.regs.fbin, thd := t.regs.thd, thdn := t.regs.thdn, imd := t.regs.imd,
        hcnt := t.regs.hcnt, harm := t.regs.harm } } ∧
    (s.mode = .linear ∧ s.status.analyzing = false ∨ s.acc.length + s.regs.blklen.toNat < 2 ^ s.order.val →
      t = respond .ok 0 { s with gen := s.gen + 2, acc := t.acc }) ∧
    (∀ a, a < 0x040000 ∨ 0x080000 ≤ a ∨ 2 ^ s.order.val / 2 ≤ a % 0x10000 → t.mem.read a = s.mem.read a) ∧
    (s.mode ≠ .harmonic → s.mode ≠ .thdSweep →
      t.regs.fbin = s.regs.fbin ∧ t.regs.thd = s.regs.thd ∧ t.regs.thdn = s.regs.thdn ∧
        t.regs.hcnt = s.regs.hcnt ∧ t.regs.harm = s.regs.harm) ∧
    (s.mode ≠ .imd → t.regs.imd = s.regs.imd) ∧
    (s.mode = .imd → s.acc.length < 2 ^ s.order.val → 2 ^ s.order.val ≤ s.acc.length + s.regs.blklen.toNat →
      t.regs.imd = 0)

/-! ### Numerics -/

/-- Rule R9: rounding of a quotient of integers is roundTiesToEven, overflow to an infinity and the sign of zero included. -/
def Obligations.QuotientsAreCorrectlyRounded : Prop :=
  ∀ a d : Int, d ≠ 0 → Ideal.IsRne ((a : ℝ) / (d : ℝ)) (rneQuot a d)

/-- Rules R12, R196, R227, R230, with the model's readings of them: a word of the configuration that meets its named property is
stored as it is. That NUM_MAG and NUM_PH are handed the samples as `workingKey` gives them is the model's reading of rule R184
(log 5, DEDUCED, unsafe). The properties assumed hold three more: the overflow band in both numerics modes (log 7, DEDUCED), a
percentage with sign bit 0 (log 8, DEDUCED, unsafe), and "the same for THDN" as every clause of THD (log 9, DEDUCED, unsafe).
That the percentages and levels are functions of the coerced levels, the fundamental bin and the sample words is the model's
choice (log 23, DESIGN CHOICE, unsafe). -/
def Obligations.ConformingResultsAreStored : Prop :=
  (∀ (num : Numerics) (block : List Word) (windowed : Bool) (bins k : Nat), degenerate block = false → k < bins →
    (MagOk num block windowed k (num.mag (workingKey windowed block) windowed k) →
      (magWords num windowed block bins).getD k 0 = num.mag (workingKey windowed block) windowed k) ∧
    (PhOk num block windowed k (num.ph (workingKey windowed block) windowed k) →
      (phWords num windowed block bins).getD k 0 = num.ph (workingKey windowed block) windowed k)) ∧
  (∀ (num : Numerics) (levels : List Word) (fb : Nat), 1 ≤ fb → fb < levels.length →
    (ThdValueOk num levels fb (num.thd levels fb) → thdWord num levels fb = num.thd levels fb) ∧
    (ThdnValueOk num levels fb (num.thdn levels fb) → thdnValue num levels fb = num.thdn levels fb)) ∧
  ∀ (num : Numerics) (samples : List Word), degenerate samples = false →
    RmsOk num samples (num.rmsDb samples) → levelWord num samples = num.rmsDb samples

/-- Rule R227, with the model's readings of it: where the two percentages of the configuration meet their property, the stored
pair meets THD_OK: +0.0 exactly when the power sum is 0, the accuracy, the saturation at 0x7F7FFFFF, and THDN ≥ THD, although
THDN is stored as the larger of the two. That a `tolerant` THDN is +0.0 exactly when S_h + S_n = 0, and saturates as THD does,
is the model's reading of "the same for THDN" (log 9, DEDUCED, unsafe); that a percentage has sign bit 0 is its reading of
"≥ +0.0" (log 8, DEDUCED, unsafe); the inputs of the two functions are its choice (log 23, DESIGN CHOICE, unsafe). -/
def Obligations.StoredPercentagesMeetThdOk : Prop :=
  ∀ (num : Numerics) (levels : List Word) (fb : Nat), 1 ≤ fb → fb < levels.length →
    ThdValueOk num levels fb (num.thd levels fb) → ThdnValueOk num levels fb (num.thdn levels fb) →
    ThdOk num levels fb (thdWord num levels fb) (thdnWord num levels fb)

/-- Rules R16 and R221: the fundamental bin is the exact quotient TFREQ × N / SRATE of the stored binary32 values, a half
rounded up, and at most 81920. -/
def Obligations.FundamentalBinIsExact : Prop :=
  (∀ num den : Nat, 0 < den → (roundHalfAway num den : Int) = ⌊(num : ℝ) / (den : ℝ) + 1 / 2⌋) ∧
  ∀ (o : Order) (srate tfreq : Word), legalRate srate = true → legalFreq tfreq = true →
    (fundamentalBin o srate tfreq : Int) = ⌊Ideal.f32Real tfreq * 2 ^ o.val / Ideal.f32Real srate + 1 / 2⌋ ∧
    fundamentalBin o srate tfreq ≤ 81920

/-! ### THD, DYN, ENV -/

/-- Rules R220 to R224: the THD command in any mode, whatever VALID is. In the undefined case both percentages are +0.0, HCNT is
0 and the table is at −120.0; else the table holds the coerced levels of the harmonics below B and HCNT counts them. FBIN is
stored in both cases; nothing else changes. The percentages are stored as rules R225 to R227 store the words of NUM_THD and
NUM_THDN (`thdWord`, `thdnWord`); rules R225 and R226 write those as NUM_THD(...) and NUM_THDN(...), and that their inputs are
the coerced levels and the fundamental bin is the model's choice (log 23, DESIGN CHOICE, unsafe). -/
def Obligations.ThdWritesTheDistortionResults : Prop :=
  ∀ (imm : BitVec 24) (s : State), s.port = .producer →
    let bins := 2 ^ s.order.val / 2
    let fb := fundamentalBin s.order s.regs.srate s.regs.tfreq
    let level (i : Nat) : Word :=
      let w := s.mem.read (0x040000 + i)
      if f32IsFinite w = true ∧ f32Int 0xC2F00000 ≤ f32Int w then w else 0xC2F00000
    let levels := (List.range bins).map level
    (fb < 1 ∨ bins ≤ fb →
      exec (.thd imm) s = .next (respond .ok 0 { s with
        gen := s.gen + 2, regs := { s.regs with
          fbin := BitVec.ofNat 32 fb, thd := 0, thdn := 0, hcnt := 0,
          harm := Vector.ofFn fun _ => 0xC2F00000 } })) ∧
    (1 ≤ fb → fb < bins →
      exec (.thd imm) s = .next (respond .ok 0 { s with
        gen := s.gen + 2, regs := { s.regs with
          fbin := BitVec.ofNat 32 fb, thd := thdWord Config.numerics levels fb,
          thdn := thdnWord Config.numerics levels fb,
          hcnt := BitVec.ofNat 32 (1 + ((List.range' 2 9).filter fun h => decide (h * fb < bins)).length),
          harm := Vector.ofFn fun j => if (j.val + 1) * fb < bins then level ((j.val + 1) * fb) else 0xC2F00000 } }))

/-- Rules R229, R230, R231: DYN with BLKLEN = 0 changes nothing but GEN; else it appends the levels of PRE_L and POST_L, the
oldest pair dropped at 1000, and writes DYN_IN and DYN_OUT; beside that it may only write CRATIO. A level is rule R230's
(`levelWord`); rule R230 writes it as NUM_RMSDB(...), and that its input is the block's sample words is the model's choice
(log 23, DESIGN CHOICE, unsafe). -/
def Obligations.DynAppendsALevelPair : Prop :=
  ∀ (imm : BitVec 24) (s : State), s.port = .producer →
    (s.regs.blklen = 0 → exec (.dyn imm) s = .next (respond .ok 0 { s with gen := s.gen + 2 })) ∧
    (s.regs.blklen ≠ 0 →
      let block (base : Nat) := (List.range s.regs.blklen.toNat).map fun j => s.mem.read (base + j)
      let lin := levelWord Config.numerics (block 0x010000)
      let lout := levelWord Config.numerics (block 0x020000)
      ∃ t : State, exec (.dyn imm) s = .next t ∧
        t = respond .ok 0 { s with
          gen := s.gen + 2, dyn := t.dyn,
          regs := { s.regs with dynIn := lin, dynOut := lout, cratio := t.regs.cratio } } ∧
        t.dyn.getLast? = some (lin, lout) ∧
        (s.dyn.length < 1000 → t.dyn = s.dyn ++ [(lin, lout)]) ∧
        (s.dyn.length = 1000 → t.dyn = s.dyn.tail ++ [(lin, lout)]))

/-- Rules R230's exact cases and range, of the stored level itself, whatever the numerics: −100.0 for a block with a NaN or ±Inf
sample and for a block of zeros, in `tolerant` mode for no other block, finite and at least −100 always. That a word of the
configuration outside the range is replaced is the model's choice (log 4). -/
def Obligations.LevelsStayInRange : Prop :=
  ∀ (num : Numerics) (samples : List Word),
    f32IsFinite (levelWord num samples) = true ∧ -100 ≤ Ideal.f32Real (levelWord num samples) ∧
    ((∃ w ∈ samples, f32IsFinite w = false) → levelWord num samples = 0xC2C80000) ∧
    ((∀ w ∈ samples, f32IsFinite w = true ∧ Ideal.f32Real w = 0) → levelWord num samples = 0xC2C80000) ∧
    (num.mode = .tolerant → (∀ w ∈ samples, f32IsFinite w = true) → levelWord num samples = 0xC2C80000 →
      ∀ w ∈ samples, Ideal.f32Real w = 0)

/-- Rules R11, R232: CRATIO after a DYN, in real arithmetic on the newest pair and the tenth newest: written with the correctly
rounded quotient exactly when there are 10 pairs, the input change exceeds 1 dB and the output change is not 0. -/
def Obligations.DynRatioIsCorrectlyRounded : Prop :=
  ∀ (imm : BitVec 24) (s : State), s.port = .producer → s.regs.blklen ≠ 0 → ∃ t : State,
    exec (.dyn imm) s = .next t ∧
    (t.dyn.length < 10 → t.regs.cratio = s.regs.cratio) ∧
    ∀ new old : Word × Word, 10 ≤ t.dyn.length → t.dyn[t.dyn.length - 1]? = some new →
      t.dyn[t.dyn.length - 10]? = some old →
      let a := Ideal.f32Real new.1 - Ideal.f32Real old.1
      let d := Ideal.f32Real new.2 - Ideal.f32Real old.2
      (1 < |a| → d ≠ 0 → Ideal.IsRne (a / d) t.regs.cratio) ∧
      (|a| ≤ 1 ∨ d = 0 → t.regs.cratio = s.regs.cratio)

/-- Rules R233, R234, R236: ENV with BLKLEN = 0 changes nothing but GEN; else it appends |x| of every POST_L sample, +0.0 for a
NaN, the oldest entries dropped above `floor(10 × SRATE)`; beside that it may only write ATTACK. -/
def Obligations.EnvAppendsMagnitudes : Prop :=
  ∀ (imm : BitVec 24) (s : State), s.port = .producer → legalRate s.regs.srate = true →
    (s.regs.blklen = 0 → exec (.env imm) s = .next (respond .ok 0 { s with gen := s.gen + 2 })) ∧
    (s.regs.blklen ≠ 0 →
      let values := (List.range s.regs.blklen.toNat).map fun j =>
        let w := s.mem.read (0x020000 + j)
        if f32IsNaN w = true then 0 else w &&& 0x7FFFFFFF
      let all := s.env ++ values
      ∃ t : State, exec (.env imm) s = .next t ∧
        t = respond .ok 0 { s with
          gen := s.gen + 2, env := t.env, regs := { s.regs with attack := t.regs.attack } } ∧
        t.env = all.drop (all.length - ⌊10 * Ideal.f32Real s.regs.srate⌋.toNat))

/-- Rules R11, R235: ATTACK after an ENV, in real arithmetic on the newest 100 entries: with `peak` their largest, `i10` and
`i90` the first to reach a tenth and nine tenths of it, it is the correctly rounded `(i90 − i10) / SRATE` when `i10 < i90`, and
unchanged otherwise, with fewer than 100 entries, or with an infinite peak. -/
def Obligations.EnvAttackTimeIsCorrectlyRounded : Prop :=
  ∀ (imm : BitVec 24) (s : State), s.port = .producer → s.regs.blklen ≠ 0 → legalRate s.regs.srate = true →
    (∀ w ∈ s.env, w.toNat ≤ f32Inf.toNat) → ∃ t : State,
    exec (.env imm) s = .next t ∧
    (t.env.length < 100 → t.regs.attack = s.regs.attack) ∧
    (100 ≤ t.env.length →
      let window := t.env.drop (t.env.length - 100)
      (f32Inf ∈ window → t.regs.attack = s.regs.attack) ∧
      ∀ (peak : Word) (i10 i90 : Nat), f32Inf ∉ window → peak ∈ window →
        (∀ w ∈ window, Ideal.f32Real w ≤ Ideal.f32Real peak) →
        IsLeast { j | j < 100 ∧ Ideal.f32Real peak / 10 ≤ Ideal.f32Real (window.getD j 0) } i10 →
        IsLeast { j | j < 100 ∧ 9 * Ideal.f32Real peak / 10 ≤ Ideal.f32Real (window.getD j 0) } i90 →
        (i10 < i90 → Ideal.IsRne (((i90 : ℝ) - i10) / Ideal.f32Real s.regs.srate) t.regs.attack) ∧
        (i90 ≤ i10 → t.regs.attack = s.regs.attack))

/-! ### The FIFO -/

/-- Rules R261, R262: FWR appends the first `min(BLKLEN, C − FIFO_COUNT)` samples of POST_L to the queue, bit for bit, drops the
rest, and changes nothing else. -/
def Obligations.FwrAppendsWhatFits : Prop :=
  ∀ (imm : BitVec 24) (s : State), s.port = .producer → FifoOk s.fifoCap.val s.fifo →
    let block := (List.range s.regs.blklen.toNat).map fun j => s.mem.read (0x020000 + j)
    ∃ f : Fifo, exec (.fwr imm) s = .next (respond .ok 0 { s with fifo := f }) ∧
      f.queue s.fifoCap.val = s.fifo.queue s.fifoCap.val ++ block.take (s.fifoCap.val - s.fifo.count) ∧
      f.count = s.fifo.count + min s.regs.blklen.toNat (s.fifoCap.val - s.fifo.count) ∧ FifoOk s.fifoCap.val f

/-- Rules R263, R264: FRD m moves the `n = min(m, FIFO_COUNT)` oldest samples to CONS_BUF[0, n), answers n, and changes nothing
else. -/
def Obligations.FrdTakesTheOldest : Prop :=
  ∀ (m : BitVec 24) (s : State), s.port = .consumer → FifoOk s.fifoCap.val s.fifo →
    let n := min m.toNat s.fifo.count
    let queue := s.fifo.queue s.fifoCap.val
    ∃ t : State, exec (.frd m) s = .next t ∧
      t = respond .ok (BitVec.ofNat 32 n) { s with
        mem := t.mem, fifo := t.fifo, regs := { s.regs with consCnt := BitVec.ofNat 32 n } } ∧
      t.fifo.queue s.fifoCap.val = queue.drop n ∧ t.fifo.count = s.fifo.count - n ∧ FifoOk s.fifoCap.val t.fifo ∧
      (∀ j < n, t.mem.read (0x080000 + j) = queue.getD j 0) ∧
      ∀ a, a < 0x080000 ∨ 0x080000 + n ≤ a → t.mem.read a = s.mem.read a

/-- Rule R266: over any sequence of commands on the two ports without an SRST, what is read, followed by what is left, is what
was there, followed by what was stored; from an empty FIFO, the reads are a prefix of the writes, and the FIFO holds the
difference. -/
def Obligations.FifoDeliversInOrder : Prop :=
  ∀ (cmds : List (Port × Instr)) (s : State), FifoOk s.fifoCap.val s.fifo →
    (∀ c ∈ cmds, ∀ imm, c ≠ (.producer, .srst imm)) →
    let r := streamOf cmds s
    s.fifo.queue s.fifoCap.val ++ r.2.1 = r.2.2 ++ r.1.fifo.queue s.fifoCap.val ∧
    (s.fifo.count = 0 → r.2.2 <+: r.2.1 ∧ r.2.2.length ≤ r.2.1.length ∧
      r.2.1.length - r.2.2.length = r.1.fifo.count)

/-- Rule R267: no command but FWR, FRD and SRST changes the FIFO, CONS_CNT or CONS_BUF; FWR and FRD change nothing else and do
not depend on MODE. -/
def Obligations.FifoIsIndependent : Prop :=
  (∀ (i : Instr) (s t : State), exec i s = .next t → (∀ imm, i ≠ .fwr imm) → (∀ m, i ≠ .frd m) → (∀ imm, i ≠ .srst imm) →
    t.fifo = s.fifo ∧ t.regs.consCnt = s.regs.consCnt ∧ ∀ a, 0x080000 ≤ a → a < 0x090000 → t.mem.read a = s.mem.read a) ∧
  (∀ (imm : BitVec 24) (s : State) (mode : Mode), ∃ t : State, exec (.fwr imm) s = .next t ∧
    t = { s with fifo := t.fifo, status := t.status, outP := t.outP, outC := t.outC } ∧
    (s.port = .producer → t.status = s.status) ∧
    exec (.fwr imm) { s with mode := mode } = .next { t with mode := mode }) ∧
  ∀ (m : BitVec 24) (s : State) (mode : Mode), FifoOk s.fifoCap.val s.fifo → ∃ t : State, exec (.frd m) s = .next t ∧
    t = { s with
      fifo := t.fifo, mem := t.mem, regs := { s.regs with consCnt := t.regs.consCnt }, status := t.status,
      outP := t.outP, outC := t.outC } ∧
    (s.port = .consumer → t.status = s.status) ∧
    (∀ a, a < 0x080000 ∨ 0x090000 ≤ a → t.mem.read a = s.mem.read a) ∧
    exec (.frd m) { s with mode := mode } = .next { t with mode := mode }

/-! ### Control, notification and the interrupt -/

/-- Rule R292: TRIG sets ANALYZING in any mode and changes nothing else but GEN. -/
def Obligations.TrigArmsTheCapture : Prop :=
  ∀ (imm : BitVec 24) (s : State), s.port = .producer →
    exec (.trig imm) s = .next (respond .ok 0
      { s with gen := s.gen + 2, status := { s.status with analyzing := true } })

/-- Rules R293, R351: SRST gives the power-on state, but that GEN advances by 2 and stage RAM, CONS_BUF and FIFO_RAM keep their
contents. The port streams are the model's (log 1) and stay. -/
def Obligations.SrstGivesThePowerOnState : Prop :=
  ∀ (imm : BitVec 24) (s : State), s.port = .producer → ∃ t : State,
    exec (.srst imm) s = .next t ∧
    t = respond .ok 0 { s with
      status := State.reset.status, irqEn := State.reset.irqEn, mode := State.reset.mode, order := State.reset.order,
      regs := State.reset.regs, gen := s.gen + 2, mem := t.mem, acc := State.reset.acc,
      fifo := { s.fifo with rd := 0, wr := 0, count := 0 }, dyn := State.reset.dyn, env := State.reset.env } ∧
    (∀ a, 0x040000 ≤ a → a < 0x080000 → t.mem.read a = State.reset.mem.read a) ∧
    ∀ a, a < 0x040000 ∨ 0x080000 ≤ a → t.mem.read a = s.mem.read a

/-- Rules R43, R294, R325: SEQ changes only by ACC and SRST on Port P; READY rises only by ACC; READY falls only by a WR of
STATUS with bit 1 set or by SRST; IRQ rises only by an ACC that sets READY or by a WR of CTRL while READY is set, and falls
only by a WR of STATUS with bit 1 set, by a WR of CTRL with bit 0 clear, or by SRST. -/
def Obligations.NotificationHasOneCause : Prop :=
  ∀ (i : Instr) (s t : State), exec i s = .next t →
    (t.regs.seq ≠ s.regs.seq → s.port = .producer ∧ ((∃ imm, i = .acc imm) ∨ ∃ imm, i = .srst imm)) ∧
    (s.status.ready = false → t.status.ready = true → s.port = .producer ∧ ∃ imm, i = .acc imm) ∧
    (s.status.ready = true → t.status.ready = false →
      (∃ d : Word, i = .wr 0x000001 d ∧ d.getLsbD 1 = true) ∨ s.port = .producer ∧ ∃ imm, i = .srst imm) ∧
    (s.irq = false → t.irq = true → s.port = .producer ∧
      ((∃ imm, i = .acc imm ∧ s.irqEn = true) ∨ ∃ d : Word, i = .wr 0x000002 d ∧ s.status.ready = true)) ∧
    (s.irq = true → t.irq = false →
      (∃ d : Word, i = .wr 0x000001 d ∧ d.getLsbD 1 = true) ∨
        s.port = .producer ∧ ((∃ d : Word, i = .wr 0x000002 d ∧ d.getLsbD 0 = false) ∨ ∃ imm, i = .srst imm))

/-- Rules R44, R91, R321: GEN advances by 2 in a performed WR to any address but STATUS and in ACC, DYN, ENV, THD, TRIG and SRST
on Port P, and in nothing else. -/
def Obligations.GenBracketsPortPCommands : Prop :=
  ∀ (i : Instr) (s t : State), exec i s = .next t →
    t.gen = match i with
      | .nop _ | .rd _ | .fwr _ | .frd _ => s.gen
      | .wr a _ => if t.lastResponse = some ⟨.ok, 0⟩ ∧ a ≠ 0x000001 then s.gen + 2 else s.gen
      | .acc _ | .dyn _ | .env _ | .thd _ | .trig _ | .srst _ => if s.port = .producer then s.gen + 2 else s.gen

/-- Rules R83, R329: a Port C command changes nothing but the W1C and error bits of STATUS, the FIFO's read side, CONS_CNT and
CONS_BUF. -/
def Obligations.PortCOwnsOnlyTheReadSide : Prop :=
  ∀ (i : Instr) (s t : State), s.port = .consumer → FifoOk s.fifoCap.val s.fifo → exec i s = .next t →
    t = { s with
      status := t.status, mem := t.mem, regs := { s.regs with consCnt := t.regs.consCnt },
      fifo := { s.fifo with rd := t.fifo.rd, count := t.fifo.count }, outC := t.outC } ∧
    t.status.valid = s.status.valid ∧ t.status.analyzing = s.status.analyzing ∧
    (t.status.ready = true → s.status.ready = true) ∧
    ∀ a, a < 0x080000 ∨ 0x090000 ≤ a → t.mem.read a = s.mem.read a

/-! ### The interleaving -/

/-- Rules R89, R91: a Port P command begun and then run to its end in single steps, with no Port C step between, gives what the
whole command gives. -/
def Obligations.BegunCommandsFinishAsTheWhole : Prop :=
  ∀ (s t : State), s.inFlight = none → s.mem.wf = true → beginP s = .next t →
    runPort .producer s = .next t.drain

/-- Rule R91, with the orders the model allows: whichever of the write steps that may come next is performed first, the command
ends in the same state; and while steps are left one of them may come next. Rule R91 does not say which orders end alike: that
steps which write the same word keep the command's own order, and every other order is allowed, is the model's reading
(log 15, DEDUCED). -/
def Obligations.AnyStepOrderEndsTheSame : Prop :=
  ∀ (choice : Nat) (s : State) (ws : List Write), s.inFlight = some ws → s.mem.wf = true → (∀ w ∈ ws, w.inRam = true) →
    ∃ t : State, stepP choice s = .next t ∧ t.drain = s.drain ∧
      (∀ ws', t.inFlight = some ws' → ws'.length + 1 = ws.length) ∧ (ws ≠ [] → t.inFlight ≠ none)

/-- Rule R193 and conflict C8: the step that sets READY comes after every other step of its publication, in the command's own
order and in every order the interleaving allows. -/
def Obligations.ReadyIsSetLast : Prop :=
  (∀ (num : Numerics) (s : State) (pre post : List Write) (w : Write), accSteps num s = pre ++ w :: post →
    w.step = .flag .ready true → w.pub ≠ 0 ∧ ∀ x ∈ post, x.pub ≠ w.pub) ∧
  ∀ (ws rest : List Write) (w : Write), (w, rest) ∈ nextSteps ws → w.step = .flag .ready true → w.pub ≠ 0 →
    ∃ pre post, ws = pre ++ w :: post ∧ rest = pre ++ post ∧ ∀ x ∈ pre, x.pub ≠ w.pub

/-- Rule R93: if GEN reads the same even value before and after a run, in which it cannot have wrapped, then throughout the run
no word of a snapshot (no register but STATUS, FIFO_COUNT and CONS_CNT, and no word of the stage and spectrum RAM) is other
than at its start, GEN included. -/
def Obligations.EqualGenMeansAConsistentSnapshot : Prop :=
  ∀ (k j : Nat) (s t u : State), k < 2 ^ 31 → Inv s → s.gen.toNat % 2 = 0 →
    core.run k s = .next t → t.gen = s.gen → j ≤ k → core.run j s = .next u →
    u.gen = s.gen ∧ (∀ r : Register, r.snapshot = true → r.read u = r.read s) ∧
      ∀ a < 0x080000, u.mem.read a = s.mem.read a

/-! ### Invariants -/

/-- The state after power-on meets the invariants (rules R66, R350). -/
def Obligations.ResetMeetsTheInvariants : Prop := Settled State.reset ∧ Inv State.reset

/-- Rule R66 and the ranges beside it hold after every command if they held before it, on either port. That a percentage "at or
above +0.0" (rules R46, R227) has sign bit 0, as `Settled.thdn` has it, is the model's reading (log 8, DEDUCED). -/
def Obligations.CommandsKeepTheSettledState : Prop :=
  ∀ (i : Instr) (s t : State), Settled s → exec i s = .next t → Settled t

/-- Every step keeps the invariant, whatever the turn, also between the write steps of a Port P command (rules R66, R90, R91).
It rests on two readings of the model: a percentage at or above +0.0 has sign bit 0 (log 8, DEDUCED), and the write steps of a
command that write the same word keep the command's order (log 15, DEDUCED). -/
def Obligations.StepsKeepTheInvariant : Prop :=
  ∀ (s t : State), Inv s → step s = .next t → Inv t

/-! ### The numerics of this block -/

/-- Rules R12, R189, R191, R196, R227, R230 of the numerics of this block, with the model's readings of them, whatever the mode
and the tolerances: the stored spectrum depends on x_c alone, so that channels with the same working values, windowed or not,
are stored with the same words (that x_c is its N reals and nothing beside them: log 25, DEDUCED, unsafe); and every word the
machine stores meets the named property of its rule, wherever some word meets it. The properties hold readings of the model: the overflow band of rule R196 item 5 in `reference` mode too (log 7, DEDUCED), a
percentage with sign bit 0 (log 8, DEDUCED, unsafe), and a `tolerant` THDN that is +0.0 exactly when S_h + S_n = 0 and
saturates as THD does (log 9, DEDUCED, unsafe). The words come from functions of the samples as `workingKey` gives them (log 5,
DEDUCED, unsafe). That a property which no word meets leaves the word free is the model's choice (log 24, DESIGN CHOICE), as
are the inputs of the percentages and levels (log 23, DESIGN CHOICE, unsafe). -/
def Obligations.StoredResultsMeetTheirProperties : Prop :=
  (∀ (block block' : List Word) (windowed windowed' : Bool) (bins : Nat), degenerate block = false →
    degenerate block' = false → Ideal.SameWorking block windowed block' windowed' →
    magWords Config.numerics windowed block bins = magWords Config.numerics windowed' block' bins ∧
      phWords Config.numerics windowed block bins = phWords Config.numerics windowed' block' bins) ∧
  (∀ (block : List Word) (windowed : Bool) (k : Nat), degenerate block = false → k < block.length / 2 →
    ((∃ w, MagOk Config.numerics block windowed k w) →
      MagOk Config.numerics block windowed k ((magWords Config.numerics windowed block (block.length / 2)).getD k 0)) ∧
    ((∃ w, PhOk Config.numerics block windowed k w) →
      PhOk Config.numerics block windowed k ((phWords Config.numerics windowed block (block.length / 2)).getD k 0))) ∧
  (∀ (levels : List Word) (fb : Nat), 1 ≤ fb → fb < levels.length →
    (∃ w, ThdValueOk Config.numerics levels fb w) → (∃ w, ThdnValueOk Config.numerics levels fb w) →
    ThdOk Config.numerics levels fb (thdWord Config.numerics levels fb) (thdnWord Config.numerics levels fb)) ∧
  ∀ samples : List Word, samples ≠ [] → degenerate samples = false → (∃ w, RmsOk Config.numerics samples w) →
    RmsOk Config.numerics samples (levelWord Config.numerics samples)

/-- Rules R12, R189, R191, R227, R230 in `reference` mode: the stored words are the rounded ideals. A block of any order N, a
fundamental bin below B, and a block of finite samples are all that is asked. That the overflow band of rule R196 item 5 is
excepted in this mode too is the model's reading (log 7, DEDUCED), and the inputs of the percentages and levels are its choice
(log 23, DESIGN CHOICE). -/
def Obligations.ReferenceModeStoresTheRoundedIdeals : Prop :=
  ∀ num : Numerics, Conforms num → num.mode = .reference →
    (∀ (o : Order) (block : List Word) (windowed : Bool) (k : Nat), block.length = 2 ^ o.val → degenerate block = false →
      k < 2 ^ o.val / 2 → ¬OverflowBand block windowed →
      Ideal.IsRne (Ideal.magDb block windowed k) ((magWords num windowed block (2 ^ o.val / 2)).getD k 0) ∧
      Ideal.IsRne (Ideal.phase block windowed k) ((phWords num windowed block (2 ^ o.val / 2)).getD k 0)) ∧
    (∀ (levels : List Word) (fb : Nat), 1 ≤ fb → fb < levels.length →
      Ideal.IsSat (Ideal.thd levels fb) (thdWord num levels fb) ∧
      ∃ v : Word, Ideal.IsSat (Ideal.thdn levels fb) v ∧
        (thdnWord num levels fb).toNat = max (thdWord num levels fb).toNat v.toNat) ∧
    ∀ samples : List Word, samples ≠ [] → degenerate samples = false →
      Ideal.IsRne (Ideal.rmsDb samples) (levelWord num samples)
end

