-- ==== Sys2Proof/Laws/Binary32.lean ====
section
/-! SUPPORT. The values of binary32 patterns: their order is the order of the patterns below the sign bit, and every real below
the overflow threshold has a nearest pattern with ties to even (rule R9). -/

open Sys2Proof.Machine.Ideal

namespace Sys2Proof.Machine

/-! ### The magnitude of a pattern -/

/-- The magnitude, in units of 2^−149, that the bits below the sign stand for. -/
def magOf (n : Nat) : Nat := if n / 2 ^ 23 = 0 then n % 2 ^ 23 else (2 ^ 23 + n % 2 ^ 23) * 2 ^ (n / 2 ^ 23 - 1)

theorem toNat_f32Abs (w : Word) : (f32Abs w).toNat = w.toNat % 2 ^ 31 := by
  rw [f32Abs, BitVec.toNat_and]
  exact Nat.and_two_pow_sub_one_eq_mod w.toNat 31

theorem f32Mag_eq_magOf (w : Word) : f32Mag w = magOf (f32Abs w).toNat := by
  have e : (f32Abs w).toNat / 2 ^ 23 = f32Exp w := by rw [toNat_f32Abs, f32Exp]; omega
  have f : (f32Abs w).toNat % 2 ^ 23 = f32Frac w := by rw [toNat_f32Abs, f32Frac]; omega
  rw [magOf, e, f, f32Mag]

theorem f32IsFinite_iff (w : Word) : f32IsFinite w = true ↔ (f32Abs w).toNat < 0x7F800000 := by
  have h := w.isLt
  rw [toNat_f32Abs, f32IsFinite, f32Exp, bne_iff_ne]
  omega

theorem magOf_lt_succ (n : Nat) : magOf n < magOf (n + 1) := by
  by_cases hf : n % 2 ^ 23 + 1 = 2 ^ 23
  · have e : (n + 1) / 2 ^ 23 = n / 2 ^ 23 + 1 := by omega
    have f : (n + 1) % 2 ^ 23 = 0 := by omega
    rw [magOf, magOf, e, f, if_neg (Nat.succ_ne_zero _), Nat.add_sub_cancel]
    split
    · rename_i h0
      rw [h0]
      omega
    · rename_i h0
      obtain ⟨k, hk⟩ := Nat.exists_eq_succ_of_ne_zero h0
      rw [hk, Nat.succ_sub_one, pow_succ 2 k]
      have hpos := Nat.two_pow_pos k
      calc (2 ^ 23 + n % 2 ^ 23) * 2 ^ k < (2 * 2 ^ 23) * 2 ^ k := Nat.mul_lt_mul_of_pos_right (by omega) hpos
        _ = (2 ^ 23 + 0) * (2 ^ k * 2) := by ring
  · have e : (n + 1) / 2 ^ 23 = n / 2 ^ 23 := by omega
    have f : (n + 1) % 2 ^ 23 = n % 2 ^ 23 + 1 := by omega
    rw [magOf, magOf, e, f]
    split
    · omega
    · exact Nat.mul_lt_mul_of_pos_right (by omega) (Nat.two_pow_pos _)

theorem magOf_strictMono : StrictMono magOf := strictMono_nat_of_lt_succ magOf_lt_succ

/-- The real magnitude of the bits below the sign. -/
noncomputable def realOf (n : Nat) : ℝ := (magOf n : ℝ) / 2 ^ 149

theorem realOf_strictMono : StrictMono realOf := fun a b h => by
  have : (magOf a : ℝ) < magOf b := by exact_mod_cast magOf_strictMono h
  exact div_lt_div_of_pos_right this (by positivity)

theorem realOf_nonneg (n : Nat) : 0 ≤ realOf n := by unfold realOf; positivity

theorem f32Real_eq (w : Word) :
    f32Real w = if f32Sign w then -realOf (f32Abs w).toNat else realOf (f32Abs w).toNat := by
  rw [f32Real, f32Int, f32Mag_eq_magOf, realOf]
  split <;> simp [neg_div]

theorem abs_f32Real (w : Word) : |f32Real w| = realOf (f32Abs w).toNat := by
  rw [f32Real_eq]
  split
  · rw [abs_neg, abs_of_nonneg (realOf_nonneg _)]
  · exact abs_of_nonneg (realOf_nonneg _)

/-- The value of a pattern whose magnitude is a whole number of units of 1. -/
theorem f32Real_of_int {w : Word} {n : Int} (h : f32Int w = n * 2 ^ 149) : f32Real w = n := by
  rw [f32Real, h, Int.cast_mul, Int.cast_pow, Int.cast_ofNat]
  exact mul_div_cancel_right₀ _ (by positivity)

theorem abs_f32Real_lt {w : Word} (h : f32IsFinite w = true) : |f32Real w| < 2 ^ 128 := by
  rw [abs_f32Real]
  have hlt := (f32IsFinite_iff w).1 h
  have h2 : realOf 0x7F800000 = 2 ^ 128 := by
    rw [realOf, show magOf 0x7F800000 = 2 ^ (128 + 149) by decide +kernel, Nat.cast_pow, Nat.cast_ofNat, pow_add]
    exact mul_div_cancel_right₀ _ (by positivity)
  rw [← h2]
  exact realOf_strictMono hlt

/-- A value other than 0 has one pattern. -/
theorem f32Real_injective_of_ne_zero {v w : Word} (h0 : f32Real w ≠ 0) (h : f32Real v = f32Real w) : v = w := by
  have habs : (f32Abs v).toNat = (f32Abs w).toNat :=
    realOf_strictMono.injective (by rw [← abs_f32Real, ← abs_f32Real, h])
  have hs : f32Sign v = f32Sign w := by
    rw [f32Real_eq, f32Real_eq, habs] at h
    rw [f32Real_eq] at h0
    have hn := realOf_nonneg (f32Abs w).toNat
    cases hv : f32Sign v <;> cases hw : f32Sign w <;> simp [hv, hw] at h h0 ⊢ <;> exact h0 (by linarith)
  rw [toNat_f32Abs, toNat_f32Abs] at habs
  simp only [f32Sign, BitVec.getLsbD, Nat.testBit_eq_decide_div_mod_eq, decide_eq_decide] at hs
  have := v.isLt
  have := w.isLt
  exact BitVec.eq_of_toNat_eq (by omega)

/-! ### The nearest pattern -/

/-- The pattern with a sign and the bits below it. -/
def signed (neg : Bool) (n : Nat) : Word := BitVec.ofNat 32 (n + if neg then 2 ^ 31 else 0)

theorem f32Abs_signed (neg : Bool) {n : Nat} (h : n < 2 ^ 31) : (f32Abs (signed neg n)).toNat = n := by
  rw [toNat_f32Abs, signed, BitVec.toNat_ofNat]
  cases neg <;> simp <;> omega

theorem f32Sign_signed (neg : Bool) {n : Nat} (h : n < 2 ^ 31) : f32Sign (signed neg n) = neg := by
  rw [f32Sign, signed, BitVec.getLsbD, BitVec.toNat_ofNat, Nat.testBit_eq_decide_div_mod_eq]
  cases neg <;> simp <;> omega

theorem lsb_signed (neg : Bool) (n : Nat) : (signed neg n).getLsbD 0 = decide (n % 2 = 1) := by
  rw [signed, BitVec.getLsbD, BitVec.toNat_ofNat, Nat.testBit_eq_decide_div_mod_eq]
  cases neg <;> simp
  omega

/-- A pattern with the sign of `r` and the bits `n` is at the distance of the magnitudes. -/
theorem dist_signed (r : ℝ) {n : Nat} (h : n < 2 ^ 31) :
    |r - f32Real (signed (decide (r < 0)) n)| = |(|r| - realOf n)| := by
  rw [f32Real_eq, f32Sign_signed _ h, f32Abs_signed _ h]
  by_cases hr : r < 0
  · rw [decide_eq_true hr, if_pos rfl, abs_of_neg hr, ← abs_neg]
    congr 1
    ring
  · rw [decide_eq_false hr, if_neg (by decide), abs_of_nonneg (not_lt.1 hr)]

theorem dist_ge (r : ℝ) (v : Word) : |(|r| - realOf (f32Abs v).toNat)| ≤ |r - f32Real v| := by
  rw [← abs_f32Real]
  exact abs_abs_sub_abs_le_abs_sub r (f32Real v)

/-- A value as far from `r` as its magnitude is from `|r|`, with the magnitude of the bits `n`, is the value with the sign of
`r`. -/
theorem value_of_dist {r : ℝ} {v : Word} {n : Nat} (hn : n < 2 ^ 31) (hz : r = 0 → realOf n = 0)
    (hv : (f32Abs v).toNat = n) (hd : |r - f32Real v| = |(|r| - realOf n)|) : f32Real v = f32Real (signed (decide (r < 0)) n) := by
  rw [f32Real_eq, f32Real_eq, hv, f32Sign_signed _ hn, f32Abs_signed _ hn]
  rw [f32Real_eq, hv] at hd
  have h0 := realOf_nonneg n
  cases hs : f32Sign v <;> rw [hs] at hd <;> simp only [Bool.false_eq_true, if_false, if_true] at hd ⊢
  · by_cases hr : r < 0
    · rw [abs_of_neg hr, abs_of_nonpos (by linarith)] at hd
      rw [decide_eq_true hr, if_pos rfl]
      rcases abs_choice (-r - realOf n) with h | h <;> rw [h] at hd <;> linarith
    · rw [decide_eq_false hr, if_neg Bool.false_ne_true]
  · by_cases hr : r < 0
    · rw [decide_eq_true hr, if_pos rfl]
    · rw [abs_of_nonneg (not_lt.1 hr), abs_of_nonneg (by linarith)] at hd
      rw [decide_eq_false hr, if_neg Bool.false_ne_true]
      rcases abs_choice (r - realOf n) with h | h <;> rw [h] at hd
      · linarith
      · linarith [hz (by linarith)]

/-- Some finite bits are the nearest ones to a magnitude, with ties to even. -/
theorem exists_nearest_bits {a : ℝ} (h0 : 0 ≤ a) :
    ∃ n < 0x7F800000, (∀ k < 0x7F800000, |a - realOf n| ≤ |a - realOf k|) ∧
      (n % 2 = 0 ∨ ∀ k < 0x7F800000, |a - realOf n| = |a - realOf k| → k = n) := by
  classical
  have hz : realOf 0 ≤ a := by
    rw [realOf, show magOf 0 = 0 by decide]
    simpa using h0
  let p (n : Nat) : Prop := n < 0x7F800000 ∧ realOf n ≤ a
  obtain ⟨m, ⟨hm, hma⟩, hmax⟩ : ∃ m, p m ∧ ∀ k, p k → k ≤ m :=
    ⟨Nat.findGreatest p 0x7F7FFFFF, Nat.findGreatest_spec (P := p) (Nat.zero_le _) ⟨by norm_num, hz⟩,
      fun k hk => Nat.le_findGreatest (Nat.le_of_lt_succ hk.1) hk⟩
  have below {k : Nat} (hk : k ≤ m) : |a - realOf k| = a - realOf k :=
    abs_of_nonneg (sub_nonneg.2 ((realOf_strictMono.monotone hk).trans hma))
  have above {k : Nat} (hk : k < 0x7F800000) (hmk : m < k) : |a - realOf k| = realOf k - a := by
    have : a < realOf k := not_le.1 fun hle => absurd (hmax k ⟨hk, hle⟩) (by omega)
    rw [abs_of_neg (by linarith)]
    ring
  have lo {k : Nat} (hk : k ≤ m) : a - realOf m ≤ a - realOf k := sub_le_sub_left (realOf_strictMono.monotone hk) a
  have loEq {k : Nat} (hk : k ≤ m) (he : a - realOf m = a - realOf k) : k = m :=
    realOf_strictMono.injective (by linarith)
  by_cases hs : m + 1 < 0x7F800000
  · have hi {k : Nat} (hmk : m < k) : realOf (m + 1) - a ≤ realOf k - a :=
      sub_le_sub_right (realOf_strictMono.monotone hmk) a
    have hiEq {k : Nat} (he : realOf (m + 1) - a = realOf k - a) : k = m + 1 :=
      realOf_strictMono.injective (by linarith)
    have dm := below le_rfl
    have dm1 := above hs (Nat.lt_succ_self m)
    rcases lt_trichotomy (a - realOf m) (realOf (m + 1) - a) with hlt | heq | hgt
    · refine ⟨m, hm, fun k hk => ?_, .inr fun k hk he => ?_⟩
      · rcases Nat.lt_or_ge m k with hmk | hmk
        · rw [dm, above hk hmk]; linarith [hi hmk]
        · rw [dm, below hmk]; exact lo hmk
      · rcases Nat.lt_or_ge m k with hmk | hmk
        · rw [dm, above hk hmk] at he; linarith [hi hmk]
        · rw [dm, below hmk] at he; exact loEq hmk he
    · have near {k : Nat} (hk : k < 0x7F800000) : a - realOf m ≤ |a - realOf k| := by
        rcases Nat.lt_or_ge m k with hmk | hmk
        · rw [above hk hmk]; linarith [hi hmk]
        · rw [below hmk]; exact lo hmk
      rcases Nat.mod_two_eq_zero_or_one m with he | ho
      · exact ⟨m, hm, fun k hk => by rw [dm]; exact near hk, .inl he⟩
      · exact ⟨m + 1, hs, fun k hk => by rw [dm1, ← heq]; exact near hk, .inl (by omega)⟩
    · refine ⟨m + 1, hs, fun k hk => ?_, .inr fun k hk he => ?_⟩
      · rcases Nat.lt_or_ge m k with hmk | hmk
        · rw [dm1, above hk hmk]; exact hi hmk
        · rw [dm1, below hmk]; linarith [lo hmk]
      · rcases Nat.lt_or_ge m k with hmk | hmk
        · rw [dm1, above hk hmk] at he; exact hiEq he
        · rw [dm1, below hmk] at he; linarith [lo hmk]
  · have hk' {k : Nat} (hk : k < 0x7F800000) : k ≤ m := by omega
    exact ⟨m, hm, fun k hk => by rw [below le_rfl, below (hk' hk)]; exact lo (hk' hk),
      .inr fun k hk he => loEq (hk' hk) (by rwa [below le_rfl, below (hk' hk)] at he)⟩

/-- Every real has a correctly rounded pattern (rule R9). -/
theorem exists_isRne (r : ℝ) : ∃ w : Word, IsRne r w := by
  by_cases h : 2 ^ 128 - 2 ^ 103 ≤ |r|
  · exact ⟨_, by rw [IsRne, if_pos h]⟩
  obtain ⟨n, hn, near, even⟩ := exists_nearest_bits (abs_nonneg r)
  have hn' : n < 2 ^ 31 := by omega
  have hz (h0 : r = 0) : realOf n = 0 := by
    have := near 0 (by norm_num)
    rw [h0, abs_zero, zero_sub, abs_neg, abs_of_nonneg (realOf_nonneg n), show realOf 0 = 0 by simp [realOf, magOf]] at this
    exact le_antisymm (by simpa using this) (realOf_nonneg n)
  refine ⟨signed (decide (r < 0)) n, ?_⟩
  rw [IsRne, if_neg h]
  refine ⟨(f32IsFinite_iff _).2 (by rwa [f32Abs_signed _ hn']), fun v hv => ?_, fun v hv hne he => ?_, fun _ => ?_⟩
  · rw [dist_signed r hn']
    exact (near _ ((f32IsFinite_iff v).1 hv)).trans (dist_ge r v)
  · rcases even with h2 | huniq
    · rw [lsb_signed, h2]
      rfl
    · rw [dist_signed r hn'] at he
      have hv' := (f32IsFinite_iff v).1 hv
      have hge := dist_ge r v
      have hnear := near _ hv'
      have hk := huniq _ hv' (le_antisymm hnear (by rw [he]; exact hge))
      exact absurd (value_of_dist hn' hz hk he.symm) hne
  · rw [f32Sign_signed _ hn', decide_eq_true_iff]

/-- Rounding stays on the side of a finite value that the real is on. -/
theorem isRne_ge {r : ℝ} {w v : Word} (h : IsRne r w) (hr : |r| < 2 ^ 128 - 2 ^ 103) (hv : f32IsFinite v = true)
    (hle : f32Real v ≤ r) : f32Real v ≤ f32Real w := by
  rw [IsRne, if_neg (not_le.2 hr)] at h
  by_contra hlt
  have := h.2.1 v hv
  rw [abs_of_nonneg (by linarith), abs_of_nonneg (by linarith)] at this
  linarith

theorem isRne_le {r : ℝ} {w v : Word} (h : IsRne r w) (hr : |r| < 2 ^ 128 - 2 ^ 103) (hv : f32IsFinite v = true)
    (hle : r ≤ f32Real v) : f32Real w ≤ f32Real v := by
  rw [IsRne, if_neg (not_le.2 hr)] at h
  by_contra hlt
  have := h.2.1 v hv
  rw [abs_of_nonpos (by linarith), abs_of_nonpos (by linarith)] at this
  linarith

theorem isRne_finite {r : ℝ} {w : Word} (h : IsRne r w) (hr : |r| < 2 ^ 128 - 2 ^ 103) : f32IsFinite w = true := by
  rw [IsRne, if_neg (not_le.2 hr)] at h
  exact h.1

/-- `rne(0) = +0.0` (rule R9). -/
theorem isRne_zero {w : Word} : IsRne 0 w ↔ w = 0 := by
  have h0 : |(0 : ℝ)| < 2 ^ 128 - 2 ^ 103 := by norm_num
  have hf0 : f32Real 0 = 0 := by simpa using f32Real_of_int (w := 0) (n := 0) (by decide)
  constructor
  · intro h
    rw [IsRne, if_neg (not_le.2 h0)] at h
    have hd := h.2.1 0 (by decide)
    rw [hf0, sub_zero, abs_zero, zero_sub, abs_neg, abs_f32Real] at hd
    have hz : (f32Abs w).toNat = 0 := by
      have h00 : realOf 0 = 0 := by simp [realOf, magOf]
      exact realOf_strictMono.injective (by rw [h00]; exact le_antisymm hd (realOf_nonneg _))
    have hzero : f32IsZero w = true := by
      rw [f32IsZero, beq_iff_eq]
      exact BitVec.eq_of_toNat_eq hz
    have hs : f32Sign w = false := by simpa using h.2.2.2 hzero
    rw [toNat_f32Abs] at hz
    rw [f32Sign, BitVec.getLsbD, Nat.testBit_eq_decide_div_mod_eq, decide_eq_false_iff_not] at hs
    have := w.isLt
    exact BitVec.eq_of_toNat_eq (by show w.toNat = 0; omega)
  · rintro rfl
    obtain ⟨v, hv⟩ := exists_isRne 0
    have h := hv
    rw [IsRne, if_neg (not_le.2 h0)] at h ⊢
    refine ⟨by decide, fun v _ => ?_, fun v _ _ _ => by decide, fun _ => by simp [f32Sign]⟩
    rw [hf0, sub_zero, abs_zero]
    exact abs_nonneg _

/-- Every real has a correctly rounded and saturated pattern (rule R227). -/
theorem exists_isSat (r : ℝ) : ∃ w : Word, IsSat r w := by
  by_cases h : 2 ^ 128 - 2 ^ 103 ≤ |r|
  · exact ⟨_, by rw [IsSat, if_pos h]⟩
  · obtain ⟨w, hw⟩ := exists_isRne r
    exact ⟨w, by rwa [IsSat, if_neg h]⟩

end Sys2Proof.Machine
end

