-- ==== Sys2Proof/Laws/Memory.lean ====
section
/-! SUPPORT. Reading after writing, the canonical form under every memory operation, and writes to different words in either
order. -/

namespace Sys2Proof.Machine

/-! ### Cells -/

@[simp] theorem cellsGet_nil (a : Nat) : cellsGet [] a = none := rfl

theorem cellsGet_put (cs : List Cell) (a b : Nat) (v : Word) :
    cellsGet (cellsPut cs a v) b = if b = a then some v else cellsGet cs b := by
  induction cs with
  | nil => simp [cellsPut, cellsGet]
  | cons c cs ih =>
    obtain ⟨k, u⟩ := c
    by_cases h1 : a < k
    · simp [cellsPut, h1, cellsGet]
    · by_cases h2 : a = k
      · subst h2
        by_cases h3 : b = a <;> simp [cellsPut, cellsGet, h3]
      · by_cases h3 : b = k
        · subst h3; simp [cellsPut, cellsGet, h1, h2, Ne.symm h2]
        · simp [cellsPut, cellsGet, h1, h2, h3, ih]

theorem cellsGet_erase (cs : List Cell) (a b : Nat) :
    cellsGet (cellsErase cs a) b = if b = a then none else cellsGet cs b := by
  induction cs with
  | nil => simp [cellsErase]
  | cons c cs ih =>
    obtain ⟨k, u⟩ := c
    have ih' : cellsGet (List.filter (fun c => c.1 != a) cs) b = if b = a then none else cellsGet cs b := ih
    by_cases h2 : k = a
    · subst h2
      by_cases h3 : b = k
      · subst h3; simpa [cellsErase] using ih'
      · simp [cellsErase, cellsGet, h3, ih']
    · by_cases h3 : b = k
      · subst h3; simp [cellsErase, cellsGet, h2]
      · simp [cellsErase, cellsGet, h2, h3, ih']

theorem mem_cellsPut {cs : List Cell} {a : Nat} {v : Word} {c : Cell} (h : c ∈ cellsPut cs a v) :
    c = (a, v) ∨ c ∈ cs := by
  induction cs with
  | nil => simpa [cellsPut] using h
  | cons d cs ih =>
    obtain ⟨k, u⟩ := d
    unfold cellsPut at h
    split at h
    · simpa using h
    · split at h
      · rcases List.mem_cons.1 h with h | h
        · exact .inl h
        · exact .inr (List.mem_cons_of_mem _ h)
      · rcases List.mem_cons.1 h with h | h
        · exact .inr (h ▸ List.mem_cons_self)
        · exact (ih h).imp_right (List.mem_cons_of_mem _)

/-- The keys rise strictly, as a statement about pairs. -/
theorem cellsSorted_iff (cs : List Cell) : cellsSorted cs = true ↔ cs.Pairwise fun c d => c.1 < d.1 := by
  induction cs with
  | nil => simp [cellsSorted]
  | cons c cs ih =>
    cases cs with
    | nil => simp [cellsSorted]
    | cons d cs =>
      obtain ⟨a, v⟩ := c
      obtain ⟨b, u⟩ := d
      rw [cellsSorted, Bool.and_eq_true, ih, List.pairwise_cons (a := (a, v)), decide_eq_true_iff]
      constructor
      · rintro ⟨hab, hp⟩
        refine ⟨fun x hx => ?_, hp⟩
        rcases List.mem_cons.1 hx with rfl | hx
        · exact hab
        · exact hab.trans (List.rel_of_pairwise_cons hp hx)
      · rintro ⟨h, hp⟩
        exact ⟨h _ List.mem_cons_self, hp⟩

theorem cellsSorted_put {cs : List Cell} (h : cellsSorted cs = true) (a : Nat) (v : Word) :
    cellsSorted (cellsPut cs a v) = true := by
  rw [cellsSorted_iff] at h ⊢
  induction cs with
  | nil => simp [cellsPut]
  | cons d cs ih =>
    obtain ⟨k, u⟩ := d
    rw [List.pairwise_cons] at h
    unfold cellsPut
    split
    · rename_i hk
      refine List.pairwise_cons.2 ⟨fun x hx => ?_, List.pairwise_cons.2 h⟩
      rcases List.mem_cons.1 hx with rfl | hx
      · exact hk
      · exact lt_trans hk (h.1 x hx)
    · split
      · rename_i hk
        exact List.pairwise_cons.2 ⟨fun x hx => hk ▸ h.1 x hx, h.2⟩
      · rename_i hk hk'
        refine List.pairwise_cons.2 ⟨fun x hx => ?_, ih h.2⟩
        rcases mem_cellsPut hx with rfl | hx
        · simp only; omega
        · exact h.1 x hx

theorem cellsSorted_erase {cs : List Cell} (h : cellsSorted cs = true) (a : Nat) :
    cellsSorted (cellsErase cs a) = true := by
  rw [cellsSorted_iff] at h ⊢
  exact h.filter _

/-- Sorted cells are determined by what they give under each key: equal memories are equal data. -/
theorem cells_ext {cs ds : List Cell} (hc : cellsSorted cs = true) (hd : cellsSorted ds = true)
    (h : ∀ a, cellsGet cs a = cellsGet ds a) : cs = ds := by
  rw [cellsSorted_iff] at hc hd
  have none_of_lt : ∀ {es : List Cell} {k : Nat}, (∀ x ∈ es, k < x.1) → cellsGet es k = none := by
    intro es k
    induction es with
    | nil => intro _; rfl
    | cons e es ih =>
      intro hk
      obtain ⟨b, v⟩ := e
      have hb : k < b := hk _ List.mem_cons_self
      rw [cellsGet, if_neg (by omega), ih fun x hx => hk x (List.mem_cons_of_mem _ hx)]
  induction cs generalizing ds with
  | nil =>
    cases ds with
    | nil => rfl
    | cons d ds => obtain ⟨b, v⟩ := d; simpa [cellsGet] using h b
  | cons c cs ih =>
    obtain ⟨a, u⟩ := c
    cases ds with
    | nil => simpa [cellsGet] using h a
    | cons d ds =>
      obtain ⟨b, v⟩ := d
      rw [List.pairwise_cons] at hc hd
      have hab : a = b := by
        rcases lt_trichotomy a b with hlt | heq | hgt
        · have hn : cellsGet ((b, v) :: ds) a = none := none_of_lt fun x hx => by
            rcases List.mem_cons.1 hx with rfl | hx
            · exact hlt
            · exact hlt.trans (hd.1 x hx)
          simpa [cellsGet, hn] using (h a).trans hn
        · exact heq
        · have hn : cellsGet ((a, u) :: cs) b = none := none_of_lt fun x hx => by
            rcases List.mem_cons.1 hx with rfl | hx
            · exact hgt
            · exact hgt.trans (hc.1 x hx)
          simpa [cellsGet, hn] using (h b).symm.trans hn
      subst hab
      have huv : u = v := by simpa [cellsGet] using h a
      subst huv
      congr 1
      refine ih hc.2 hd.2 fun k => ?_
      by_cases hk : k = a
      · rw [hk, none_of_lt hc.1, none_of_lt hd.1]
      · simpa [cellsGet, hk] using h k

/-! ### RAM -/

/-- Reading the word just written, and any other word (rules R87, R92). -/
theorem Memory.read_write (m : Memory) (a b : Nat) (v : Word) :
    (m.write a v).read b = if b = a then v else m.read b := by
  unfold Memory.write
  by_cases ha : isSpectrum a = true
  · rw [if_pos ha]
    by_cases hv : v = spectrumReset a
    · rw [if_pos hv]
      by_cases hb : b = a
      · subst hb; simp [Memory.read, ha, cellsGet_erase, unlisted, hv]
      · by_cases hsb : isSpectrum b = true <;> simp [Memory.read, hsb, cellsGet_erase, hb]
    · rw [if_neg hv]
      by_cases hb : b = a
      · subst hb; simp [Memory.read, ha, cellsGet_put]
      · by_cases hsb : isSpectrum b = true <;> simp [Memory.read, hsb, cellsGet_put, hb]
  · rw [if_neg ha]
    by_cases hb : b = a
    · subst hb; simp [Memory.read, ha, cellsGet_put]
    · by_cases hsb : isSpectrum b = true <;> simp [Memory.read, hsb, cellsGet_put, hb]

theorem Memory.read_write_self (m : Memory) (a : Nat) (v : Word) : (m.write a v).read a = v := by
  simp [Memory.read_write]

theorem Memory.read_write_ne (m : Memory) {a b : Nat} (h : b ≠ a) (v : Word) : (m.write a v).read b = m.read b := by
  simp [Memory.read_write, h]

/-- After the spectrum is cleared its words read their reset values, and every other word reads as before. -/
theorem Memory.read_clearSpectrum (m : Memory) (a : Nat) :
    m.clearSpectrum.read a = if isSpectrum a then spectrumReset a else m.read a := by
  by_cases h : isSpectrum a = true <;> simp [Memory.read, Memory.clearSpectrum, h, unlisted]

theorem Memory.read_writeList (m : Memory) (base : Nat) (xs : List Word) (a : Nat) :
    (m.writeList base xs).read a =
      if base ≤ a ∧ a < base + xs.length then xs.getD (a - base) 0 else m.read a := by
  induction xs generalizing m base with
  | nil =>
    have : ¬(base ≤ a ∧ a < base + ([] : List Word).length) := by simp only [List.length_nil]; omega
    rw [Memory.writeList, if_neg this]
  | cons x xs ih =>
    rw [Memory.writeList, ih, Memory.read_write]
    by_cases h1 : a = base
    · subst h1; simp
    · by_cases h2 : base + 1 ≤ a ∧ a < base + 1 + xs.length
      · have h3 : base ≤ a ∧ a < base + (x :: xs).length := by simp only [List.length_cons]; omega
        rw [if_pos h2, if_pos h3]
        have : a - base = (a - (base + 1)) + 1 := by omega
        rw [this, List.getD_cons_succ]
      · have h3 : ¬(base ≤ a ∧ a < base + (x :: xs).length) := by simp only [List.length_cons]; omega
        rw [if_neg h2, if_neg h3, if_neg h1]

theorem Memory.block_congr {m m' : Memory} {base len : Nat}
    (h : ∀ j < len, m.read (base + j) = m'.read (base + j)) : m.block base len = m'.block base len := by
  unfold Memory.block
  exact List.map_congr_left fun j hj => h j (List.mem_range.1 hj)

@[simp] theorem Memory.length_block (m : Memory) (base len : Nat) : (m.block base len).length = len := by
  simp [Memory.block]

/-- The canonical form, clause by clause. -/
theorem Memory.wf_iff (m : Memory) :
    m.wf = true ↔ cellsSorted m.ram = true ∧ (∀ c ∈ m.ram, isPlainRam c.1 = true) ∧ cellsSorted m.spectrum = true ∧
      ∀ c ∈ m.spectrum, hasSpectrumWord c.1 = true ∧ c.2 ≠ spectrumReset c.1 := by
  simp [Memory.wf, List.all_eq_true, and_assoc, bne_iff_ne]

theorem isPlainRam_not_isSpectrum {a : Nat} (h : isPlainRam a = true) : isSpectrum a = false := by
  simp [isPlainRam, isSpectrum, basePreL, baseMagL, baseCons] at h ⊢
  omega

theorem hasSpectrumWord_isSpectrum {a : Nat} (h : hasSpectrumWord a = true) : isSpectrum a = true := by
  simp only [hasSpectrumWord, Bool.and_eq_true] at h; exact h.1

/-- A write to a word the RAM has keeps the canonical form. -/
theorem Memory.wf_write {m : Memory} (h : m.wf = true) {a : Nat} (ha : (isPlainRam a || hasSpectrumWord a) = true)
    (v : Word) : (m.write a v).wf = true := by
  rw [Memory.wf_iff] at h ⊢
  obtain ⟨h1, h2, h3, h4⟩ := h
  rcases (Bool.or_eq_true _ _).mp ha with hr | hs
  · have := isPlainRam_not_isSpectrum hr
    simp only [Memory.write, this, Bool.false_eq_true, if_false]
    refine ⟨cellsSorted_put h1 _ _, fun c hc => ?_, h3, h4⟩
    rcases mem_cellsPut hc with rfl | hc
    · exact hr
    · exact h2 c hc
  · simp only [Memory.write, hasSpectrumWord_isSpectrum hs, if_true]
    split
    · exact ⟨h1, h2, cellsSorted_erase h3 _, fun c hc => h4 c (List.mem_of_mem_filter hc)⟩
    · rename_i hv
      refine ⟨h1, h2, cellsSorted_put h3 _ _, fun c hc => ?_⟩
      rcases mem_cellsPut hc with rfl | hc
      · exact ⟨hs, hv⟩
      · exact h4 c hc

theorem Memory.wf_clearSpectrum {m : Memory} (h : m.wf = true) : m.clearSpectrum.wf = true := by
  rw [Memory.wf_iff] at h ⊢
  exact ⟨h.1, h.2.1, rfl, fun c hc => absurd hc List.not_mem_nil⟩

theorem Memory.wf_writeList {m : Memory} (h : m.wf = true) {base : Nat} {xs : List Word}
    (ha : ∀ j < xs.length, (isPlainRam (base + j) || hasSpectrumWord (base + j)) = true) :
    (m.writeList base xs).wf = true := by
  induction xs generalizing m base with
  | nil => exact h
  | cons x xs ih =>
    rw [Memory.writeList]
    refine ih (Memory.wf_write h (ha 0 (by simp)) x) fun j hj => ?_
    have := ha (j + 1) (by simp only [List.length_cons]; omega)
    rwa [show base + (j + 1) = base + 1 + j by omega] at this

theorem Memory.wf_reset : Memory.reset.wf = true := rfl

/-- Memories in canonical form are determined by the words they list and by what they read. -/
theorem Memory.ext_get {m m' : Memory} (h : m.wf = true) (h' : m'.wf = true)
    (hr : ∀ a, cellsGet m.ram a = cellsGet m'.ram a) (hs : ∀ a, cellsGet m.spectrum a = cellsGet m'.spectrum a) :
    m = m' := by
  rw [Memory.wf_iff] at h h'
  cases m; cases m'
  simp only at *
  rw [cells_ext h.1 h'.1 hr, cells_ext h.2.2.1 h'.2.2.1 hs]

theorem Memory.ram_write (m : Memory) (a b : Nat) (v : Word) :
    cellsGet (m.write a v).ram b = if isSpectrum a = false ∧ b = a then some v else cellsGet m.ram b := by
  unfold Memory.write
  by_cases ha : isSpectrum a = true
  · rw [if_pos ha]; split <;> simp [ha]
  · simp only [Bool.not_eq_true] at ha; simp [ha, cellsGet_put]

theorem Memory.spectrum_write (m : Memory) (a b : Nat) (v : Word) :
    cellsGet (m.write a v).spectrum b =
      if isSpectrum a = true ∧ b = a then (if v = spectrumReset a then none else some v) else cellsGet m.spectrum b := by
  unfold Memory.write
  by_cases ha : isSpectrum a = true
  · rw [if_pos ha]
    by_cases hv : v = spectrumReset a
    · simp [ha, hv, cellsGet_erase]
    · simp [ha, hv, cellsGet_put]
  · simp only [Bool.not_eq_true] at ha; simp [ha]

/-- Writes to two words the RAM has, in either order. -/
theorem Memory.write_comm {m : Memory} (h : m.wf = true) {a b : Nat} (hab : a ≠ b)
    (ha : (isPlainRam a || hasSpectrumWord a) = true) (hb : (isPlainRam b || hasSpectrumWord b) = true) (u v : Word) :
    (m.write a u).write b v = (m.write b v).write a u := by
  refine Memory.ext_get (Memory.wf_write (Memory.wf_write h ha u) hb v)
    (Memory.wf_write (Memory.wf_write h hb v) ha u) (fun c => ?_) (fun c => ?_)
  · simp only [Memory.ram_write]
    by_cases h1 : c = a <;> by_cases h2 : c = b <;> simp_all
  · simp only [Memory.spectrum_write]
    by_cases h1 : c = a <;> by_cases h2 : c = b <;> simp_all

/-- Every spectrum word the RAM has is among the addresses the clearing loops write (rules R293, R295). -/
theorem mem_spectrumAddresses {a : Nat} : a ∈ spectrumAddresses ↔ hasSpectrumWord a = true := by
  simp [spectrumAddresses, hasSpectrumWord, isSpectrum, baseMagL, baseMagR, basePhL, basePhR, baseCons,
    Config.binsMax]
  constructor
  · rintro ⟨k, hk, h⟩; omega
  · rintro ⟨⟨h1, h2⟩, h3⟩
    exact ⟨a % 0x10000, h3, by omega⟩

end Sys2Proof.Machine
end

