-- ==== Sys2Proof/Laws/State.lean ====
section
/-! SUPPORT. What each named update of State leaves as it was and what it changes, one lemma per field per update, so that no
later proof unfolds a record update. -/

namespace Sys2Proof.Machine

variable (s : State) (port : Port) (rest : List Word) (code : RespCode) (data : Word)


/-! ### genOpen, genClose -/

@[simp] theorem genOpen_gen : (genOpen s).gen = s.gen + 1 := rfl
@[simp] theorem genOpen_status : (genOpen s).status = s.status := rfl
@[simp] theorem genOpen_irqEn : (genOpen s).irqEn = s.irqEn := rfl
@[simp] theorem genOpen_mode : (genOpen s).mode = s.mode := rfl
@[simp] theorem genOpen_order : (genOpen s).order = s.order := rfl
@[simp] theorem genOpen_regs : (genOpen s).regs = s.regs := rfl
@[simp] theorem genOpen_fifoCap : (genOpen s).fifoCap = s.fifoCap := rfl
@[simp] theorem genOpen_blkMax : (genOpen s).blkMax = s.blkMax := rfl
@[simp] theorem genOpen_mem : (genOpen s).mem = s.mem := rfl
@[simp] theorem genOpen_acc : (genOpen s).acc = s.acc := rfl
@[simp] theorem genOpen_fifo : (genOpen s).fifo = s.fifo := rfl
@[simp] theorem genOpen_dyn : (genOpen s).dyn = s.dyn := rfl
@[simp] theorem genOpen_env : (genOpen s).env = s.env := rfl
@[simp] theorem genOpen_port : (genOpen s).port = s.port := rfl
@[simp] theorem genOpen_inP : (genOpen s).inP = s.inP := rfl
@[simp] theorem genOpen_inC : (genOpen s).inC = s.inC := rfl
@[simp] theorem genOpen_outP : (genOpen s).outP = s.outP := rfl
@[simp] theorem genOpen_outC : (genOpen s).outC = s.outC := rfl
@[simp] theorem genOpen_inFlight : (genOpen s).inFlight = s.inFlight := rfl
@[simp] theorem genOpen_sched : (genOpen s).sched = s.sched := rfl
@[simp] theorem genOpen_ticks : (genOpen s).ticks = s.ticks := rfl
@[simp] theorem genClose_gen : (genClose s).gen = s.gen + 1 := rfl
@[simp] theorem genClose_status : (genClose s).status = s.status := rfl
@[simp] theorem genClose_irqEn : (genClose s).irqEn = s.irqEn := rfl
@[simp] theorem genClose_mode : (genClose s).mode = s.mode := rfl
@[simp] theorem genClose_order : (genClose s).order = s.order := rfl
@[simp] theorem genClose_regs : (genClose s).regs = s.regs := rfl
@[simp] theorem genClose_fifoCap : (genClose s).fifoCap = s.fifoCap := rfl
@[simp] theorem genClose_blkMax : (genClose s).blkMax = s.blkMax := rfl
@[simp] theorem genClose_mem : (genClose s).mem = s.mem := rfl
@[simp] theorem genClose_acc : (genClose s).acc = s.acc := rfl
@[simp] theorem genClose_fifo : (genClose s).fifo = s.fifo := rfl
@[simp] theorem genClose_dyn : (genClose s).dyn = s.dyn := rfl
@[simp] theorem genClose_env : (genClose s).env = s.env := rfl
@[simp] theorem genClose_port : (genClose s).port = s.port := rfl
@[simp] theorem genClose_inP : (genClose s).inP = s.inP := rfl
@[simp] theorem genClose_inC : (genClose s).inC = s.inC := rfl
@[simp] theorem genClose_outP : (genClose s).outP = s.outP := rfl
@[simp] theorem genClose_outC : (genClose s).outC = s.outC := rfl
@[simp] theorem genClose_inFlight : (genClose s).inFlight = s.inFlight := rfl
@[simp] theorem genClose_sched : (genClose s).sched = s.sched := rfl
@[simp] theorem genClose_ticks : (genClose s).ticks = s.ticks := rfl

/-! ### State.take -/

@[simp] theorem take_status : (s.take port rest).status = s.status := by cases port <;> rfl
@[simp] theorem take_irqEn : (s.take port rest).irqEn = s.irqEn := by cases port <;> rfl
@[simp] theorem take_mode : (s.take port rest).mode = s.mode := by cases port <;> rfl
@[simp] theorem take_order : (s.take port rest).order = s.order := by cases port <;> rfl
@[simp] theorem take_regs : (s.take port rest).regs = s.regs := by cases port <;> rfl
@[simp] theorem take_gen : (s.take port rest).gen = s.gen := by cases port <;> rfl
@[simp] theorem take_fifoCap : (s.take port rest).fifoCap = s.fifoCap := by cases port <;> rfl
@[simp] theorem take_blkMax : (s.take port rest).blkMax = s.blkMax := by cases port <;> rfl
@[simp] theorem take_mem : (s.take port rest).mem = s.mem := by cases port <;> rfl
@[simp] theorem take_acc : (s.take port rest).acc = s.acc := by cases port <;> rfl
@[simp] theorem take_fifo : (s.take port rest).fifo = s.fifo := by cases port <;> rfl
@[simp] theorem take_dyn : (s.take port rest).dyn = s.dyn := by cases port <;> rfl
@[simp] theorem take_env : (s.take port rest).env = s.env := by cases port <;> rfl
@[simp] theorem take_outP : (s.take port rest).outP = s.outP := by cases port <;> rfl
@[simp] theorem take_outC : (s.take port rest).outC = s.outC := by cases port <;> rfl
@[simp] theorem take_inFlight : (s.take port rest).inFlight = s.inFlight := by cases port <;> rfl
@[simp] theorem take_sched : (s.take port rest).sched = s.sched := by cases port <;> rfl
@[simp] theorem take_ticks : (s.take port rest).ticks = s.ticks := by cases port <;> rfl
@[simp] theorem take_port : (s.take port rest).port = port := by cases port <;> rfl
@[simp] theorem take_producer_inP : (s.take .producer rest).inP = rest := rfl
@[simp] theorem take_producer_inC : (s.take .producer rest).inC = s.inC := rfl
@[simp] theorem take_consumer_inP : (s.take .consumer rest).inP = s.inP := rfl
@[simp] theorem take_consumer_inC : (s.take .consumer rest).inC = rest := rfl

/-! ### respond -/

@[simp] theorem respond_status : (respond code data s).status = s.status := by unfold respond; cases s.port <;> rfl
@[simp] theorem respond_irqEn : (respond code data s).irqEn = s.irqEn := by unfold respond; cases s.port <;> rfl
@[simp] theorem respond_mode : (respond code data s).mode = s.mode := by unfold respond; cases s.port <;> rfl
@[simp] theorem respond_order : (respond code data s).order = s.order := by unfold respond; cases s.port <;> rfl
@[simp] theorem respond_regs : (respond code data s).regs = s.regs := by unfold respond; cases s.port <;> rfl
@[simp] theorem respond_gen : (respond code data s).gen = s.gen := by unfold respond; cases s.port <;> rfl
@[simp] theorem respond_fifoCap : (respond code data s).fifoCap = s.fifoCap := by unfold respond; cases s.port <;> rfl
@[simp] theorem respond_blkMax : (respond code data s).blkMax = s.blkMax := by unfold respond; cases s.port <;> rfl
@[simp] theorem respond_mem : (respond code data s).mem = s.mem := by unfold respond; cases s.port <;> rfl
@[simp] theorem respond_acc : (respond code data s).acc = s.acc := by unfold respond; cases s.port <;> rfl
@[simp] theorem respond_fifo : (respond code data s).fifo = s.fifo := by unfold respond; cases s.port <;> rfl
@[simp] theorem respond_dyn : (respond code data s).dyn = s.dyn := by unfold respond; cases s.port <;> rfl
@[simp] theorem respond_env : (respond code data s).env = s.env := by unfold respond; cases s.port <;> rfl
@[simp] theorem respond_port : (respond code data s).port = s.port := by unfold respond; cases s.port <;> rfl
@[simp] theorem respond_inP : (respond code data s).inP = s.inP := by unfold respond; cases s.port <;> rfl
@[simp] theorem respond_inC : (respond code data s).inC = s.inC := by unfold respond; cases s.port <;> rfl
@[simp] theorem respond_inFlight : (respond code data s).inFlight = s.inFlight := by unfold respond; cases s.port <;> rfl
@[simp] theorem respond_sched : (respond code data s).sched = s.sched := by unfold respond; cases s.port <;> rfl
@[simp] theorem respond_ticks : (respond code data s).ticks = s.ticks := by unfold respond; cases s.port <;> rfl
/-- A response goes to the port whose command is performed, and to it alone (rule R118). -/
theorem respond_producer (h : s.port = .producer) :
    respond code data s = { s with outP := s.outP ++ [⟨code, data⟩] } := by simp [respond, h]
/-- A response goes to the port whose command is performed, and to it alone (rule R118). -/
theorem respond_consumer (h : s.port = .consumer) :
    respond code data s = { s with outC := s.outC ++ [⟨code, data⟩] } := by simp [respond, h]

/-! ### answerError -/

@[simp] theorem answerError_irqEn : (answerError code s).irqEn = s.irqEn := by unfold answerError; cases code <;> simp [RespCode.flag]
@[simp] theorem answerError_mode : (answerError code s).mode = s.mode := by unfold answerError; cases code <;> simp [RespCode.flag]
@[simp] theorem answerError_order : (answerError code s).order = s.order := by unfold answerError; cases code <;> simp [RespCode.flag]
@[simp] theorem answerError_regs : (answerError code s).regs = s.regs := by unfold answerError; cases code <;> simp [RespCode.flag]
@[simp] theorem answerError_gen : (answerError code s).gen = s.gen := by unfold answerError; cases code <;> simp [RespCode.flag]
@[simp] theorem answerError_fifoCap : (answerError code s).fifoCap = s.fifoCap := by unfold answerError; cases code <;> simp [RespCode.flag]
@[simp] theorem answerError_blkMax : (answerError code s).blkMax = s.blkMax := by unfold answerError; cases code <;> simp [RespCode.flag]
@[simp] theorem answerError_mem : (answerError code s).mem = s.mem := by unfold answerError; cases code <;> simp [RespCode.flag]
@[simp] theorem answerError_acc : (answerError code s).acc = s.acc := by unfold answerError; cases code <;> simp [RespCode.flag]
@[simp] theorem answerError_fifo : (answerError code s).fifo = s.fifo := by unfold answerError; cases code <;> simp [RespCode.flag]
@[simp] theorem answerError_dyn : (answerError code s).dyn = s.dyn := by unfold answerError; cases code <;> simp [RespCode.flag]
@[simp] theorem answerError_env : (answerError code s).env = s.env := by unfold answerError; cases code <;> simp [RespCode.flag]
@[simp] theorem answerError_port : (answerError code s).port = s.port := by unfold answerError; cases code <;> simp [RespCode.flag]
@[simp] theorem answerError_inP : (answerError code s).inP = s.inP := by unfold answerError; cases code <;> simp [RespCode.flag]
@[simp] theorem answerError_inC : (answerError code s).inC = s.inC := by unfold answerError; cases code <;> simp [RespCode.flag]
@[simp] theorem answerError_inFlight : (answerError code s).inFlight = s.inFlight := by unfold answerError; cases code <;> simp [RespCode.flag]
@[simp] theorem answerError_sched : (answerError code s).sched = s.sched := by unfold answerError; cases code <;> simp [RespCode.flag]
@[simp] theorem answerError_ticks : (answerError code s).ticks = s.ticks := by unfold answerError; cases code <;> simp [RespCode.flag]
/-- ERR_CMD sets STATUS.ERR_CMD and answers (ERR_CMD, 0), nothing else (rule R322). -/
theorem answerError_errCmd :
    answerError .errCmd s = respond .errCmd 0 { s with status := { s.status with errCmd := true } } := rfl
/-- ERR_ADDR sets STATUS.ERR_ADDR and answers (ERR_ADDR, 0), nothing else (rule R322). -/
theorem answerError_errAddr :
    answerError .errAddr s = respond .errAddr 0 { s with status := { s.status with errAddr := true } } := rfl
/-- ERR_PORT sets STATUS.ERR_PORT and answers (ERR_PORT, 0), nothing else (rule R322). -/
theorem answerError_errPort :
    answerError .errPort s = respond .errPort 0 { s with status := { s.status with errPort := true } } := rfl

/-! ### WriteStep.apply -/

@[simp] theorem apply_gen (w : WriteStep) : (w.apply s).gen = s.gen := by cases w <;> simp only [WriteStep.apply]
@[simp] theorem apply_fifoCap (w : WriteStep) : (w.apply s).fifoCap = s.fifoCap := by cases w <;> simp only [WriteStep.apply]
@[simp] theorem apply_blkMax (w : WriteStep) : (w.apply s).blkMax = s.blkMax := by cases w <;> simp only [WriteStep.apply]
@[simp] theorem apply_port (w : WriteStep) : (w.apply s).port = s.port := by cases w <;> simp only [WriteStep.apply]
@[simp] theorem apply_inP (w : WriteStep) : (w.apply s).inP = s.inP := by cases w <;> simp only [WriteStep.apply]
@[simp] theorem apply_inC (w : WriteStep) : (w.apply s).inC = s.inC := by cases w <;> simp only [WriteStep.apply]
@[simp] theorem apply_outP (w : WriteStep) : (w.apply s).outP = s.outP := by cases w <;> simp only [WriteStep.apply]
@[simp] theorem apply_outC (w : WriteStep) : (w.apply s).outC = s.outC := by cases w <;> simp only [WriteStep.apply]
@[simp] theorem apply_inFlight (w : WriteStep) : (w.apply s).inFlight = s.inFlight := by cases w <;> simp only [WriteStep.apply]
@[simp] theorem apply_sched (w : WriteStep) : (w.apply s).sched = s.sched := by cases w <;> simp only [WriteStep.apply]
@[simp] theorem apply_ticks (w : WriteStep) : (w.apply s).ticks = s.ticks := by cases w <;> simp only [WriteStep.apply]

/-! ### applyAll -/

@[simp] theorem applyAll_nil : applyAll [] s = s := rfl
@[simp] theorem applyAll_cons (w : Write) (ws : List Write) : applyAll (w :: ws) s = applyAll ws (w.step.apply s) := rfl
theorem applyAll_append (ws ws' : List Write) : applyAll (ws ++ ws') s = applyAll ws' (applyAll ws s) := by
  simp [applyAll, List.foldl_append]
/-- What no step of a list changes, the list does not change. -/
theorem applyAll_preserves {α : Type} (f : State → α) (ws : List Write)
    (h : ∀ w ∈ ws, ∀ t, f (w.step.apply t) = f t) : f (applyAll ws s) = f s := by
  induction ws generalizing s with
  | nil => rfl
  | cons w ws ih =>
    rw [applyAll_cons, ih _ (fun x hx => h x (List.mem_cons_of_mem _ hx)), h w List.mem_cons_self]
@[simp] theorem applyAll_gen (ws : List Write) : (applyAll ws s).gen = s.gen :=
  applyAll_preserves s (·.gen) ws fun w _ t => apply_gen t w.step
@[simp] theorem applyAll_fifoCap (ws : List Write) : (applyAll ws s).fifoCap = s.fifoCap :=
  applyAll_preserves s (·.fifoCap) ws fun w _ t => apply_fifoCap t w.step
@[simp] theorem applyAll_blkMax (ws : List Write) : (applyAll ws s).blkMax = s.blkMax :=
  applyAll_preserves s (·.blkMax) ws fun w _ t => apply_blkMax t w.step
@[simp] theorem applyAll_port (ws : List Write) : (applyAll ws s).port = s.port :=
  applyAll_preserves s (·.port) ws fun w _ t => apply_port t w.step
@[simp] theorem applyAll_inP (ws : List Write) : (applyAll ws s).inP = s.inP :=
  applyAll_preserves s (·.inP) ws fun w _ t => apply_inP t w.step
@[simp] theorem applyAll_inC (ws : List Write) : (applyAll ws s).inC = s.inC :=
  applyAll_preserves s (·.inC) ws fun w _ t => apply_inC t w.step
@[simp] theorem applyAll_outP (ws : List Write) : (applyAll ws s).outP = s.outP :=
  applyAll_preserves s (·.outP) ws fun w _ t => apply_outP t w.step
@[simp] theorem applyAll_outC (ws : List Write) : (applyAll ws s).outC = s.outC :=
  applyAll_preserves s (·.outC) ws fun w _ t => apply_outC t w.step
@[simp] theorem applyAll_inFlight (ws : List Write) : (applyAll ws s).inFlight = s.inFlight :=
  applyAll_preserves s (·.inFlight) ws fun w _ t => apply_inFlight t w.step
@[simp] theorem applyAll_sched (ws : List Write) : (applyAll ws s).sched = s.sched :=
  applyAll_preserves s (·.sched) ws fun w _ t => apply_sched t w.step
@[simp] theorem applyAll_ticks (ws : List Write) : (applyAll ws s).ticks = s.ticks :=
  applyAll_preserves s (·.ticks) ws fun w _ t => apply_ticks t w.step

/-! ### closeBracket, bracket -/

@[simp] theorem closeBracket_status : (closeBracket s).status = s.status := by simp [closeBracket]
@[simp] theorem closeBracket_irqEn : (closeBracket s).irqEn = s.irqEn := by simp [closeBracket]
@[simp] theorem closeBracket_mode : (closeBracket s).mode = s.mode := by simp [closeBracket]
@[simp] theorem closeBracket_order : (closeBracket s).order = s.order := by simp [closeBracket]
@[simp] theorem closeBracket_regs : (closeBracket s).regs = s.regs := by simp [closeBracket]
@[simp] theorem closeBracket_fifoCap : (closeBracket s).fifoCap = s.fifoCap := by simp [closeBracket]
@[simp] theorem closeBracket_blkMax : (closeBracket s).blkMax = s.blkMax := by simp [closeBracket]
@[simp] theorem closeBracket_mem : (closeBracket s).mem = s.mem := by simp [closeBracket]
@[simp] theorem closeBracket_acc : (closeBracket s).acc = s.acc := by simp [closeBracket]
@[simp] theorem closeBracket_fifo : (closeBracket s).fifo = s.fifo := by simp [closeBracket]
@[simp] theorem closeBracket_dyn : (closeBracket s).dyn = s.dyn := by simp [closeBracket]
@[simp] theorem closeBracket_env : (closeBracket s).env = s.env := by simp [closeBracket]
@[simp] theorem closeBracket_port : (closeBracket s).port = s.port := by simp [closeBracket]
@[simp] theorem closeBracket_inP : (closeBracket s).inP = s.inP := by simp [closeBracket]
@[simp] theorem closeBracket_inC : (closeBracket s).inC = s.inC := by simp [closeBracket]
@[simp] theorem closeBracket_inFlight : (closeBracket s).inFlight = s.inFlight := by simp [closeBracket]
@[simp] theorem closeBracket_sched : (closeBracket s).sched = s.sched := by simp [closeBracket]
@[simp] theorem closeBracket_ticks : (closeBracket s).ticks = s.ticks := by simp [closeBracket]
@[simp] theorem closeBracket_gen : (closeBracket s).gen = s.gen + 1 := by simp [closeBracket]
@[simp] theorem bracket_fifoCap (ws : List Write) : (bracket ws s).fifoCap = s.fifoCap := by simp [bracket]
@[simp] theorem bracket_blkMax (ws : List Write) : (bracket ws s).blkMax = s.blkMax := by simp [bracket]
@[simp] theorem bracket_port (ws : List Write) : (bracket ws s).port = s.port := by simp [bracket]
@[simp] theorem bracket_inP (ws : List Write) : (bracket ws s).inP = s.inP := by simp [bracket]
@[simp] theorem bracket_inC (ws : List Write) : (bracket ws s).inC = s.inC := by simp [bracket]
@[simp] theorem bracket_inFlight (ws : List Write) : (bracket ws s).inFlight = s.inFlight := by simp [bracket]
@[simp] theorem bracket_sched (ws : List Write) : (bracket ws s).sched = s.sched := by simp [bracket]
@[simp] theorem bracket_ticks (ws : List Write) : (bracket ws s).ticks = s.ticks := by simp [bracket]
/-- GEN takes no part in a write step. -/
theorem apply_setGen (w : WriteStep) (g : Word) : w.apply { s with gen := g } = { w.apply s with gen := g } := by
  cases w <;> simp only [WriteStep.apply]
theorem applyAll_setGen (ws : List Write) (g : Word) :
    applyAll ws { s with gen := g } = { applyAll ws s with gen := g } := by
  induction ws generalizing s with
  | nil => rfl
  | cons w ws ih => rw [applyAll_cons, apply_setGen, ih, applyAll_cons]
/-- The port noted and the steps still to come take no part in a write step. -/
theorem apply_setInFlight (w : WriteStep) (p : Port) (f : Option (List Write)) :
    w.apply { s with port := p, inFlight := f } = { w.apply s with port := p, inFlight := f } := by
  cases w <;> simp only [WriteStep.apply]
theorem applyAll_setInFlight (ws : List Write) (p : Port) (f : Option (List Write)) :
    applyAll ws { s with port := p, inFlight := f } = { applyAll ws s with port := p, inFlight := f } := by
  induction ws generalizing s with
  | nil => rfl
  | cons w ws ih => rw [applyAll_cons, apply_setInFlight, ih, applyAll_cons]
/-- A bracketed command is its write steps, GEN two further, and the response (OK, 0) (rule R91). -/
theorem bracket_eq (ws : List Write) :
    bracket ws s = respond .ok 0 { applyAll ws s with gen := s.gen + 2 } := by
  have h : applyAll ws (genOpen s) = { applyAll ws s with gen := s.gen + 1 } := applyAll_setGen s ws _
  rw [bracket, closeBracket, h, genClose, BitVec.add_assoc]
  rfl
/-- A bracketed command advances GEN by 2 (rule R91). -/
@[simp] theorem bracket_gen (ws : List Write) : (bracket ws s).gen = s.gen + 1 + 1 := by simp [bracket]

end Sys2Proof.Machine
end

