-- ==== Sys2Proof/Laws/Commands.lean ====
section
/-! SUPPORT. What each command can do, said once: the check of an access, the shape of every meaning, and the write steps each
Port P command is made of. -/

namespace Sys2Proof.Machine

/-! ### The access check (rule R119) -/

/-- The region of an address whose region number is known. -/
theorem regionOf_eq {addr : BitVec 24} {n : Nat} (h : addr.toNat / 0x10000 = n) :
    regionOf addr = Region.ofNumber n := by
  have : (2 : Nat) ^ 16 = 0x10000 := by norm_num
  rw [regionOf, this, h]

theorem indexOf_eq (addr : BitVec 24) : indexOf addr = addr.toNat % 0x10000 := by norm_num [indexOf]

/-- Above region number 8 nothing is mapped (rule R82). -/
theorem Region.ofNumber_unmapped {n : Nat} (h : 8 < n) : Region.ofNumber n = none := by
  unfold Region.ofNumber
  split <;> first | omega | rfl

/-- The number of a region (rule R82). -/
def Region.number : Region → Nat
  | .regs => 0
  | .preL => 1
  | .postL => 2
  | .postR => 3
  | .magL => 4
  | .magR => 5
  | .phL => 6
  | .phR => 7
  | .consBuf => 8

theorem regionOf_some {addr : BitVec 24} {r : Region} (h : regionOf addr = some r) :
    addr.toNat / 0x10000 = r.number := by
  rw [regionOf_eq rfl] at h
  unfold Region.ofNumber at h
  split at h <;> cases h <;> assumption

/-- An access that is performed passed each check of rule R119. -/
theorem checkAccess_ok {s : State} {acc : Access} {addr : BitVec 24} (h : checkAccess s acc addr = .ok) :
    ∃ region, regionOf addr = some region ∧ portForbids s.port acc region (indexOf addr) = false ∧
      indexOf addr < region.bound s ∧ (acc = .write → readOnlyWord region (indexOf addr) = false) := by
  unfold checkAccess at h
  split at h
  · cases h
  · rename_i region hr
    split at h
    · cases h
    · split at h
      · cases h
      · split at h
        · cases h
        · split at h
          · cases h
          · rename_i h1 h2 h3 h4
            refine ⟨region, hr, by simpa using h2, by omega, fun e => ?_⟩
            simpa [e] using h4

theorem checkAccess_ne_errCmd (s : State) (acc : Access) (addr : BitVec 24) : checkAccess s acc addr ≠ .errCmd := by
  unfold checkAccess
  split
  · simp
  · split <;> try simp
    split <;> try simp
    split <;> try simp
    split <;> simp

/-- Port C may write STATUS and nothing else (rule R83). -/
theorem checkAccess_consumer_write {s : State} {addr : BitVec 24} (hp : s.port = .consumer)
    (h : checkAccess s .write addr = .ok) : addr = statusAddr := by
  obtain ⟨region, hr, hf, -, hw⟩ := checkAccess_ok h
  have hn := regionOf_some hr
  rw [hp] at hf
  cases region <;> simp [portForbids] at hf
  · rw [indexOf_eq] at hf
    refine BitVec.eq_of_toNat_eq ?_
    have : statusAddr.toNat = 1 := rfl
    simp only [Region.number] at hn
    omega
  · simp [readOnlyWord] at hw

/-! ### RD and WR -/

theorem exec_rd_ok {s : State} {addr : BitVec 24} (h : checkAccess s .read addr = .ok) :
    exec (.rd addr) s = .next (respond .ok (readWord s addr) s) := by simp only [exec, execRd, h]

theorem exec_rd_error {s : State} {addr : BitVec 24} {code : RespCode} (h : checkAccess s .read addr = code)
    (hc : code ≠ .ok) : exec (.rd addr) s = .next (answerError code s) := by
  cases code <;> first | exact absurd rfl hc | simp only [exec, execRd, h]

theorem exec_wr_ok {s : State} {addr : BitVec 24} {data : Word} (h : checkAccess s .write addr = .ok)
    (ha : addr ≠ statusAddr) : exec (.wr addr data) s = .next (bracket (wrSteps addr data s) s) := by
  simp only [exec, execWr, h, if_neg ha]

/-- STATUS may be written from either port (rules R83, R119). -/
theorem checkAccess_write_status (s : State) : checkAccess s .write statusAddr = .ok := by
  have hr : regionOf statusAddr = some .regs := rfl
  have hi : indexOf statusAddr = 1 := rfl
  simp only [checkAccess, hr, hi, readOnlyWord, Register.ofIndex, Register.writable, Region.bound]
  cases s.port <;> simp [portForbids]

theorem exec_wr_status (s : State) (data : Word) : exec (.wr statusAddr data) s = .next (writeStatus data s) := by
  simp only [exec, execWr, checkAccess_write_status, if_true]

theorem exec_wr_error {s : State} {addr : BitVec 24} {data : Word} {code : RespCode}
    (h : checkAccess s .write addr = code) (hc : code ≠ .ok) :
    exec (.wr addr data) s = .next (answerError code s) := by
  cases code <;> first | exact absurd rfl hc | simp only [exec, execWr, h]

/-! ### The shape of every meaning -/

theorem producerCommand_producer {s : State} (h : s.port = .producer) (ws : State → List Write) :
    producerCommand ws s = bracket (ws s) s := by simp [producerCommand, h]

theorem producerCommand_consumer {s : State} (h : s.port = .consumer) (ws : State → List Write) :
    producerCommand ws s = answerError .errPort s := by simp [producerCommand, h]

/-- What a bracketed command does whole (rule R91). -/
theorem exec_bracketed {s : State} (hp : s.port = .producer) {i : Instr} {ws : List Write}
    (h : bracketed i s = some ws) : exec i s = .next (bracket ws s) := by
  cases i <;> simp only [bracketed, Option.some.injEq, reduceCtorEq] at h
  case wr addr data =>
    split at h
    · rename_i hc
      cases h
      exact exec_wr_ok hc.1 hc.2
    · cases h
  all_goals
    subst h
    simp only [exec, execAcc, execDyn, execEnv, execThd, execTrig, execSrst, producerCommand_producer hp]

/-- Everything a command can do: answer an error, one of the five atomic commands, or a bracketed one on Port P. -/
theorem exec_cases {i : Instr} {s t : State} (h : exec i s = .next t) :
    (∃ code, code ≠ .ok ∧ t = answerError code s) ∨
    (∃ imm, i = .nop imm ∧ t = respond .ok 0 s) ∨
    (∃ addr, i = .rd addr ∧ checkAccess s .read addr = .ok ∧ t = respond .ok (readWord s addr) s) ∨
    (∃ data, i = .wr statusAddr data ∧ t = writeStatus data s) ∨
    (∃ imm, i = .fwr imm ∧ s.port = .producer ∧ t = respond .ok 0
      { s with fifo := s.fifo.push s.fifoCap.val (s.mem.block basePostL s.regs.blklen.toNat) }) ∨
    (∃ m, i = .frd m ∧ s.port = .consumer ∧
      t = respond .ok (BitVec.ofNat 32 (frdCount m s)) (takeSamples (frdCount m s) s)) ∨
    ∃ ws, s.port = .producer ∧ bracketed i s = some ws ∧ t = bracket ws s := by
  have prod (ws : State → List Write) (hb : bracketed i s = some (ws s))
      (he : exec i s = .next (producerCommand ws s)) :
      (∃ code, code ≠ .ok ∧ t = answerError code s) ∨
        ∃ ws, s.port = .producer ∧ bracketed i s = some ws ∧ t = bracket ws s := by
    rw [he] at h
    cases h
    cases hp : s.port
    · exact .inr ⟨_, rfl, hb, producerCommand_producer hp ws⟩
    · exact .inl ⟨.errPort, by simp, producerCommand_consumer hp ws⟩
  cases i with
  | nop imm => cases h; exact .inr (.inl ⟨imm, rfl, rfl⟩)
  | rd addr =>
    by_cases hc : checkAccess s .read addr = .ok
    · rw [exec_rd_ok hc] at h
      cases h
      exact .inr (.inr (.inl ⟨addr, rfl, hc, rfl⟩))
    · rw [exec_rd_error rfl hc] at h
      cases h
      exact .inl ⟨_, hc, rfl⟩
  | wr addr data =>
    by_cases hc : checkAccess s .write addr = .ok
    · by_cases ha : addr = statusAddr
      · subst ha
        rw [exec_wr_status] at h
        cases h
        exact .inr (.inr (.inr (.inl ⟨data, rfl, rfl⟩)))
      · rw [exec_wr_ok hc ha] at h
        cases h
        cases hp : s.port
        · exact .inr (.inr (.inr (.inr (.inr (.inr ⟨_, rfl, by rw [bracketed, if_pos ⟨hc, ha⟩], rfl⟩)))))
        · exact absurd (checkAccess_consumer_write hp hc) ha
    · rw [exec_wr_error rfl hc] at h
      cases h
      exact .inl ⟨_, hc, rfl⟩
  | fwr imm =>
    cases hp : s.port <;> simp only [exec, execFwr, hp] at h <;> cases h
    · exact .inr (.inr (.inr (.inr (.inl ⟨imm, rfl, rfl, rfl⟩))))
    · exact .inl ⟨.errPort, by simp, rfl⟩
  | frd m =>
    cases hp : s.port <;> simp only [exec, execFrd, hp] at h <;> cases h
    · exact .inl ⟨.errPort, by simp, rfl⟩
    · exact .inr (.inr (.inr (.inr (.inr (.inl ⟨m, rfl, rfl, rfl⟩)))))
  | acc imm => rcases prod _ rfl rfl with h | h <;> simp [h]
  | dyn imm => rcases prod _ rfl rfl with h | h <;> simp [h]
  | env imm => rcases prod envSteps rfl rfl with h | h <;> simp [h]
  | thd imm => rcases prod _ rfl rfl with h | h <;> simp [h]
  | trig imm => rcases prod trigSteps rfl rfl with h | h <;> simp [h]
  | srst imm => rcases prod srstSteps rfl rfl with h | h <;> simp [h]

end Sys2Proof.Machine
end

