-- ==== Sys2Proof/Laws/CommandSteps.lean ====
section
/-! SUPPORT. The write steps each Port P command is made of: which words a command may write, said once. -/

namespace Sys2Proof.Machine

/-- The registers a distortion run writes (rules R222, R224, R225, R226). -/
inductive DistortionReg : WordReg → Prop
  | fbin : DistortionReg .fbin
  | thd : DistortionReg .thd
  | thdn : DistortionReg .thdn
  | hcnt : DistortionReg .hcnt
  | harm (j : Fin 10) : DistortionReg (.harm j)

/-- The steps of ACC, in a mode and for a number of bins (rules R180 to R193, R228). -/
inductive AccStep (mode : Mode) (bins : Nat) : WriteStep → Prop
  | word {a : Nat} (v : Word) (lo : baseMagL ≤ a) (hi : a < baseCons) (bin : a % 0x10000 < bins) :
    AccStep mode bins (.word a v)
  | valid : AccStep mode bins (.flag .valid true)
  | ready : AccStep mode bins (.flag .ready true)
  | analyzing (h : mode = .linear) : AccStep mode bins (.flag .analyzing false)
  | seq (v : Word) : AccStep mode bins (.reg .seq v)
  | metric {r : WordReg} (v : Word) (h : mode = .harmonic ∨ mode = .thdSweep) (hr : DistortionReg r) :
    AccStep mode bins (.reg r v)
  | imd (h : mode = .imd) : AccStep mode bins (.reg .imd 0)
  | accept (xs : List (Word × Word)) : AccStep mode bins (.accept xs)
  | clearFill : AccStep mode bins .clearFill

/-- The steps of every bracketed command (rule R91), from the state it starts in. -/
inductive CommandStep (s : State) : Instr → WriteStep → Prop
  | acc (imm : BitVec 24) {w : WriteStep} (h : AccStep s.mode s.bins w) : CommandStep s (.acc imm) w
  | thd (imm : BitVec 24) {r : WordReg} (v : Word) (hr : DistortionReg r) : CommandStep s (.thd imm) (.reg r v)
  | dynPush (imm : BitVec 24) (pair : Word × Word) : CommandStep s (.dyn imm) (.dynPush pair)
  | dynIn (imm : BitVec 24) (v : Word) : CommandStep s (.dyn imm) (.reg .dynIn v)
  | dynOut (imm : BitVec 24) (v : Word) : CommandStep s (.dyn imm) (.reg .dynOut v)
  | cratio (imm : BitVec 24) (v : Word) : CommandStep s (.dyn imm) (.reg .cratio v)
  | envPush (imm : BitVec 24) (v : Word) : CommandStep s (.env imm) (.envPush v (envCap s.regs.srate))
  | attack (imm : BitVec 24) (v : Word) : CommandStep s (.env imm) (.reg .attack v)
  | trig (imm : BitVec 24) : CommandStep s (.trig imm) (.flag .analyzing true)
  | srst (imm : BitVec 24) {w : WriteStep} (h : w.plain ∈ srstSteps s) : CommandStep s (.srst imm) w
  | wrCtrl (d : Word) : CommandStep s (.wr 0x000002 d) (.ctrl (d.getLsbD 0))
  | wrMode (d : Word) (m : Mode) (h : m ≠ s.mode) : CommandStep s (.wr 0x000003 d) (.mode m)
  | wrModeFill (d : Word) : CommandStep s (.wr 0x000003 d) .clearFill
  | wrModeAnalyzing (d : Word) : CommandStep s (.wr 0x000003 d) (.flag .analyzing false)
  | wrOrder (d : Word) (o : Order) (h : o ≠ s.order) : CommandStep s (.wr 0x000004 d) (.order o)
  | wrOrderFill (d : Word) : CommandStep s (.wr 0x000004 d) .clearFill
  | wrOrderSpectrum (d : Word) : CommandStep s (.wr 0x000004 d) .clearSpectrum
  | wrOrderValid (d : Word) : CommandStep s (.wr 0x000004 d) (.flag .valid false)
  | wrSrate (d : Word) (h : legalRate d = true) : CommandStep s (.wr 0x000007 d) (.reg .srate d)
  | wrTfreq (d v : Word) : CommandStep s (.wr 0x000008 d) (.reg .tfreq v)
  | wrBlklen (d : Word) (h : d.toNat ≤ s.blkMax.val) : CommandStep s (.wr 0x000009 d) (.reg .blklen d)
  | wrStage (addr : BitVec 24) (d : Word) (lo : basePreL ≤ addr.toNat) (hi : addr.toNat < baseMagL) :
    CommandStep s (.wr addr d) (.word addr.toNat d)
  | wrMag (addr : BitVec 24) (d : Word) (lo : baseMagL ≤ addr.toNat) (hi : addr.toNat < basePhL)
      (bin : addr.toNat % 0x10000 < s.bins) : CommandStep s (.wr addr d) (.word addr.toNat d)

/-! ### ACC -/

theorem Order.pow_le (o : Order) : 2 ^ o.val / 2 ≤ 16384 := by
  have h : 2 ^ o.val ≤ 2 ^ 15 := Nat.pow_le_pow_right (by norm_num) o.2.2
  omega

/-- The words of a region are written at consecutive addresses. -/
theorem mem_wordSteps {base : Nat} {ws : List Word} {w : WriteStep} (h : w ∈ wordSteps base ws) :
    ∃ k v, ws[k]? = some v ∧ w = .word (base + k) v := by
  rw [wordSteps, List.mem_map] at h
  obtain ⟨⟨v, k⟩, hm, rfl⟩ := h
  exact ⟨k, v, List.mem_zipIdx_iff_getElem?.1 hm, rfl⟩

theorem applyAll_map_append (pub : Nat) (a b : List WriteStep) (s : State) :
    applyAll ((a ++ b).map (Write.mk pub)) s =
      applyAll (b.map (Write.mk pub)) (applyAll (a.map (Write.mk pub)) s) := by
  rw [List.map_append, applyAll_append]

/-- Writing words to consecutive addresses, step by step. -/
theorem applyAll_wordSteps (pub base : Nat) (ws : List Word) (s : State) :
    applyAll ((wordSteps base ws).map (Write.mk pub)) s = { s with mem := s.mem.writeList base ws } := by
  have key (ws : List Word) (n : Nat) (s : State) :
      applyAll (((ws.zipIdx n).map fun (v, k) => WriteStep.word (base + k) v).map (Write.mk pub)) s =
        { s with mem := s.mem.writeList (base + n) ws } := by
    induction ws generalizing n s with
    | nil => rfl
    | cons w ws ih =>
      rw [List.zipIdx_cons, List.map_cons, List.map_cons, applyAll_cons, ih]
      simp only [WriteStep.apply, Memory.writeList, Nat.add_assoc]
  exact key ws 0 s

/-- What no step of a list of steps changes, the list does not change. -/
theorem applyAll_map_preserves (pub : Nat) {α : Type} (f : State → α) (ws : List WriteStep) (s : State)
    (h : ∀ w ∈ ws, ∀ t, f (w.apply t) = f t) : f (applyAll (ws.map (Write.mk pub)) s) = f s :=
  applyAll_preserves s f _ fun w hw t => by
    obtain ⟨x, hx, rfl⟩ := List.mem_map.1 hw
    exact h x hx t

@[simp] theorem length_magWords (num : Numerics) (windowed : Bool) (block : List Word) (bins : Nat) :
    (magWords num windowed block bins).length = bins := by
  unfold magWords
  split <;> simp

@[simp] theorem length_phWords (num : Numerics) (windowed : Bool) (block : List Word) (bins : Nat) :
    (phWords num windowed block bins).length = bins := by
  unfold phWords
  split <;> simp

theorem mem_spectrumSteps {num : Numerics} {u : AccSetup} {left right : List Word} {w : WriteStep}
    (h : w ∈ spectrumSteps num u left right) :
    ∃ a v, w = .word a v ∧ baseMagL ≤ a ∧ a < baseCons ∧ a % 0x10000 < 2 ^ u.order.val / 2 := by
  have ho := Order.pow_le u.order
  simp only [spectrumSteps, List.mem_append] at h
  rcases h with ((h | h) | h) | h <;>
  · obtain ⟨k, v, hk, rfl⟩ := mem_wordSteps h
    have hk := (List.getElem?_eq_some_iff.1 hk).1
    simp only [length_magWords, length_phWords] at hk
    refine ⟨_, v, rfl, ?_⟩
    simp only [baseMagL, baseMagR, basePhL, basePhR, baseCons]
    omega

theorem mem_distortionSteps {num : Numerics} {o : Order} {srate tfreq : Word} {mags : List Word} {w : WriteStep}
    (h : w ∈ distortionSteps num o srate tfreq mags) : ∃ r v, w = .reg r v ∧ DistortionReg r := by
  unfold distortionSteps at h
  rw [List.mem_cons] at h
  rcases h with rfl | h
  · exact ⟨_, _, rfl, .fbin⟩
  · split at h <;> simp only [harmSteps, List.mem_append, List.mem_cons, List.mem_map, List.not_mem_nil, or_false] at h
    · rcases h with rfl | rfl | rfl | ⟨j, -, rfl⟩
      exacts [⟨_, _, rfl, .thd⟩, ⟨_, _, rfl, .thdn⟩, ⟨_, _, rfl, .hcnt⟩, ⟨_, _, rfl, .harm j⟩]
    · rcases h with ⟨j, -, rfl⟩ | rfl | rfl | rfl
      exacts [⟨_, _, rfl, .harm j⟩, ⟨_, _, rfl, .hcnt⟩, ⟨_, _, rfl, .thd⟩, ⟨_, _, rfl, .thdn⟩]

theorem mem_metricSteps {num : Numerics} {u : AccSetup} {left : List Word} {w : WriteStep}
    (h : w ∈ metricSteps num u left) :
    ∃ r v, w = .reg r v ∧
      ((u.mode = .harmonic ∨ u.mode = .thdSweep) ∧ DistortionReg r ∨ u.mode = .imd ∧ r = .imd ∧ v = 0) := by
  unfold metricSteps at h
  split at h
  · rename_i hm
    obtain ⟨r, v, rfl, hr⟩ := mem_distortionSteps h
    exact ⟨r, v, rfl, .inl ⟨.inl hm, hr⟩⟩
  · rename_i hm
    obtain ⟨r, v, rfl, hr⟩ := mem_distortionSteps h
    exact ⟨r, v, rfl, .inl ⟨.inr hm, hr⟩⟩
  · rename_i hm
    rw [List.mem_singleton] at h
    exact ⟨_, _, h, .inr ⟨hm, rfl, rfl⟩⟩
  all_goals exact absurd h List.not_mem_nil

theorem mem_publicationSteps {num : Numerics} {u : AccSetup} {seq : Word} {samples : List (Word × Word)}
    {w : WriteStep} (h : w ∈ publicationSteps num u seq samples) : AccStep u.mode (2 ^ u.order.val / 2) w := by
  simp only [publicationSteps, List.mem_append, List.mem_cons, List.not_mem_nil, or_false] at h
  rcases h with (((h | rfl) | h) | h) | rfl | rfl
  · obtain ⟨a, v, rfl, lo, hi, bin⟩ := mem_spectrumSteps h
    exact .word v lo hi bin
  · exact .valid
  · split at h
    · rename_i hm
      rw [List.mem_singleton] at h
      subst h
      exact .analyzing hm
    · exact absurd h List.not_mem_nil
  · obtain ⟨r, v, rfl, ⟨hm, hr⟩ | ⟨hm, rfl, rfl⟩⟩ := mem_metricSteps h
    · exact .metric v hm hr
    · exact .imd hm
  · exact .seq _
  · exact .ready

theorem mem_accPasses {num : Numerics} {u : AccSetup} {fuel pub : Nat} {acc xs : List (Word × Word)}
    {analyzing : Bool} {seq : Word} {w : Write} (h : w ∈ accPasses num u fuel pub acc xs analyzing seq) :
    AccStep u.mode (2 ^ u.order.val / 2) w.step := by
  induction fuel generalizing pub acc xs analyzing seq with
  | zero => exact absurd h List.not_mem_nil
  | succ fuel ih =>
    unfold accPasses at h
    split at h
    · exact absurd h List.not_mem_nil
    · dsimp only at h
      split at h
      · rw [List.mem_append, List.mem_map, List.mem_cons] at h
        rcases h with ⟨x, hx, rfl⟩ | rfl | h
        · exact mem_publicationSteps hx
        · exact .clearFill
        · exact ih h
      · rw [List.mem_cons] at h
        rcases h with rfl | h
        · exact .accept _
        · exact ih h

/-- Every write step of an ACC (rules R180 to R193). -/
theorem mem_accSteps {num : Numerics} {s : State} {w : Write} (h : w ∈ accSteps num s) :
    AccStep s.mode s.bins w.step := mem_accPasses h

/-! ### Every bracketed command -/

theorem mem_ratioSteps {series : List (Word × Word)} {w : WriteStep} (h : w ∈ ratioSteps series) :
    ∃ v, w = .reg .cratio v := by
  unfold ratioSteps at h
  split at h
  · exact absurd h List.not_mem_nil
  · split at h
    · dsimp only at h
      split at h
      · exact ⟨_, List.mem_singleton.1 h⟩
      · exact absurd h List.not_mem_nil
    · exact absurd h List.not_mem_nil

theorem mem_attackSteps {srate : Word} {series : List Word} {w : WriteStep} (h : w ∈ attackSteps srate series) :
    ∃ v, w = .reg .attack v := by
  unfold attackSteps at h
  split at h
  · exact absurd h List.not_mem_nil
  · dsimp only at h
    split at h
    · exact ⟨_, List.mem_singleton.1 h⟩
    · exact absurd h List.not_mem_nil

theorem toNat_eq_addr {addr : BitVec 24} {n : Nat} (h : addr.toNat = n) (hn : n < 2 ^ 24) :
    addr = BitVec.ofNat 24 n := BitVec.eq_of_toNat_eq (by rw [BitVec.toNat_ofNat, Nat.mod_eq_of_lt hn, h])

/-- The index of a register. -/
theorem Register.ofIndex_some {n : Nat} {r : Register} (h : Register.ofIndex n = some r) (hw : r.writable = true) :
    (n = 1 ∧ r = .status) ∨ (n = 2 ∧ r = .ctrl) ∨ (n = 3 ∧ r = .mode) ∨ (n = 4 ∧ r = .order) ∨ (n = 7 ∧ r = .srate) ∨
      (n = 8 ∧ r = .tfreq) ∨ (n = 9 ∧ r = .blklen) := by
  unfold Register.ofIndex at h
  split at h <;> cases h <;> simp [Register.writable] at hw ⊢

theorem mem_wrSteps {s : State} {addr : BitVec 24} {d : Word} (hc : checkAccess s .write addr = .ok)
    (ha : addr ≠ statusAddr) {w : Write} (h : w ∈ wrSteps addr d s) :
    CommandStep s (.wr addr d) w.step := by
  obtain ⟨region, hr, hf, hb, hw⟩ := checkAccess_ok hc
  have hn := regionOf_some hr
  have hw := hw rfl
  have hlt := addr.isLt
  have ho := Order.pow_le s.order
  rw [indexOf_eq] at hb hw
  unfold wrSteps at h
  rw [hr] at h
  cases region <;> simp only [Region.number, readOnlyWord, Bool.true_eq_false, List.mem_singleton] at hw h hn
  case regs =>
    rw [indexOf_eq] at h
    cases hreg : Register.ofIndex (addr.toNat % 0x10000) with
    | none => simp [hreg] at hw
    | some r =>
      simp only [hreg, Bool.not_eq_false'] at hw h
      have hm : addr.toNat % 0x10000 = addr.toNat := by omega
      rw [hm] at hreg
      rcases Register.ofIndex_some hreg hw with ⟨e, rfl⟩ | ⟨e, rfl⟩ | ⟨e, rfl⟩ | ⟨e, rfl⟩ | ⟨e, rfl⟩ | ⟨e, rfl⟩ | ⟨e, rfl⟩ <;>
        obtain rfl := toNat_eq_addr e (by norm_num) <;> simp only [regWriteSteps] at h
      · exact absurd rfl ha
      · rw [List.mem_singleton] at h
        subst h
        exact .wrCtrl d
      · split at h
        · rename_i m _
          unfold setModeSteps at h
          split at h
          · exact absurd h List.not_mem_nil
          · rename_i hne
            simp only [List.mem_cons, List.not_mem_nil, or_false] at h
            rcases h with rfl | rfl | rfl
            exacts [.wrMode d m hne, .wrModeFill d, .wrModeAnalyzing d]
        · exact absurd h List.not_mem_nil
      · split at h
        · rename_i o _
          unfold resizeSteps at h
          split at h
          · exact absurd h List.not_mem_nil
          · rename_i hne
            simp only [List.mem_cons, List.not_mem_nil, or_false] at h
            rcases h with rfl | rfl | rfl | rfl
            exacts [.wrOrder d o hne, .wrOrderFill d, .wrOrderSpectrum d, .wrOrderValid d]
        · exact absurd h List.not_mem_nil
      · split at h
        · rename_i hl
          rw [List.mem_singleton] at h
          subst h
          exact .wrSrate d hl
        · exact absurd h List.not_mem_nil
      · obtain ⟨x, hx, rfl⟩ := List.mem_map.1 h
        unfold tfreqSteps at hx
        split at hx
        · exact absurd hx List.not_mem_nil
        · split at hx
          · obtain rfl := List.mem_singleton.1 hx
            exact .wrTfreq d _
          · split at hx
            · obtain rfl := List.mem_singleton.1 hx
              exact .wrTfreq d _
            · obtain rfl := List.mem_singleton.1 hx
              exact .wrTfreq d _
      · split at h
        · rename_i hl
          rw [List.mem_singleton] at h
          subst h
          exact .wrBlklen d hl
        · exact absurd h List.not_mem_nil
  case preL | postL | postR =>
    subst h
    exact .wrStage addr d (by simp only [basePreL]; omega) (by simp only [baseMagL]; omega)
  case magL | magR =>
    subst h
    exact .wrMag addr d (by simp only [baseMagL]; omega) (by simp only [basePhL]; omega) hb

/-- Every write step of a bracketed command (rule R91). -/
theorem commandStep_of_mem {s : State} {i : Instr} {ws : List Write}
    (h : bracketed i s = some ws) {w : Write} (hw : w ∈ ws) : CommandStep s i w.step := by
  cases i <;> simp only [bracketed, Option.some.injEq, reduceCtorEq] at h
  case wr addr d =>
    split at h
    · rename_i hc
      cases h
      exact mem_wrSteps hc.1 hc.2 hw
    · cases h
  case acc imm =>
    subst h
    exact .acc imm (mem_accSteps hw)
  case dyn imm =>
    subst h
    unfold dynSteps at hw
    dsimp only at hw
    split at hw
    · exact absurd hw List.not_mem_nil
    · obtain ⟨x, hx, rfl⟩ := List.mem_map.1 hw
      simp only [List.mem_cons] at hx
      rcases hx with rfl | rfl | rfl | hx
      · exact .dynPush imm _
      · exact .dynIn imm _
      · exact .dynOut imm _
      · obtain ⟨v, rfl⟩ := mem_ratioSteps hx
        exact .cratio imm v
  case env imm =>
    subst h
    unfold envSteps at hw
    dsimp only at hw
    split at hw
    · exact absurd hw List.not_mem_nil
    · obtain ⟨x, hx, rfl⟩ := List.mem_map.1 hw
      rw [List.mem_append, List.mem_map] at hx
      rcases hx with ⟨v, -, rfl⟩ | hx
      · exact .envPush imm v
      · obtain ⟨v, rfl⟩ := mem_attackSteps hx
        exact .attack imm v
  case thd imm =>
    subst h
    obtain ⟨x, hx, rfl⟩ := List.mem_map.1 hw
    obtain ⟨r, v, rfl, hr⟩ := mem_distortionSteps hx
    exact .thd imm v hr
  case trig imm =>
    subst h
    rw [trigSteps, List.mem_singleton] at hw
    subst hw
    exact .trig imm
  case srst imm =>
    subst h
    have e : w.step.plain = w := by
      obtain ⟨x, -, rfl⟩ := List.mem_map.1 hw
      rfl
    exact .srst imm (by rw [e]; exact hw)

/-- The steps of a soft reset (rule R293). -/
theorem mem_srstSteps {s : State} {w : WriteStep} (h : w.plain ∈ srstSteps s) :
    w = .clearStatus ∨ w = .ctrl false ∨ w = .mode .linear ∨ w = .order Order.reset ∨ w = .clearSpectrum ∨
      w = .clearFill ∨ w = .clearDyn ∨ w = .clearEnv ∨ w = .clearFifo ∨ ∃ r v, w = .reg r v := by
  obtain ⟨x, hx, he⟩ := List.mem_map.1 h
  have : x = w := congrArg Write.step he
  subst this
  simp only [resetRegSteps, resetWordSteps, harmSteps, resetDynSteps, List.mem_cons,
    List.mem_append, List.mem_map, List.not_mem_nil, or_false] at hx
  rcases hx with rfl | rfl | rfl | rfl | rfl | rfl | rfl | rfl | rfl | hx
  iterate 9 simp
  rcases hx with ((rfl | rfl | rfl | rfl | rfl | rfl | rfl | rfl | rfl) | ⟨j, -, rfl⟩) | rfl | rfl | rfl | rfl | rfl <;>
    simp

/-- The write steps to RAM are to words the RAM has. -/
theorem inRam_of_mem {s : State} {i : Instr} {ws : List Write}
    (h : bracketed i s = some ws) {w : Write} (hw : w ∈ ws) : w.inRam = true := by
  have ho := Order.pow_le s.order
  have hc := commandStep_of_mem h hw
  obtain ⟨pub, w⟩ := w
  have spec {a : Nat} (lo : baseMagL ≤ a) (hi : a < baseCons) (bin : a % 0x10000 < s.bins) :
      hasSpectrumWord a = true := by
    simp only [hasSpectrumWord, isSpectrum, Bool.and_eq_true, decide_eq_true_eq, Config.binsMax]
    simp only [State.bins, State.nsize] at bin
    exact ⟨⟨lo, hi⟩, by omega⟩
  cases hc <;> try rfl
  case acc h =>
    cases h <;> try rfl
    case word a v lo hi bin => simp only [Write.inRam, spec lo hi bin, Bool.or_true]
  case srst h =>
    rcases mem_srstSteps h with rfl | rfl | rfl | rfl | rfl | rfl | rfl | rfl | rfl | ⟨r, v, rfl⟩ <;> rfl
  case wrStage addr d lo hi =>
    simp only [Write.inRam, isPlainRam, Bool.or_eq_true, Bool.and_eq_true, decide_eq_true_eq]
    exact .inl (.inl ⟨lo, hi⟩)
  case wrMag addr d lo hi bin =>
    have hi' : addr.toNat < baseCons := Nat.lt_trans hi (by decide)
    simp only [Write.inRam, spec lo hi' bin, Bool.or_true]

/-- What no step of a bracketed command changes, nor GEN and the response, the command does not change. -/
theorem bracket_preserves {s : State} {i : Instr} {ws : List Write} (h : bracketed i s = some ws) {α : Type}
    (f : State → α) (hf : ∀ w, CommandStep s i w → ∀ t, f (w.apply t) = f t)
    (hg : ∀ t g, f { t with gen := g } = f t) (hr : ∀ t code data, f (respond code data t) = f t) :
    f (bracket ws s) = f s := by
  rw [bracket_eq, hr, hg]
  exact applyAll_preserves s f ws fun w hw t => hf _ (commandStep_of_mem h hw) t

end Sys2Proof.Machine
end

