-- ==== Sys2Proof/Laws/Decode.lean ====
section
/-! SUPPORT. The fields of a command word, and which opcodes name a command. -/

namespace Sys2Proof

theorem getLsbD_firstWord (opc : BitVec 8) (imm : BitVec 24) (k : Nat) :
    (firstWord opc imm).getLsbD k = if k < 24 then imm.getLsbD k else opc.getLsbD (k - 24) := by
  have h := @BitVec.getLsbD_append 8 24 k opc imm
  rw [show firstWord opc imm = (opc ++ imm : BitVec 32) from rfl]
  refine h.trans ?_
  by_cases hk : k < 24 <;> simp [hk]

theorem opcodeOf_firstWord (opc : BitVec 8) (imm : BitVec 24) : opcodeOf (firstWord opc imm) = opc := by
  refine BitVec.eq_of_getLsbD_eq fun k hk => ?_
  rw [opcodeOf, BitVec.getLsbD_extractLsb', getLsbD_firstWord]
  simp [hk]

theorem immOf_firstWord (opc : BitVec 8) (imm : BitVec 24) : immOf (firstWord opc imm) = imm := by
  refine BitVec.eq_of_getLsbD_eq fun k hk => ?_
  rw [immOf, BitVec.getLsbD_extractLsb', getLsbD_firstWord]
  simp [hk]

/-- A word is its opcode and its immediate (rule R110). -/
theorem firstWord_opcodeOf_immOf (w : Word) : firstWord (opcodeOf w) (immOf w) = w := by
  refine BitVec.eq_of_getLsbD_eq fun k hk => ?_
  rw [getLsbD_firstWord, opcodeOf, immOf, BitVec.getLsbD_extractLsb', BitVec.getLsbD_extractLsb']
  by_cases h : k < 24
  · simp [h]
  · have h2 : 24 + (k - 24) = k := by omega
    have h3 : k - 24 < 8 := by omega
    simp [h, h2, h3]

/-- A one-word command's words are the word it was decoded from. -/
theorem encode_decodeOneWord {opc : BitVec 8} {imm : BitVec 24} {i : Instr} (h : decodeOneWord opc imm = some i) :
    encode i = [firstWord opc imm] := by
  have ho : opc = BitVec.ofNat 8 opc.toNat := by simp
  unfold decodeOneWord at h
  split at h <;> first | (rename_i e; rw [e] at ho; cases h; rw [ho]; rfl) | cases h

/-- The reserved opcodes of rule R116 name no one-word command. -/
theorem decodeOneWord_reserved {opc : BitVec 8} (imm : BitVec 24)
    (h : 0x03 ≤ opc.toNat ∧ opc.toNat ≤ 0x0F ∨ 0x16 ≤ opc.toNat ∧ opc.toNat ≤ 0x1E ∨ 0x21 ≤ opc.toNat) :
    decodeOneWord opc imm = none := by
  unfold decodeOneWord
  split <;> first | rfl | omega

end Sys2Proof
end

