-- ==== Sys2Proof/Laws/Fifo.lean ====
section
/-! SUPPORT. The FIFO's storage: which slots a store fills, that the slots stay in canonical form, and what a push and a pop do. -/

namespace Sys2Proof.Machine

/-- Slots at different distances below the capacity from a cursor are different. -/
theorem slot_inj {cap at_ j k : Nat} (hj : j < cap) (hk : k < cap) (h : (at_ + j) % cap = (at_ + k) % cap) : j = k := by
  have h' : j % cap = k % cap := Nat.ModEq.add_left_cancel' at_ h
  rwa [Nat.mod_eq_of_lt hj, Nat.mod_eq_of_lt hk] at h'

/-- A slot that no stored word goes to is as before. -/
theorem cellsGet_storeSlots_other {cap : Nat} (xs : List Word) (slots : List Cell) (at_ i : Nat)
    (h : ∀ j < xs.length, (at_ + j) % cap ≠ i) : cellsGet (storeSlots cap slots at_ xs) i = cellsGet slots i := by
  induction xs generalizing slots at_ with
  | nil => rfl
  | cons x xs ih =>
    have h0 := h 0 (by simp)
    rw [storeSlots, ih _ _ fun j hj => ?_, cellsGet_put, if_neg fun e => h0 e.symm]
    rw [Nat.add_assoc, Nat.add_comm 1]
    exact h (j + 1) (by simpa using hj)

/-- Of at most C words stored from a cursor, word `j` is in the slot at distance `j`. -/
theorem cellsGet_storeSlots_self {cap : Nat} (xs : List Word) (slots : List Cell) (at_ j : Nat)
    (hl : xs.length ≤ cap) (hj : j < xs.length) :
    cellsGet (storeSlots cap slots at_ xs) ((at_ + j) % cap) = xs[j]? := by
  induction xs generalizing slots at_ j with
  | nil => simp at hj
  | cons x xs ih =>
    simp only [List.length_cons] at hl hj
    rw [storeSlots]
    cases j with
    | zero =>
      rw [cellsGet_storeSlots_other _ _ _ _ fun k hk e => ?_, Nat.add_zero, cellsGet_put, if_pos rfl,
        List.getElem?_cons_zero]
      rw [Nat.add_assoc] at e
      have := slot_inj (by omega) (by omega) e
      omega
    | succ j =>
      rw [show at_ + (j + 1) = at_ + 1 + j by omega, ih _ _ j (by omega) (by omega), List.getElem?_cons_succ]

theorem cellsSorted_storeSlots {cap : Nat} {slots : List Cell} (h : cellsSorted slots = true) (at_ : Nat)
    (xs : List Word) : cellsSorted (storeSlots cap slots at_ xs) = true := by
  induction xs generalizing slots at_ with
  | nil => exact h
  | cons x xs ih => exact ih (cellsSorted_put h _ _) _

theorem storeSlots_inRange {cap : Nat} (hc : 0 < cap) {slots : List Cell} (h : ∀ c ∈ slots, c.1 < cap) (at_ : Nat)
    (xs : List Word) : ∀ c ∈ storeSlots cap slots at_ xs, c.1 < cap := by
  induction xs generalizing slots at_ with
  | nil => exact h
  | cons x xs ih =>
    refine ih (fun c hm => ?_) _
    rcases mem_cellsPut hm with e | hm
    · rw [e]
      exact Nat.mod_lt _ hc
    · exact h c hm

@[simp] theorem Fifo.length_queue (f : Fifo) (cap : Nat) : (f.queue cap).length = f.count := by simp [Fifo.queue]

theorem Fifo.queue_getElem? (f : Fifo) (cap : Nat) {j : Nat} (h : j < f.count) :
    (f.queue cap)[j]? = some (f.slot ((f.rd + j) % cap)) := by simp [Fifo.queue, h]

/-- The empty FIFO is in order (rule R350). -/
theorem FifoOk.reset {cap : Nat} (h : 0 < cap) : FifoOk cap Fifo.reset :=
  ⟨h, by simp [Fifo.reset], by simp [Fifo.reset], rfl, by simp [Fifo.reset], by simp [Fifo.reset]⟩

/-- SRST's reset of the cursors and the count keeps the FIFO in order (rule R293). -/
theorem FifoOk.clear {cap : Nat} {f : Fifo} (h : FifoOk cap f) :
    FifoOk cap { f with rd := 0, wr := 0, count := 0 } :=
  ⟨by have := h.rd; simp only; omega, by simp, by simp, h.sorted, h.inRange, by simp⟩

/-- What a push does (rules R261, R262): what fits is appended, and the FIFO stays in order. -/
theorem Fifo.push_spec {cap : Nat} {f : Fifo} (h : FifoOk cap f) (xs : List Word) :
    (f.push cap xs).queue cap = f.queue cap ++ xs.take (cap - f.count) ∧
      (f.push cap xs).count = f.count + min xs.length (cap - f.count) ∧ FifoOk cap (f.push cap xs) := by
  have hrd := h.rd
  have hcnt := h.count
  have hlen : (xs.take (cap - f.count)).length = min (cap - f.count) xs.length := by simp
  have hg : ∀ j < f.count, cellsGet (storeSlots cap f.slots f.wr (xs.take (cap - f.count))) ((f.rd + j) % cap) =
      cellsGet f.slots ((f.rd + j) % cap) := by
    intro j hj
    refine cellsGet_storeSlots_other _ _ _ _ fun k hk e => ?_
    rw [h.wr, Nat.mod_add_mod, Nat.add_assoc] at e
    have := slot_inj (by omega) (by omega) e
    omega
  have hn : ∀ j, j < (xs.take (cap - f.count)).length →
      cellsGet (storeSlots cap f.slots f.wr (xs.take (cap - f.count))) ((f.rd + (f.count + j)) % cap) =
        (xs.take (cap - f.count))[j]? := by
    intro j hj
    rw [← cellsGet_storeSlots_self (cap := cap) (xs.take (cap - f.count)) f.slots f.wr j (by omega) hj, h.wr,
      Nat.mod_add_mod, Nat.add_assoc]
  refine ⟨?_, by simp [Fifo.push, Nat.min_comm], ?_⟩
  · refine List.ext_getElem? fun j => ?_
    by_cases hj : j < f.count
    · rw [List.getElem?_append_left (by simpa using hj), Fifo.queue_getElem? _ _ hj,
        Fifo.queue_getElem? _ _ (by simp only [Fifo.push]; omega)]
      simp only [Fifo.push, Fifo.slot, hg j hj]
    · rw [List.getElem?_append_right (by simp; omega), Fifo.length_queue]
      by_cases hk : j - f.count < (xs.take (cap - f.count)).length
      · rw [Fifo.queue_getElem? _ _ (by simp only [Fifo.push]; omega)]
        have := hn _ hk
        rw [show f.count + (j - f.count) = j by omega] at this
        simp only [Fifo.push, Fifo.slot, this]
        rw [List.getElem?_eq_getElem hk]
        rfl
      · rw [List.getElem?_eq_none (by simp only [Fifo.length_queue, Fifo.push]; omega),
          List.getElem?_eq_none (by omega)]
  · refine ⟨hrd, ?_, ?_, cellsSorted_storeSlots h.sorted _ _, storeSlots_inRange (by omega) h.inRange _ _, ?_⟩
    · simp only [Fifo.push]
      rw [h.wr, Nat.mod_add_mod, Nat.add_assoc]
    · simp only [Fifo.push]
      omega
    · intro j hj
      simp only [Fifo.push] at hj ⊢
      by_cases hj' : j < f.count
      · rw [hg j hj']
        exact h.written j hj'
      · have := hn (j - f.count) (by omega)
        rw [show f.count + (j - f.count) = j by omega] at this
        rw [this, List.getElem?_eq_getElem (by omega)]
        rfl

/-- What a pop does (rule R263): the oldest words leave, and the FIFO stays in order. -/
theorem Fifo.pop_spec {cap : Nat} {f : Fifo} (h : FifoOk cap f) {n : Nat} (hn : n ≤ f.count) :
    (f.pop cap n).queue cap = (f.queue cap).drop n ∧ FifoOk cap (f.pop cap n) := by
  have hrd := h.rd
  constructor
  · refine List.ext_getElem? fun j => ?_
    rw [List.getElem?_drop]
    by_cases hj : n + j < f.count
    · rw [Fifo.queue_getElem? _ _ hj, Fifo.queue_getElem? _ _ (by simp only [Fifo.pop]; omega)]
      simp only [Fifo.pop, Fifo.slot]
      rw [Nat.mod_add_mod, Nat.add_assoc]
    · rw [List.getElem?_eq_none (by simp only [Fifo.length_queue, Fifo.pop]; omega),
        List.getElem?_eq_none (by simp; omega)]
  · refine ⟨Nat.mod_lt _ (by omega), ?_, ?_, h.sorted, h.inRange, ?_⟩
    · simp only [Fifo.pop]
      rw [h.wr, Nat.mod_add_mod]
      congr 1
      omega
    · simp only [Fifo.pop]
      have := h.count
      omega
    · intro j hj
      simp only [Fifo.pop] at hj ⊢
      rw [Nat.mod_add_mod, Nat.add_assoc]
      exact h.written _ (by omega)

end Sys2Proof.Machine
end

