-- ==== Sys2Proof/Laws/Numerics.lean ====
section
/-! SUPPORT. What the numerics of the block are: they conform (rule R12), for every choice of the OPEN parameters some numerics
conform, and in `reference` mode every result has an admissible word, the rounded ideal. -/

open Sys2Proof.Machine.Ideal

namespace Sys2Proof.Machine

/-! ### Values of the named patterns -/

theorem f32Real_magFloor : f32Real Config.magFloor = -120 := by
  simpa using f32Real_of_int (w := Config.magFloor) (n := -120) (by decide +kernel)

theorem f32Real_dynFloor : f32Real Config.dynFloor = -100 := by
  simpa using f32Real_of_int (w := Config.dynFloor) (n := -100) (by decide +kernel)

theorem f32Real_le_of_int {v w : Word} (h : f32Int v ≤ f32Int w) : f32Real v ≤ f32Real w :=
  div_le_div_of_nonneg_right (by exact_mod_cast h) (by positivity)

theorem aboveDynFloor_ge : -100 ≤ f32Real aboveDynFloor :=
  f32Real_dynFloor ▸ f32Real_le_of_int (by decide +kernel)

theorem f32Real_f32Max_nonneg : 0 ≤ f32Real f32Max := by
  have h : f32Real 0 ≤ f32Real f32Max := f32Real_le_of_int (by decide +kernel)
  simpa [f32Real, f32Int, f32Mag, f32Exp, f32Frac] using h

theorem pi_le_f32Pi : Real.pi ≤ f32Real f32Pi := by
  have h : f32Real f32Pi = 13176795 / 2 ^ 22 := by
    rw [f32Real, show f32Int f32Pi = 13176795 * 2 ^ 127 by decide +kernel, Int.cast_mul, Int.cast_pow,
      show (2 : ℝ) ^ 149 = 2 ^ 22 * 2 ^ 127 by rw [← pow_add], Int.cast_ofNat, Int.cast_ofNat]
    exact mul_div_mul_right _ _ (by positivity)
  rw [h]
  have := Real.pi_lt_d20
  norm_num at this ⊢
  linarith

/-! ### The power sums -/

theorem g_pos (levels : List Word) (i : ℕ) : 0 < g levels i := Real.rpow_pos_of_pos (by norm_num) _

theorem harmonicPower_nonneg (levels : List Word) (fb : ℕ) : 0 ≤ harmonicPower levels fb :=
  Finset.sum_nonneg fun _ _ => sq_nonneg _

theorem noisePower_nonneg (levels : List Word) (fb : ℕ) : 0 ≤ noisePower levels fb :=
  Finset.sum_nonneg fun _ _ => sq_nonneg _

theorem harmonicPower_eq_zero_iff {levels : List Word} {fb : ℕ} :
    harmonicPower levels fb = 0 ↔ noHarmonics levels.length fb = true := by
  rw [harmonicPower, Finset.sum_eq_zero_iff_of_nonneg fun _ _ => sq_nonneg _, noHarmonics, decide_eq_true_iff]
  constructor
  · intro h
    by_contra hlt
    exact (pow_pos (g_pos levels (2 * fb)) 2).ne' (h 2 (by simpa using hlt))
  · intro h i hi
    simp only [Finset.mem_filter, Finset.mem_Icc] at hi
    have := Nat.mul_le_mul_right fb hi.1.1
    omega

theorem noisePower_eq_zero_iff {levels : List Word} {fb : ℕ} (h1 : 1 ≤ fb) (hlt : fb < levels.length) :
    noisePower levels fb = 0 ↔ noNoise fb = true := by
  rw [noisePower, Finset.sum_eq_zero_iff_of_nonneg fun _ _ => sq_nonneg _, noNoise, beq_iff_eq]
  constructor
  · intro h
    by_contra hne
    refine (pow_pos (g_pos levels 1) 2).ne' (h 1 ?_)
    simp only [Finset.mem_filter, Finset.mem_Ico]
    exact ⟨⟨le_rfl, by omega⟩, by rw [Nat.mod_eq_of_lt (by omega)]; exact one_ne_zero⟩
  · rintro rfl i hi
    simp [Nat.mod_one] at hi

theorem powers_eq_zero_iff {levels : List Word} {fb : ℕ} (h1 : 1 ≤ fb) (hlt : fb < levels.length) :
    harmonicPower levels fb + noisePower levels fb = 0 ↔ (noHarmonics levels.length fb && noNoise fb) = true := by
  rw [add_eq_zero_iff_of_nonneg (harmonicPower_nonneg _ _) (noisePower_nonneg _ _), harmonicPower_eq_zero_iff,
    noisePower_eq_zero_iff h1 hlt, Bool.and_eq_true]

/-- A percentage is 0 where its power sum is. -/
theorem percent_eq_zero {power x : ℝ} (h : power = 0) : 100 * Real.sqrt power / x = 0 := by
  rw [h, Real.sqrt_zero, mul_zero, zero_div]

/-! ### The loosest numerics conform -/

/-- A tolerance without a bound admits every error. -/
theorem within_none (error size : ℝ) : Within none error size := fun _ h => nomatch h

theorem loose_percentOk {power x : ℝ} {b : Bool} (h : power = 0 ↔ b = true) :
    PercentOk looseNumerics power (100 * Real.sqrt power / x) (if b then 0 else f32Max) := by
  cases b <;> simp only [Bool.false_eq_true, if_false, if_true, iff_true, iff_false] at h ⊢
  · refine ⟨by decide, ⟨fun h0 => absurd h0 (by decide), fun h0 => absurd h0 h⟩, ?_⟩
    split
    exacts [rfl, within_none _ _]
  · refine ⟨by decide, ⟨fun _ => h, fun _ => rfl⟩, ?_⟩
    rw [percent_eq_zero h, if_neg (not_lt.2 f32Real_f32Max_nonneg)]
    exact within_none _ _

theorem loose_magOk (block : List Word) (windowed : Bool) (k : ℕ) (key : List Word) :
    MagOk looseNumerics block windowed k (looseNumerics.mag key windowed k) :=
  ⟨show f32IsFinite Config.magFloor = true by decide,
    by rw [show looseNumerics.mag _ _ _ = Config.magFloor from rfl, f32Real_magFloor], fun _ => rfl,
    .inr (within_none _ _)⟩

theorem loose_phOk (block : List Word) (windowed : Bool) (k : ℕ) (key : List Word) :
    PhOk looseNumerics block windowed k (looseNumerics.ph key windowed k) := by
  refine ⟨show f32IsFinite 0 = true by decide, ?_, fun _ => rfl, .inr fun _ => ⟨0, within_none _ _⟩⟩
  rw [show looseNumerics.ph _ _ _ = 0 from rfl]
  simpa [f32Real, f32Int, f32Mag, f32Exp, f32Frac] using Real.pi_pos.le.trans pi_le_f32Pi

theorem loose_thdOk (levels : List Word) (fb : ℕ) : ThdValueOk looseNumerics levels fb (looseNumerics.thd levels fb) :=
  loose_percentOk harmonicPower_eq_zero_iff

theorem loose_thdnOk {levels : List Word} {fb : ℕ} (h1 : 1 ≤ fb) (hlt : fb < levels.length) :
    ThdnValueOk looseNumerics levels fb (looseNumerics.thdn levels fb) :=
  loose_percentOk (powers_eq_zero_iff h1 hlt)

theorem loose_rmsOk (samples : List Word) : RmsOk looseNumerics samples (looseNumerics.rmsDb samples) := by
  show RmsOk looseNumerics samples (if samples.all f32IsZero then Config.dynFloor else aboveDynFloor)
  by_cases h : samples.all f32IsZero
  · rw [if_pos h]
    exact ⟨by decide, by rw [f32Real_dynFloor], ⟨fun _ => List.all_eq_true.1 h, fun _ => rfl⟩, within_none _ _⟩
  · rw [if_neg h]
    exact ⟨by decide, aboveDynFloor_ge, ⟨fun h0 => absurd h0 (by decide), fun h0 => absurd (List.all_eq_true.2 h0) h⟩,
      within_none _ _⟩

theorem looseNumerics_conforms : Conforms looseNumerics where
  magInputs _ _ _ _ _ _ _ := rfl
  phInputs _ _ _ _ _ _ _ := rfl
  mag block windowed k _ _ _ := loose_magOk block windowed k _
  ph block windowed k _ _ _ := loose_phOk block windowed k _
  thd levels fb _ _ _ := loose_thdOk levels fb
  thdn _ _ h1 hlt _ := loose_thdnOk h1 hlt
  rmsDb samples _ _ _ := loose_rmsOk samples

/-- Conforming numerics conform. -/
theorem ConformingNumerics.conforms (c : ConformingNumerics) : Conforms c.numerics := by
  cases c with
  | loose => exact looseNumerics_conforms
  | of num h => exact h

/-- The numerics of this block conform (rule R12). -/
theorem config_numerics_conform : Conforms Config.numerics := Config.conformingNumerics.conforms

/-! ### In reference mode every result has an admissible word -/

theorem toDb_ge (m floor : ℝ) : floor ≤ toDb m floor := by
  rw [toDb]
  split
  exacts [le_rfl, le_max_left _ _]

theorem toDb_le {m floor : ℝ} {k : ℕ} (h0 : 0 ≤ m) (h : m ≤ 2 ^ k) (hf : floor ≤ 0) : toDb m floor ≤ 20 * k := by
  have hk : (0 : ℝ) ≤ 20 * k := by positivity
  rw [toDb]
  split
  · exact hf.trans hk
  · rename_i hne
    refine max_le (hf.trans hk) (mul_le_mul_of_nonneg_left ?_ (by norm_num))
    have hpos : 0 < m := lt_of_le_of_ne h0 (Ne.symm hne)
    rw [Real.logb_le_iff_le_rpow (by norm_num) hpos, Real.rpow_natCast]
    exact h.trans (pow_le_pow_left₀ (by norm_num) (by norm_num) k)

theorem hann_mem (len n : ℕ) : 0 ≤ hann len n ∧ hann len n ≤ 1 := by
  rw [hann]
  constructor <;> linarith [Real.cos_le_one (2 * Real.pi * n / ((len : ℝ) - 1)),
    Real.neg_one_le_cos (2 * Real.pi * n / ((len : ℝ) - 1))]

theorem finite_getD {block : List Word} (h : degenerate block = false) (n : ℕ) : f32IsFinite (block.getD n 0) = true := by
  rw [degenerate, List.any_eq_false] at h
  rcases Nat.lt_or_ge n block.length with hn | hn
  · rw [List.getD_eq_getElem _ _ hn]
    simpa using h _ (List.getElem_mem hn)
  · rw [List.getD_eq_default _ _ hn]
    decide

theorem abs_working_le {block : List Word} (h : degenerate block = false) (windowed : Bool) (n : ℕ) :
    |working block windowed n| ≤ 2 ^ 128 := by
  have hw : |if windowed = true then hann block.length n else 1| ≤ 1 := by
    split
    · exact abs_le.2 ⟨by linarith [(hann_mem block.length n).1], (hann_mem block.length n).2⟩
    · norm_num
  rw [working, abs_mul]
  calc |f32Real (block.getD n 0)| * _ ≤ 2 ^ 128 * 1 :=
        mul_le_mul (abs_f32Real_lt (finite_getD h n)).le hw (abs_nonneg _) (by positivity)
    _ = 2 ^ 128 := mul_one _

/-- A sum over a block of at most N_MAX working values, each times a factor of magnitude at most 1. -/
theorem abs_sum_le {block : List Word} (h : degenerate block = false) (hlen : block.length ≤ 2 ^ 15) (windowed : Bool)
    {f : ℕ → ℝ} (hf : ∀ n, |f n| ≤ 1) :
    |∑ n ∈ Finset.range block.length, working block windowed n * f n| ≤ 2 ^ 143 := by
  have hlen' : (block.length : ℝ) ≤ 2 ^ 15 := by exact_mod_cast hlen
  calc _ ≤ ∑ n ∈ Finset.range block.length, |working block windowed n * f n| := Finset.abs_sum_le_sum_abs _ _
    _ ≤ ∑ _n ∈ Finset.range block.length, (2 : ℝ) ^ 128 := Finset.sum_le_sum fun n _ => by
        rw [abs_mul]
        calc _ ≤ (2 : ℝ) ^ 128 * 1 := mul_le_mul (abs_working_le h windowed n) (hf n) (abs_nonneg _) (by positivity)
          _ = 2 ^ 128 := mul_one _
    _ = block.length * 2 ^ 128 := by rw [Finset.sum_const, Finset.card_range, nsmul_eq_mul]
    _ ≤ 2 ^ 15 * 2 ^ 128 := mul_le_mul_of_nonneg_right hlen' (by positivity)
    _ = 2 ^ 143 := by rw [← pow_add]

theorem magDb_mem {block : List Word} (h : degenerate block = false) (hlen : block.length ≤ 2 ^ 15) (windowed : Bool)
    (k : ℕ) : -120 ≤ magDb block windowed k ∧ magDb block windowed k ≤ 2880 := by
  refine ⟨toDb_ge _ _, ?_⟩
  have hre (k : ℕ) : |re block windowed k| ≤ 2 ^ 143 := abs_sum_le h hlen windowed fun n => Real.abs_cos_le_one _
  have him : |im block windowed k| ≤ 2 ^ 143 := by
    rw [im, abs_neg]
    exact abs_sum_le h hlen windowed fun n => Real.abs_sin_le_one _
  have hm : 0 ≤ magnitude block windowed k ∧ magnitude block windowed k ≤ 2 ^ 144 := by
    rw [magnitude]
    split
    · exact ⟨abs_nonneg _, (hre 0).trans (pow_le_pow_right₀ (by norm_num) (by norm_num))⟩
    · refine ⟨Real.sqrt_nonneg _, Real.sqrt_le_iff.2 ⟨by positivity, ?_⟩⟩
      have h1 := pow_le_pow_left₀ (abs_nonneg _) (hre k) 2
      have h2 := pow_le_pow_left₀ (abs_nonneg _) him 2
      rw [sq_abs] at h1 h2
      have : (2 : ℝ) ^ 144 = 2 * 2 ^ 143 := by rw [← pow_succ']
      rw [this]
      nlinarith [sq_nonneg ((2 : ℝ) ^ 143)]
  have := toDb_le (floor := -120) hm.1 hm.2 (by norm_num)
  norm_num at this
  exact this

theorem lt_overflow {r : ℝ} (h : |r| ≤ 2880) : |r| < 2 ^ 128 - 2 ^ 103 := lt_of_le_of_lt h (by norm_num)

theorem abs_phase_le (block : List Word) (windowed : Bool) (k : ℕ) : |phase block windowed k| ≤ Real.pi := by
  rw [phase]
  split
  · rw [abs_zero]; exact Real.pi_pos.le
  · exact Complex.abs_arg_le_pi _

/-! ### The spectrum functions see the working values (rule R184) -/

theorem f32Real_of_isZero {w : Word} (h : f32IsZero w = true) : f32Real w = 0 := by
  rw [f32IsZero, beq_iff_eq] at h
  rw [← abs_eq_zero, abs_f32Real, h]
  simp [realOf, magOf]

theorem hann_windowEnd {windowed : Bool} {len n : ℕ} (h : windowEnd windowed len n = true) :
    windowed = true ∧ hann len n = 0 := by
  simp only [windowEnd, Bool.and_eq_true, Bool.or_eq_true, beq_iff_eq] at h
  refine ⟨h.1, ?_⟩
  rw [hann]
  rcases h.2 with rfl | rfl
  · norm_num
  · rcases Nat.eq_zero_or_pos n with rfl | hn
    · norm_num
    · have hn' : (n : ℝ) ≠ 0 := by positivity
      rw [show 2 * Real.pi * n / (((n + 1 : ℕ) : ℝ) - 1) = 2 * Real.pi by push_cast; rw [add_sub_cancel_right]; field_simp,
        Real.cos_two_pi]
      norm_num

theorem workingKey_length (windowed : Bool) (block : List Word) : (workingKey windowed block).length = block.length := by
  simp [workingKey]

theorem workingKey_getD (windowed : Bool) (block : List Word) (n : ℕ) : (workingKey windowed block).getD n 0 =
    if f32IsZero (block.getD n 0) || windowEnd windowed block.length n then 0 else block.getD n 0 := by
  rcases Nat.lt_or_ge n block.length with hn | hn
  · rw [List.getD_eq_getElem _ _ (by rwa [workingKey_length]), List.getD_eq_getElem _ _ hn]
    simp [workingKey]
  · rw [List.getD_eq_default _ _ (by rwa [workingKey_length]), List.getD_eq_default _ _ hn]
    simp

/-- The samples that the spectrum functions are applied to have the working values of the block. -/
theorem working_workingKey (windowed : Bool) (block : List Word) :
    working (workingKey windowed block) windowed = working block windowed := by
  funext n
  rw [working, working, workingKey_length, workingKey_getD]
  split
  · rename_i h
    rw [f32Real_of_isZero (by decide), zero_mul]
    rcases Bool.or_eq_true _ _ ▸ h with h | h
    · rw [f32Real_of_isZero h, zero_mul]
    · obtain ⟨hw, h0⟩ := hann_windowEnd h
      rw [if_pos hw, h0, mul_zero]
  · rfl

theorem workingKey_workingKey (windowed : Bool) (block : List Word) :
    workingKey windowed (workingKey windowed block) = workingKey windowed block := by
  refine List.ext_getElem (by simp only [workingKey_length]) fun n h1 h2 => ?_
  rw [← List.getD_eq_getElem _ 0 h1, ← List.getD_eq_getElem _ 0 h2, workingKey_getD, workingKey_getD, workingKey_length]
  generalize block.getD n 0 = x
  cases hz : f32IsZero x <;> cases hw : windowEnd windowed block.length n <;> simp [hz]

theorem working_of_length_le {block : List Word} {n : ℕ} (h : block.length ≤ n) (windowed : Bool) :
    working block windowed n = 0 := by
  rw [working, List.getD_eq_default _ _ h, f32Real_of_isZero (by decide), zero_mul]

/-- The working values of a silent channel are 0 (rule R196 item 2). -/
theorem working_of_silent {block : List Word} {windowed : Bool} (h : silent windowed block = true) (n : ℕ) :
    working block windowed n = 0 := by
  rw [silent, List.all_eq_true] at h
  have h0 : (workingKey windowed block).getD n 0 = 0 := by
    rcases Nat.lt_or_ge n (workingKey windowed block).length with hn | hn
    · rw [List.getD_eq_getElem _ _ hn]
      simpa using h _ (List.getElem_mem hn)
    · exact List.getD_eq_default _ _ hn
  rw [← working_workingKey, working, h0, f32Real_of_isZero (by decide), zero_mul]

theorem isZero_of_f32Real {w : Word} (h : f32Real w = 0) : f32IsZero w = true := by
  have h0 : realOf (f32Abs w).toNat = realOf 0 := by rw [← abs_f32Real, h]; simp [realOf, magOf]
  rw [f32IsZero, beq_iff_eq]
  exact BitVec.eq_of_toNat_eq (realOf_strictMono.injective h0)

/-- Inside the block the Hann window is 0 at the two ends only (rule R185). -/
theorem windowEnd_of_hann {len n : ℕ} (hn : n < len) (h : hann len n = 0) : windowEnd true len n = true := by
  by_contra hc
  simp only [windowEnd, Bool.true_and, Bool.or_eq_true, beq_iff_eq, not_or] at hc
  have h0 : (0 : ℝ) < n := by exact_mod_cast Nat.pos_of_ne_zero hc.1
  have h1 : (n : ℝ) < (len : ℝ) - 1 := by
    rw [lt_sub_iff_add_lt]
    exact_mod_cast lt_of_le_of_ne (Nat.succ_le_of_lt hn) hc.2
  have hx : 2 * Real.pi * n / ((len : ℝ) - 1) < 2 * Real.pi := by
    rw [div_lt_iff₀ (h0.trans h1)]
    exact mul_lt_mul_of_pos_left h1 Real.two_pi_pos
  have hp : 0 < 2 * Real.pi * n / ((len : ℝ) - 1) := div_pos (mul_pos Real.two_pi_pos h0) (h0.trans h1)
  rw [hann, sub_eq_zero] at h
  exact hp.ne' ((Real.cos_eq_one_iff_of_lt_of_lt (by linarith) hx).1 (by linarith))

/-- A channel is silent exactly when its working values are 0 (rule R196 item 2). -/
theorem silent_iff {block : List Word} {windowed : Bool} :
    silent windowed block = true ↔ ∀ n, working block windowed n = 0 := by
  refine ⟨working_of_silent, fun h => ?_⟩
  rw [silent, List.all_eq_true]
  intro x hx
  obtain ⟨n, hn, rfl⟩ := List.getElem_of_mem hx
  have hlen : n < block.length := by rwa [workingKey_length] at hn
  rw [← List.getD_eq_getElem _ 0 hn, workingKey_getD, beq_iff_eq, ite_eq_left_iff]
  intro hc
  refine absurd ?_ hc
  rw [Bool.or_eq_true]
  rcases mul_eq_zero.1 (h n) with h0 | h0
  · exact .inl (isZero_of_f32Real h0)
  · cases windowed
    · simp at h0
    · exact .inr (windowEnd_of_hann hlen h0)

/-! ### What the same working values have in common (rules R184 to R191, R196) -/

section SameWorking

variable {block block' : List Word} {windowed windowed' : Bool}

theorem sameWorking_working_eq (h : SameWorking block windowed block' windowed') :
    working block windowed = working block' windowed' := by
  funext n
  rcases Nat.lt_or_ge n block.length with hn | hn
  · exact h.2 n hn
  · rw [working_of_length_le hn, working_of_length_le (h.1 ▸ hn)]

theorem sameWorking_iff : SameWorking block windowed block' windowed' ↔
    block.length = block'.length ∧ working block windowed = working block' windowed' :=
  ⟨fun h => ⟨h.1, sameWorking_working_eq h⟩, fun h => ⟨h.1, fun n _ => congrFun h.2 n⟩⟩

theorem sameWorking_silent_eq (h : SameWorking block windowed block' windowed') :
    silent windowed block = silent windowed' block' := by
  rw [Bool.eq_iff_iff, silent_iff, silent_iff, sameWorking_working_eq h]

theorem sameWorking_overflowBand_iff (h : SameWorking block windowed block' windowed') :
    OverflowBand block windowed ↔ OverflowBand block' windowed' := by
  rw [OverflowBand, OverflowBand, sameWorking_working_eq h, h.1]

theorem sameWorking_magnitude_eq (h : SameWorking block windowed block' windowed') :
    magnitude block windowed = magnitude block' windowed' := by
  funext k
  simp only [magnitude, re, im, sameWorking_working_eq h, h.1]

theorem sameWorking_magDb_eq (h : SameWorking block windowed block' windowed') :
    magDb block windowed = magDb block' windowed' := by
  funext k
  rw [magDb, magDb, sameWorking_magnitude_eq h]

theorem sameWorking_phase_eq (h : SameWorking block windowed block' windowed') :
    phase block windowed = phase block' windowed' := by
  funext k
  rw [phase, phase, sameWorking_magnitude_eq h, re, re, im, im, sameWorking_working_eq h, h.1]

/-- Which magnitudes are admissible depends on the working values alone. -/
theorem sameWorking_magOk_eq (h : SameWorking block windowed block' windowed') (num : Numerics) :
    MagOk num block windowed = MagOk num block' windowed' := by
  funext k w
  simp only [MagOk, sameWorking_silent_eq h, sameWorking_overflowBand_iff h, sameWorking_magDb_eq h]

/-- Which phases are admissible depends on the working values alone. -/
theorem sameWorking_phOk_eq (h : SameWorking block windowed block' windowed') (num : Numerics) :
    PhOk num block windowed = PhOk num block' windowed' := by
  funext k w
  simp only [PhOk, sameWorking_silent_eq h, sameWorking_overflowBand_iff h, sameWorking_magDb_eq h, sameWorking_phase_eq h]

end SameWorking

theorem re_of_silent {block : List Word} {windowed : Bool} (h : silent windowed block = true) (k : ℕ) :
    re block windowed k = 0 := by
  simp only [re, working_of_silent h, zero_mul, Finset.sum_const_zero]

theorem magnitude_of_silent {block : List Word} {windowed : Bool} (h : silent windowed block = true) (k : ℕ) :
    magnitude block windowed k = 0 := by
  have him : im block windowed k = 0 := by
    simp only [im, working_of_silent h, zero_mul, Finset.sum_const_zero, neg_zero]
  rw [magnitude, re_of_silent h, re_of_silent h, him]
  simp

/-! ### Existence -/

/-- In `reference` mode the rounded ideal is an admissible magnitude (rule R189). -/
theorem exists_magOk {num : Numerics} (hm : num.mode = .reference) {block : List Word} (h : degenerate block = false)
    (hlen : block.length ≤ 2 ^ 15) (windowed : Bool) (k : ℕ) :
    ∃ w, MagOk num block windowed k w ∧ IsRne (magDb block windowed k) w := by
  obtain ⟨lo, hi⟩ := magDb_mem h hlen windowed k
  obtain ⟨w, hw⟩ := exists_isRne (magDb block windowed k)
  have hr := lt_overflow (abs_le.2 ⟨by linarith, hi⟩)
  refine ⟨w, ⟨isRne_finite hw hr, ?_, fun hs => ?_, .inr ?_⟩, hw⟩
  · rw [← f32Real_magFloor]
    exact isRne_ge hw hr (by decide) (f32Real_magFloor ▸ lo)
  · have hd : magDb block windowed k = -120 := by rw [magDb, magnitude_of_silent hs, toDb, if_pos rfl]
    have h1 := isRne_ge hw hr (v := Config.magFloor) (by decide) (by rw [f32Real_magFloor, hd])
    have h2 := isRne_le hw hr (v := Config.magFloor) (by decide) (by rw [f32Real_magFloor, hd])
    exact f32Real_injective_of_ne_zero (by rw [f32Real_magFloor]; norm_num) (le_antisymm h2 h1)
  · rw [hm]
    exact hw

/-- In `reference` mode the rounded ideal is an admissible phase (rule R191). -/
theorem exists_phOk {num : Numerics} (hm : num.mode = .reference) (block : List Word) (windowed : Bool) (k : ℕ) :
    ∃ w, PhOk num block windowed k w ∧ IsRne (phase block windowed k) w := by
  obtain ⟨lo, hi⟩ := abs_le.1 (abs_phase_le block windowed k)
  obtain ⟨w, hw⟩ := exists_isRne (phase block windowed k)
  have hr : |phase block windowed k| < 2 ^ 128 - 2 ^ 103 :=
    lt_overflow ((abs_phase_le block windowed k).trans (by linarith [Real.pi_lt_d2]))
  refine ⟨w, ⟨isRne_finite hw hr, abs_le.2 ⟨?_, ?_⟩, fun hk => ?_, .inr ?_⟩, hw⟩
  · have hn : f32Real 0xC0490FDB = -f32Real f32Pi := by
      rw [f32Real, f32Real, show f32Int 0xC0490FDB = -f32Int f32Pi by decide +kernel, Int.cast_neg, neg_div]
    rw [← hn]
    exact isRne_ge hw hr (by decide) (by rw [hn]; linarith [pi_le_f32Pi])
  · exact isRne_le hw hr (by decide) (hi.trans pi_le_f32Pi)
  · have hp : phase block windowed k = 0 := by
      rw [phase, if_pos]
      rcases hk with h0 | hs
      exacts [.inl h0, .inr (magnitude_of_silent hs k)]
    exact isRne_zero.1 (hp ▸ hw)
  · rw [hm]
    exact hw

/-- In `reference` mode the rounded and saturated ideal is an admissible percentage (rule R227). -/
theorem exists_percentOk {num : Numerics} (hm : num.mode = .reference) (power : ℝ) {r : ℝ} (h : 0 ≤ r) :
    ∃ w, PercentOk num power r w ∧ IsSat r w := by
  obtain ⟨w, hw⟩ := exists_isSat r
  refine ⟨w, ⟨?_, by rw [hm]; exact hw⟩, hw⟩
  rw [IsSat] at hw
  split at hw
  · rw [hw]; decide
  · rename_i hr
    have hr := not_le.1 hr
    have hf := (f32IsFinite_iff w).1 (isRne_finite hw hr)
    have hs : f32Sign w = false := by
      rw [IsRne, if_neg (not_le.2 hr)] at hw
      by_contra hs
      have hs := Bool.of_not_eq_false hs
      by_cases hz : f32IsZero w = true
      · exact absurd ((hw.2.2.2 hz).1 hs) (not_lt.2 h)
      · have hneg : f32Real w < 0 := by
          rw [f32Real_eq, if_pos hs, neg_lt_zero, show (0 : ℝ) = realOf 0 by simp [realOf, magOf]]
          refine realOf_strictMono (Nat.pos_of_ne_zero fun h0 => hz ?_)
          rw [f32IsZero, beq_iff_eq]
          exact BitVec.eq_of_toNat_eq h0
        have := hw.2.1 0 (by decide)
        rw [f32Real_of_isZero (w := 0) (by decide), sub_zero, abs_of_nonneg h, abs_of_nonneg (by linarith)] at this
        linarith
    rw [toNat_f32Abs] at hf
    rw [f32Sign, BitVec.getLsbD, Nat.testBit_eq_decide_div_mod_eq, decide_eq_false_iff_not] at hs
    have := w.isLt
    show w.toNat < 0x7F800000
    omega

theorem thd_nonneg (levels : List Word) (fb : ℕ) : 0 ≤ Ideal.thd levels fb :=
  div_nonneg (mul_nonneg (by norm_num) (Real.sqrt_nonneg _)) (g_pos _ _).le

theorem thdn_nonneg (levels : List Word) (fb : ℕ) : 0 ≤ Ideal.thdn levels fb :=
  div_nonneg (mul_nonneg (by norm_num) (Real.sqrt_nonneg _)) (g_pos _ _).le

theorem rmsDb_mem {samples : List Word} (h : degenerate samples = false) :
    -100 ≤ Ideal.rmsDb samples ∧ Ideal.rmsDb samples ≤ 2880 := by
  refine ⟨toDb_ge _ _, ?_⟩
  have hsum : (samples.map fun w => f32Real w ^ 2).sum ≤ samples.length * (2 ^ 128) ^ 2 := by
    have := List.sum_le_card_nsmul (samples.map fun w => f32Real w ^ 2) ((2 ^ 128) ^ 2) (by
      intro x hx
      obtain ⟨w, hw, rfl⟩ := List.mem_map.1 hx
      rw [degenerate, List.any_eq_false] at h
      rw [← sq_abs]
      exact pow_le_pow_left₀ (abs_nonneg _) (abs_f32Real_lt (by simpa using h w hw)).le 2)
    rwa [List.length_map, nsmul_eq_mul] at this
  have hrms : Real.sqrt (1 / samples.length * (samples.map fun w => f32Real w ^ 2).sum) ≤ 2 ^ 144 := by
    refine Real.sqrt_le_iff.2 ⟨by positivity, ?_⟩
    calc _ ≤ 1 / (samples.length : ℝ) * (samples.length * (2 ^ 128) ^ 2) :=
          mul_le_mul_of_nonneg_left hsum (by positivity)
      _ = ((samples.length : ℝ) / samples.length) * (2 ^ 128) ^ 2 := by ring
      _ ≤ 1 * (2 ^ 128) ^ 2 := mul_le_mul_of_nonneg_right (div_self_le_one _) (by positivity)
      _ ≤ (2 ^ 144) ^ 2 := by norm_num
  have := toDb_le (floor := -100) (Real.sqrt_nonneg _) hrms (by norm_num)
  norm_num at this
  rw [Ideal.rmsDb]
  simpa using this

/-- In `reference` mode the rounded ideal is an admissible level (rule R230). -/
theorem exists_rmsOk {num : Numerics} (hm : num.mode = .reference) {samples : List Word}
    (h : degenerate samples = false) : ∃ w, RmsOk num samples w ∧ IsRne (Ideal.rmsDb samples) w := by
  obtain ⟨lo, hi⟩ := rmsDb_mem h
  obtain ⟨w, hw⟩ := exists_isRne (Ideal.rmsDb samples)
  have hr := lt_overflow (abs_le.2 ⟨by linarith, hi⟩)
  refine ⟨w, ⟨isRne_finite hw hr, ?_, by rw [hm]; exact hw⟩, hw⟩
  rw [← f32Real_dynFloor]
  exact isRne_ge hw hr (by decide) (f32Real_dynFloor ▸ lo)

/-- In `tolerant` mode the exact cases are admissible whatever the tolerances: they have no error. -/
theorem within_zero (tol : Tolerance) {size : ℝ} (h : 0 ≤ size) : Within tol 0 size := fun _ _ => by positivity

theorem tolerant_magOk {num : Numerics} (hm : num.mode = .tolerant) {block : List Word} {windowed : Bool}
    (hs : silent windowed block = true) (k : ℕ) : MagOk num block windowed k Config.magFloor := by
  refine ⟨by decide, by rw [f32Real_magFloor], fun _ => rfl, .inr ?_⟩
  rw [hm]
  show Within _ |f32Real Config.magFloor - magDb block windowed k| 1
  rw [magDb, magnitude_of_silent hs, toDb, if_pos rfl, f32Real_magFloor, sub_self, abs_zero]
  exact within_zero _ zero_le_one

theorem tolerant_phOk {num : Numerics} (hm : num.mode = .tolerant) {block : List Word} {windowed : Bool}
    (hs : silent windowed block = true) (k : ℕ) : PhOk num block windowed k 0 := by
  have h0 : f32Real 0 = 0 := f32Real_of_isZero (by decide)
  refine ⟨by decide, by rw [h0, abs_zero]; exact Real.pi_pos.le.trans pi_le_f32Pi, fun _ => rfl, .inr ?_⟩
  rw [hm]
  refine fun _ => ⟨0, ?_⟩
  rw [phase, if_pos (.inr (magnitude_of_silent hs k)), h0]
  simpa using within_zero num.tolPhase zero_le_one

theorem tolerant_percentOk {num : Numerics} (hm : num.mode = .tolerant) {power x : ℝ} (h : power = 0) :
    PercentOk num power (100 * Real.sqrt power / x) 0 := by
  refine ⟨by decide, ?_⟩
  rw [hm, percent_eq_zero h]
  refine ⟨⟨fun _ => h, fun _ => rfl⟩, ?_⟩
  rw [if_neg (not_lt.2 f32Real_f32Max_nonneg), f32Real_of_isZero (w := 0) (by decide), sub_zero, abs_zero]
  exact within_zero _ le_rfl

theorem tolerant_rmsOk {num : Numerics} (hm : num.mode = .tolerant) {samples : List Word}
    (h : ∀ x ∈ samples, f32IsZero x = true) : RmsOk num samples Config.dynFloor := by
  have hsum : (samples.map fun w => f32Real w ^ 2).sum = 0 := List.sum_eq_zero fun x hx => by
    obtain ⟨w, hw, rfl⟩ := List.mem_map.1 hx
    rw [f32Real_of_isZero (h w hw), zero_pow two_ne_zero]
  have hd : Ideal.rmsDb samples = -100 := by
    rw [Ideal.rmsDb, hsum, mul_zero, Real.sqrt_zero, toDb, if_pos rfl]
  refine ⟨by decide, by rw [f32Real_dynFloor], ?_⟩
  rw [hm]
  refine ⟨⟨fun _ => h, fun _ => rfl⟩, ?_⟩
  rw [hd, f32Real_dynFloor, sub_self, abs_zero]
  exact within_zero _ zero_le_one

/-- Conforming shuts out no parameters: for every NUMERICS_MODE and every tolerance some numerics conform. -/
theorem exists_conforming (num : Numerics) : ∃ mag ph thd thdn rmsDb,
    Conforms { num with mag := mag, ph := ph, thd := thd, thdn := thdn, rmsDb := rmsDb } := by
  have pick {α : Type} (p : α → Word → Prop) : ∃ f : α → Word, ∀ a, Admissible (p a) (f a) := by
    classical
    refine ⟨fun a => if h : ∃ v, p a v then h.choose else 0, fun a h => ?_⟩
    simp only [dif_pos h]
    exact h.choose_spec
  -- The spectrum functions are picked on x_c: on how many working values there are, and what they are.
  obtain ⟨mag, hmag⟩ := pick fun (a : (ℕ × (ℕ → ℝ)) × ℕ) w =>
    ∃ block windowed, a.1 = (block.length, working block windowed) ∧ MagOk num block windowed a.2 w
  obtain ⟨ph, hph⟩ := pick fun (a : (ℕ × (ℕ → ℝ)) × ℕ) w =>
    ∃ block windowed, a.1 = (block.length, working block windowed) ∧ PhOk num block windowed a.2 w
  obtain ⟨thd, hthd⟩ := pick fun a : List Word × Nat => ThdValueOk num a.1 a.2
  obtain ⟨thdn, hthdn⟩ := pick fun a : List Word × Nat => ThdnValueOk num a.1 a.2
  obtain ⟨rms, hrms⟩ := pick fun a : List Word => RmsOk num a
  refine ⟨fun b w k => mag ((b.length, working b w), k), fun b w k => ph ((b.length, working b w), k),
    fun l fb => thd (l, fb), fun l fb => thdn (l, fb), rms, ?_, ?_, ?_, ?_,
    fun levels fb _ _ => hthd (levels, fb), fun levels fb _ _ => hthdn (levels, fb), fun samples _ _ => hrms samples⟩
  · intro block windowed block' windowed' _ _ h
    simp only [workingKey_length, working_workingKey, h.1, sameWorking_working_eq h]
  · intro block windowed block' windowed' _ _ h
    simp only [workingKey_length, working_workingKey, h.1, sameWorking_working_eq h]
  · rintro block windowed k - - ⟨v, hv⟩
    obtain ⟨block', windowed', h, hw⟩ := hmag ((block.length, working block windowed), k) ⟨v, block, windowed, rfl, hv⟩
    simp only [workingKey_length, working_workingKey]
    rw [← sameWorking_magOk_eq (sameWorking_iff.2 (Prod.mk.inj h)) num] at hw
    exact hw
  · rintro block windowed k - - ⟨v, hv⟩
    obtain ⟨block', windowed', h, hw⟩ := hph ((block.length, working block windowed), k) ⟨v, block, windowed, rfl, hv⟩
    simp only [workingKey_length, working_workingKey]
    rw [← sameWorking_phOk_eq (sameWorking_iff.2 (Prod.mk.inj h)) num] at hw
    exact hw

end Sys2Proof.Machine
end

