-- ==== Sys2Proof/Laws/PerInstr.lean ====
section
/-! SUPPORT. The family EncodeShape, one lemma per constructor of Instr: the first word of a command carries its opcode, and the
opcode alone gives the number of words (rules R110, R111, R114). -/

namespace Sys2Proof.Laws

/-- The first word carries the opcode, and WR alone has a second word. -/
def EncodeShape.Statement (i : Instr) : Prop :=
  (encode i).head?.map opcodeOf = some i.opcode ∧ (encode i).length = if i.opcode = 0x02 then 2 else 1

theorem EncodeShape.nop (imm : BitVec 24) : EncodeShape.Statement (.nop imm) :=
  ⟨congrArg some (opcodeOf_firstWord _ imm), rfl⟩
theorem EncodeShape.rd (addr : BitVec 24) : EncodeShape.Statement (.rd addr) :=
  ⟨congrArg some (opcodeOf_firstWord _ addr), rfl⟩
theorem EncodeShape.wr (addr : BitVec 24) (data : Word) : EncodeShape.Statement (.wr addr data) :=
  ⟨congrArg some (opcodeOf_firstWord _ addr), rfl⟩
theorem EncodeShape.acc (imm : BitVec 24) : EncodeShape.Statement (.acc imm) :=
  ⟨congrArg some (opcodeOf_firstWord _ imm), rfl⟩
theorem EncodeShape.fwr (imm : BitVec 24) : EncodeShape.Statement (.fwr imm) :=
  ⟨congrArg some (opcodeOf_firstWord _ imm), rfl⟩
theorem EncodeShape.dyn (imm : BitVec 24) : EncodeShape.Statement (.dyn imm) :=
  ⟨congrArg some (opcodeOf_firstWord _ imm), rfl⟩
theorem EncodeShape.env (imm : BitVec 24) : EncodeShape.Statement (.env imm) :=
  ⟨congrArg some (opcodeOf_firstWord _ imm), rfl⟩
theorem EncodeShape.thd (imm : BitVec 24) : EncodeShape.Statement (.thd imm) :=
  ⟨congrArg some (opcodeOf_firstWord _ imm), rfl⟩
theorem EncodeShape.trig (imm : BitVec 24) : EncodeShape.Statement (.trig imm) :=
  ⟨congrArg some (opcodeOf_firstWord _ imm), rfl⟩
theorem EncodeShape.srst (imm : BitVec 24) : EncodeShape.Statement (.srst imm) :=
  ⟨congrArg some (opcodeOf_firstWord _ imm), rfl⟩
theorem EncodeShape.frd (maxSamples : BitVec 24) : EncodeShape.Statement (.frd maxSamples) :=
  ⟨congrArg some (opcodeOf_firstWord _ maxSamples), rfl⟩

end Sys2Proof.Laws
end

