-- ==== Sys2Proof/Laws/Steps.lean ====
section
/-! SUPPORT. The write steps of a Port P command: which may be exchanged, which may come next, and what running a command to
its end gives. -/

namespace Sys2Proof.Machine

/-- Two steps that do not conflict have different names for the register they write. -/
theorem Regs.set_comm (r : Regs) {a b : WordReg} (h : a ≠ b) (u v : Word) :
    (r.set a u).set b v = (r.set b v).set a u := by
  cases a <;> cases b <;> first | rfl | exact absurd rfl h | skip
  rename_i i j
  have hij : i.val ≠ j.val := fun e => h (by rw [Fin.ext e])
  simp only [Regs.set]
  rw [Vector.set_comm _ _ hij]

/-- Flags of different names are written independently. -/
theorem Status.setFlag_comm (st : Status) {f g : Flag} (h : f ≠ g) (b c : Bool) :
    (st.setFlag f b).setFlag g c = (st.setFlag g c).setFlag f b := by
  cases f <;> cases g <;> first | rfl | exact absurd rfl h

/-- A step to RAM words the RAM has keeps the memory's canonical form. -/
theorem wf_apply {s : State} (h : s.mem.wf = true) {w : Write} (hw : w.inRam = true) :
    (w.step.apply s).mem.wf = true := by
  obtain ⟨pub, w⟩ := w
  cases w <;> simp only [WriteStep.apply, h]
  · exact Memory.wf_write h hw _
  · exact Memory.wf_clearSpectrum h

theorem wf_applyAll {s : State} (h : s.mem.wf = true) {ws : List Write} (hw : ∀ w ∈ ws, w.inRam = true) :
    (applyAll ws s).mem.wf = true := by
  induction ws generalizing s with
  | nil => exact h
  | cons w ws ih =>
    exact ih (wf_apply h (hw w List.mem_cons_self)) fun x hx => hw x (List.mem_cons_of_mem _ hx)

/-- Steps that do not conflict commute. -/
theorem apply_comm {s : State} (h : s.mem.wf = true) {a b : Write} (ha : a.inRam = true) (hb : b.inRam = true)
    (hc : a.step.conflicts b.step = false) : b.step.apply (a.step.apply s) = a.step.apply (b.step.apply s) := by
  obtain ⟨p, a⟩ := a
  obtain ⟨q, b⟩ := b
  cases a <;> cases b <;> simp only [WriteStep.apply] <;> simp [WriteStep.conflicts, WriteStep.target, Target.meets] at hc
  · rename_i r u r' v
    simp only [Regs.set_comm s.regs hc]
  · rename_i f u f' v
    simp only [Status.setFlag_comm s.status hc]
  · rename_i x u y v
    simp only [Memory.write_comm h hc ha hb]

/-- A step of a list may come next exactly when no step before it blocks it, and the rest keep their order. -/
theorem mem_nextSteps {ws rest : List Write} {w : Write} :
    (w, rest) ∈ nextSteps ws ↔
      ∃ pre post, ws = pre ++ w :: post ∧ rest = pre ++ post ∧ ∀ x ∈ pre, x.blocks w = false := by
  induction ws generalizing rest with
  | nil => simp [nextSteps]
  | cons a ws ih =>
    rw [nextSteps, List.mem_cons, List.mem_map]
    constructor
    · rintro (h | ⟨⟨w', r'⟩, hm, he⟩)
      · obtain ⟨rfl, rfl⟩ := Prod.mk.inj h
        exact ⟨[], rest, rfl, rfl, by simp⟩
      · obtain ⟨rfl, rfl⟩ := Prod.mk.inj he
        rw [List.mem_filter] at hm
        obtain ⟨pre, post, rfl, rfl, hb⟩ := ih.1 hm.1
        refine ⟨a :: pre, post, rfl, rfl, fun x hx => ?_⟩
        rcases List.mem_cons.1 hx with rfl | hx
        · simpa using hm.2
        · exact hb x hx
    · rintro ⟨pre, post, he, rfl, hb⟩
      cases pre with
      | nil => left; simp only [List.nil_append, List.cons.injEq] at he ⊢; rw [he.1, he.2]
      | cons p pre =>
        obtain ⟨rfl, rfl⟩ := List.cons.inj he
        right
        refine ⟨(w, pre ++ post), List.mem_filter.2 ⟨ih.2 ⟨pre, post, rfl, rfl, fun x hx => hb x (List.mem_cons_of_mem _ hx)⟩,
          by simpa using hb a List.mem_cons_self⟩, rfl⟩

/-- Some step may always come next, while steps are left. -/
theorem nextSteps_ne_nil {w : Write} {ws : List Write} : nextSteps (w :: ws) ≠ [] := by simp [nextSteps]

/-- A step no earlier step conflicts with may be performed first. -/
theorem applyAll_pull {s : State} (h : s.mem.wf = true) {pre post : List Write} {w : Write}
    (hp : ∀ x ∈ pre, x.inRam = true) (hw : w.inRam = true) (hc : ∀ x ∈ pre, x.step.conflicts w.step = false) :
    applyAll (pre ++ w :: post) s = applyAll (pre ++ post) (w.step.apply s) := by
  induction pre generalizing s with
  | nil => rfl
  | cons a pre ih =>
    rw [List.cons_append, List.cons_append, applyAll_cons, applyAll_cons,
      ih (wf_apply h (hp a List.mem_cons_self)) (fun x hx => hp x (List.mem_cons_of_mem _ hx))
        (fun x hx => hc x (List.mem_cons_of_mem _ hx)),
      apply_comm h (hp a List.mem_cons_self) hw (hc a List.mem_cons_self)]

/-- Clearing the spectrum is writing each of its words with its reset value, in any order (rules R293, R295). -/
theorem foldl_write_reset {m : Memory} (h : m.wf = true) (as : List Nat) (ha : ∀ a ∈ as, hasSpectrumWord a = true) :
    as.foldl (fun m a => m.write a (spectrumReset a)) m =
      { m with spectrum := m.spectrum.filter fun c => !as.contains c.1 } := by
  induction as generalizing m with
  | nil => simp
  | cons a as ih =>
    have hs := hasSpectrumWord_isSpectrum (ha a List.mem_cons_self)
    rw [List.foldl_cons, ih (Memory.wf_write h (by simp [ha a List.mem_cons_self]) _)
      fun x hx => ha x (List.mem_cons_of_mem _ hx)]
    simp only [Memory.write, hs, if_true, cellsErase, List.filter_filter, List.contains_cons, Bool.not_or]
    congr 1
    refine List.filter_congr fun c _ => ?_
    rw [Bool.and_comm]; rfl

theorem clearSpectrum_eq_foldl {m : Memory} (h : m.wf = true) :
    spectrumAddresses.foldl (fun m a => m.write a (spectrumReset a)) m = m.clearSpectrum := by
  rw [foldl_write_reset h _ fun a ha => mem_spectrumAddresses.1 ha, Memory.clearSpectrum]
  congr 1
  rw [List.filter_eq_nil_iff]
  intro c hc
  have := ((Memory.wf_iff m).1 h).2.2.2 c hc
  simpa using mem_spectrumAddresses.2 this.1

theorem applyAll_words (pub : Nat) (as : List Nat) (s : State) :
    applyAll (as.map fun a => ⟨pub, .word a (spectrumReset a)⟩) s =
      { s with mem := as.foldl (fun m a => m.write a (spectrumReset a)) s.mem } := by
  induction as generalizing s with
  | nil => rfl
  | cons a as ih => rw [List.map_cons, applyAll_cons, ih, List.foldl_cons]; rfl

/-- The single-word steps of a command give what its steps give. -/
theorem applyAll_expandAll {s : State} (h : s.mem.wf = true) {ws : List Write} (hw : ∀ w ∈ ws, w.inRam = true) :
    applyAll (expandAll ws) s = applyAll ws s := by
  induction ws generalizing s with
  | nil => rfl
  | cons w ws ih =>
    have hrest := ih (wf_apply h (hw w List.mem_cons_self)) fun x hx => hw x (List.mem_cons_of_mem _ hx)
    rw [expandAll, List.flatMap_cons, applyAll_append, applyAll_cons, ← hrest]
    congr 1
    obtain ⟨pub, w⟩ := w
    cases w <;> simp only [WriteStep.expand, List.map_cons, List.map_nil, applyAll_cons, applyAll_nil, List.map_map,
      Function.comp_def]
    rw [applyAll_words, clearSpectrum_eq_foldl h]
    simp only [WriteStep.apply]

/-- Where no command is under way, running it to its end changes nothing. -/
theorem drain_none {s : State} (h : s.inFlight = none) : s.drain = s := by simp [State.drain, h]

end Sys2Proof.Machine
end

