-- ==== Sys2Proof/Machine/Assembler.lean ====
section
/-! DEFINITION. The assembler syntax and the pseudo-instructions of rules R122 and R123. No step of the machine uses this
file: it says which command a line of the spec's notation stands for. -/

namespace Sys2Proof.Machine

/-- Cuts a line at separators; empty pieces are kept. -/
def splitChars (sep : Char → Bool) : List Char → List (List Char)
  | [] => [[]]
  | c :: cs =>
    match splitChars sep cs with
    | [] => [[c]]
    | t :: ts => if sep c then [] :: t :: ts else (c :: t) :: ts

/-- The tokens of a line: a `;` starts a comment; blanks and commas separate (rule R122). -/
def lineTokens (line : String) : List (List Char) :=
  (splitChars (fun c => c == ' ' || c == ',' || c == '\t') (line.toList.takeWhile (· != ';'))).filter (!·.isEmpty)

/-- The value of a digit in a base up to 16. -/
def digitValue (base : Nat) (c : Char) : Option Nat :=
  let v := if '0' ≤ c ∧ c ≤ '9' then c.toNat - '0'.toNat
    else if 'a' ≤ c ∧ c ≤ 'f' then c.toNat - 'a'.toNat + 10
    else if 'A' ≤ c ∧ c ≤ 'F' then c.toNat - 'A'.toNat + 10
    else base
  if v < base then some v else none

/-- A nonempty string of digits. -/
def digitsValue (base : Nat) : List Char → Option Nat
  | [] => none
  | cs => cs.foldl (fun acc c => match acc, digitValue base c with
      | some n, some d => some (base * n + d)
      | _, _ => none) (some 0)

/-- A decimal or `0x` hexadecimal number (rule R122). -/
def numberValue : List Char → Option Nat
  | '0' :: 'x' :: cs => digitsValue 16 cs
  | cs => digitsValue 10 cs

/-- `bits32(rne(decimal))` of a decimal with an optional sign and fraction (rule R122). -/
def decimalBits (cs : List Char) : Option Word :=
  let neg := cs.head? == some '-'
  match splitChars (· == '.') (if neg then cs.tail else cs) with
  | [whole] => (digitsValue 10 whole).map fun n => rneFrac neg n 1
  | [whole, frac] =>
    (digitsValue 10 (whole ++ frac)).map fun n => rneFrac neg n (10 ^ frac.length)
  | _ => none

/-- The address of a register name (rule R32). -/
def registerAddress : String → Option Nat
  | "ID" => some 0x00
  | "STATUS" => some 0x01
  | "CTRL" => some 0x02
  | "MODE" => some 0x03
  | "ORDER" => some 0x04
  | "NSIZE" => some 0x05
  | "FILL" => some 0x06
  | "SRATE" => some 0x07
  | "TFREQ" => some 0x08
  | "BLKLEN" => some 0x09
  | "SEQ" => some 0x0A
  | "GEN" => some 0x0B
  | "FBIN" => some 0x0C
  | "THD" => some 0x0D
  | "THDN" => some 0x0E
  | "IMD" => some 0x0F
  | "HCNT" => some 0x10
  | "HARM0" => some 0x11
  | "HARM1" => some 0x12
  | "HARM2" => some 0x13
  | "HARM3" => some 0x14
  | "HARM4" => some 0x15
  | "HARM5" => some 0x16
  | "HARM6" => some 0x17
  | "HARM7" => some 0x18
  | "HARM8" => some 0x19
  | "HARM9" => some 0x1A
  | "CRATIO" => some 0x1B
  | "DYN_CNT" => some 0x1C
  | "DYN_IN" => some 0x1D
  | "DYN_OUT" => some 0x1E
  | "ATTACK" => some 0x1F
  | "ENV_CNT" => some 0x20
  | "FIFO_COUNT" => some 0x21
  | "FIFO_CAP" => some 0x22
  | "CONS_CNT" => some 0x23
  | "BLK_MAX" => some 0x24
  | _ => none

/-- The base address of a region name (rule R82). -/
def regionBase : String → Option Nat
  | "REGS" => some 0x000000
  | "PRE_L" => some basePreL
  | "POST_L" => some basePostL
  | "POST_R" => some basePostR
  | "MAG_L" => some baseMagL
  | "MAG_R" => some baseMagR
  | "PH_L" => some basePhL
  | "PH_R" => some basePhR
  | "CONS_BUF" => some baseCons
  | _ => none

/-- A number as a field of `width` bits, if it fits. -/
def fieldValue (width n : Nat) : Option (BitVec width) := if n < 2 ^ width then some (BitVec.ofNat width n) else none

/-- `addr`: a number, a register name, or `REGION+i` (rule R122). -/
def addressOperand (cs : List Char) : Option (BitVec 24) :=
  match splitChars (· == '+') cs with
  | [name] =>
    match registerAddress (String.ofList name) with
    | some a => fieldValue 24 a
    | none => (numberValue name).bind (fieldValue 24)
  | [region, index] =>
    match regionBase (String.ofList region), numberValue index with
    | some base, some i => if i < 2 ^ 16 then fieldValue 24 (base + i) else none
    | _, _ => none
  | _ => none

/-- `data`: a 32-bit number, or `f:` and a decimal (rule R122). -/
def dataOperand : List Char → Option Word
  | 'f' :: ':' :: cs => decimalBits cs
  | cs => (numberValue cs).bind (fieldValue 32)

/-- A command or pseudo-instruction from its mnemonic and operands (rules R114, R122, R123). Commands without an operand
assemble IMM = 0. -/
def assembleCommand (mnemonic : String) (operands : List (List Char)) : Option Instr :=
  match mnemonic, operands with
  | "NOP", [] => some (.nop 0)
  | "RD", [a] => (addressOperand a).map .rd
  | "WR", [a, d] => do some (.wr (← addressOperand a) (← dataOperand d))
  | "ACC", [] => some (.acc 0)
  | "FWR", [] => some (.fwr 0)
  | "DYN", [] => some (.dyn 0)
  | "ENV", [] => some (.env 0)
  | "THD", [] => some (.thd 0)
  | "TRIG", [] => some (.trig 0)
  | "SRST", [] => some (.srst 0)
  | "FRD", [m] => ((numberValue m).bind (fieldValue 24)).map .frd
  | "SETMODE", [m] => ((numberValue m).bind (fieldValue 32)).map (.wr 0x000003)
  | "SETORDER", [o] => ((numberValue o).bind (fieldValue 32)).map (.wr 0x000004)
  | "SETRATE", [x] => (decimalBits x).map (.wr 0x000007)
  | "SETFREQ", [x] => (decimalBits x).map (.wr 0x000008)
  | "SETLEN", [n] => ((numberValue n).bind (fieldValue 32)).map (.wr 0x000009)
  | "IRQON", [] => some (.wr 0x000002 1)
  | "IRQOFF", [] => some (.wr 0x000002 0)
  | "ACK", [] => some (.wr 0x000001 0x00000002)
  | "CLRERR", [] => some (.wr 0x000001 0x00000038)
  | "STAGE", [r, i, x] =>
    if String.ofList r = "PRE_L" ∨ String.ofList r = "POST_L" ∨ String.ofList r = "POST_R" then
      do some (.wr (← addressOperand (r ++ '+' :: i)) (← decimalBits x))
    else none
  | _, _ => none

/-- The port and command of a line `[P:|C:] MNEMONIC [operands]`; the port is P where no prefix names it (rule R122). -/
def assembleLine (line : String) : Option (Port × Instr) :=
  match lineTokens line with
  | [] => none
  | t :: ts =>
    match String.ofList t, ts with
    | "P:", m :: operands => (assembleCommand (String.ofList m) operands).map (Port.producer, ·)
    | "C:", m :: operands => (assembleCommand (String.ofList m) operands).map (Port.consumer, ·)
    | m, operands => (assembleCommand m operands).map (Port.producer, ·)

end Sys2Proof.Machine
end

