-- ==== Sys2Proof/Tests/Slice0.lean ====
section
/-! SUPPORT. Tests: small steps whose results are the spec's own vectors (95_test_vectors.md), and for every statement with
hypotheses a state and operands that meet them. -/

-- One test after another: many kernel evaluations waiting side by side would each hold a thread's stack.
set_option Elab.async false

namespace Sys2Proof.Tests

open Sys2Proof.Machine

/-! ### Helpers -/

/-- Order 8, so N = 256. -/
def order8 : Order := ⟨8, by decide⟩

/-- A capacity of 4 (the parameter C of V-FIFO-6). -/
def cap4 : Capacity := ⟨4, by decide⟩

/-- The cells of words at consecutive addresses. -/
def cellsAt (base : Nat) (ws : List Word) : List Cell := ws.zipIdx.map fun (w, k) => (base + k, w)

/-- The power-on state with PRE_L, POST_L and POST_R staged and BLKLEN set. -/
def staged (len : Word) (pre left right : List Word) : State :=
  { State.reset with
    regs := { Regs.reset with blklen := len }
    mem := { ram := cellsAt basePreL pre ++ cellsAt basePostL left ++ cellsAt basePostR right, spectrum := [] } }

/-- `staged` at N = 256 in a mode. -/
def staged8 (mode : Mode) (len : Word) (left right : List Word) : State :=
  { staged len [] left right with mode := mode, order := order8 }

/-- The power-on state with Port C's command performed next. -/
def onC : State := { State.reset with port := .consumer }

/-- Zeros. -/
def zeros (n : Nat) : List Word := List.replicate n 0

/-- Silent samples: 252 of 256 accumulated, ten staged. -/
def silentCapture (mode : Mode) (analyzing : Bool) : State :=
  { staged8 mode 10 (zeros 10) (zeros 10) with
    acc := List.replicate 252 (0, 0), status := { Status.reset with analyzing := analyzing } }

/-! ### Well-formedness (rule R115): every check refuses an ill-formed command -/

theorem test_wellFormed_acc_on_C : (Instr.acc 0).wellFormed .consumer = false := by decide
theorem test_wellFormed_fwr_on_C : (Instr.fwr 0).wellFormed .consumer = false := by decide
theorem test_wellFormed_dyn_on_C : (Instr.dyn 0).wellFormed .consumer = false := by decide
theorem test_wellFormed_env_on_C : (Instr.env 0).wellFormed .consumer = false := by decide
theorem test_wellFormed_thd_on_C : (Instr.thd 0).wellFormed .consumer = false := by decide
theorem test_wellFormed_trig_on_C : (Instr.trig 0).wellFormed .consumer = false := by decide
theorem test_wellFormed_srst_on_C : (Instr.srst 0).wellFormed .consumer = false := by decide
theorem test_wellFormed_frd_on_P : (Instr.frd 4).wellFormed .producer = false := by decide

/-! ### Decoding: words written out bit by bit from rules R110 and R114 -/

theorem test_decode_nop : decode [0b00000000_101010111100110111101111#32] = .command (.nop 0xABCDEF) [] := by decide
theorem test_decode_rd : decode [0b00000001_000010000000000000001010#32] = .command (.rd 0x08000A) [] := by decide
theorem test_decode_wr : decode [0b00000010_000000000000000000000111#32, 0b01000111_00111011_10000000_00000000#32] =
    .command (.wr 0x000007 0x473B8000) [] := by decide
theorem test_decode_acc : decode [0b00010000_111111111111111111111111#32] = .command (.acc 0xFFFFFF) [] := by decide
theorem test_decode_fwr : decode [0b00010001_000000000000000000000000#32] = .command (.fwr 0) [] := by decide
theorem test_decode_dyn : decode [0b00010010_000000000000000000000001#32] = .command (.dyn 1) [] := by decide
theorem test_decode_env : decode [0b00010011_000000000000000000000000#32] = .command (.env 0) [] := by decide
theorem test_decode_thd : decode [0b00010100_000000000000000000000000#32] = .command (.thd 0) [] := by decide
theorem test_decode_trig : decode [0b00010101_100000000000000000000000#32] = .command (.trig 0x800000) [] := by decide
theorem test_decode_srst : decode [0b00011111_000000000000000000000000#32] = .command (.srst 0) [] := by decide
theorem test_decode_frd : decode [0b00100000_000000000000000000000010#32] = .command (.frd 2) [] := by decide
/-- V-ENC-3, V-ENC-4. -/
theorem test_decode_reserved : decode [0x03000000] = .reserved 0x03 [] ∧ decode [0xFF000000, 1] = .reserved 0xFF [1] := by
  decide
/-- V-ENC-20: DATA is never a command; a WR without its DATA word waits. -/
theorem test_decode_wr_data : decode [0x02000009, 0x03000000] = .command (.wr 9 0x03000000) [] ∧
    decode [0x02000009] = .incomplete := by decide
/-- The numbering of spec/opcode_table.json: WR's DATA word is bits 63..32. -/
theorem test_decodeTableWord : decodeTableWord 64 0x0000000302000009 = some (.wr 9 3) ∧
    decodeTableWord 32 0x20000004 = some (.frd 4) ∧ decodeTableWord 32 0x03000000 = none := by decide
/-- Rule R85: bits 7:0 first. -/
theorem test_wordsOfBytes : wordsOfBytes [0x04, 0x00, 0x00, 0x20, 0x07] = [0x20000004] := by decide

/-! ### Receiving and answering -/

/-- V-ENC-2, on Port C through `step`. -/
theorem test_nop_step : (match step { State.reset with inC := [0x00ABCDEF] } with
    | .next t => t.outC == [⟨.ok, 0⟩] && t.inC == [] && t.gen == 0
    | _ => false) = true := by decide +kernel
/-- V-ENC-4: a reserved opcode is reported before the port is checked. -/
theorem test_reserved_step : (match step { State.reset with inC := [0xFF000000] } with
    | .next t => t.outC == [⟨.errCmd, 0⟩] && t.status.errCmd && t.gen == 0
    | _ => false) = true := by decide +kernel
/-- FRD 4 placed by withFetchWord is received on Port C (rule R115); the empty FIFO answers 0 (V-FIFO-5). -/
theorem test_withFetchWord : (match step (State.reset.withFetchWord 32 0x20000004) with
    | .next t => t.outC == [⟨.ok, 0⟩] && t.outP == []
    | _ => false) = true := by decide +kernel

/-! ### Access commands -/

/-- V-ENC-12, V-ENC-13: the last bin of N = 2048 and the one after it. -/
theorem test_rd_bounds : (issue .producer (.rd 0x0403FF) State.reset).outP = [⟨.ok, 0xC2F00000⟩] ∧
    (issue .producer (.rd 0x040400) State.reset).outP = [⟨.errAddr, 0⟩] := by decide +kernel
/-- V-RW-9: a stage word keeps every bit. -/
theorem test_rd_stage : (issue .producer (.rd 0x020005) (issue .producer (.wr 0x020005 0x7FC12345) State.reset)).outP =
    [⟨.ok, 0⟩, ⟨.ok, 0x7FC12345⟩] := by decide +kernel
/-- V-RW-5: W1C from Port C. -/
theorem test_wr_status : (issue .consumer (.wr 1 0xFFFFFFFF) { State.reset with
      status := { Status.reset with valid := true, ready := true, analyzing := true, errAddr := true } }).status.toWord =
    0x00000005 := by decide +kernel
/-- V-CTL-6: a resize. -/
theorem test_wr_order : let t := issue .producer (.wr 4 8) { State.reset with
      acc := List.replicate 300 (0, 0)
      status := { Status.reset with valid := true, analyzing := true }
      regs := { Regs.reset with fbin := 46 }
      mem := { ram := [], spectrum := [(0x040005, 7)] } }
    (t.order = order8 ∧ t.acc = [] ∧ t.status.toWord = 4 ∧ t.regs.fbin = 46 ∧ t.gen = 2) ∧
      t.mem.read 0x040005 = 0xC2F00000 := by decide +kernel

/-! ### ACC -/

/-- V-ACC-3's case with FILL = 250 and BLKLEN = 10: 6 samples complete the block, the other 4 stay accumulated. -/
theorem test_acc_split : let t := issue .producer (.acc 0) <|
      { staged8 .hammerstein 10 ((List.range 10).map (BitVec.ofNat 32)) (zeros 10) with acc := List.replicate 250 (0, 0) }
    t.acc = [(6, 0), (7, 0), (8, 0), (9, 0)] ∧ t.regs.seq = 1 ∧ t.status.toWord = 3 := by decide +kernel
/-- V-ACC-7's case with FILL = 252 and BLKLEN = 10: a triggered Linear capture of a silent block (rule R196 item 2). -/
theorem test_acc_linear : let t := issue .producer (.acc 0) (silentCapture .linear true)
    (t.acc = [] ∧ t.regs.seq = 1 ∧ t.status.toWord = 3) ∧ t.mem.read 0x04007F = 0xC2F00000 ∧
      t.mem.read 0x060000 = 0 := by decide +kernel

/-! ### Metrics -/

/-- V-THD-4: no fundamental, the exact results. -/
theorem test_thd_undefined : let t := issue .producer (.thd 0) { State.reset with
      order := order8, regs := { Regs.reset with tfreq := 0x41A00000, thd := 1, thdn := 2, hcnt := 3 } }
    t.regs.fbin = 0 ∧ t.regs.hcnt = 0 ∧ t.regs.thd = 0 ∧ t.regs.thdn = 0 := by decide +kernel
/-- V-THD-6 and V-THD-8's coerced NaN: the table and its count. -/
theorem test_thd_table : let t := issue .producer (.thd 0) { State.reset with
      order := order8, regs := { Regs.reset with tfreq := 0x459C4000 }
      mem := { ram := [], spectrum := [(0x04001D, 0x7FC00000), (0x04003A, 0xC1A00000)] } }
    t.regs.fbin = 29 ∧ t.regs.hcnt = 4 ∧ t.regs.harm.get 0 = 0xC2F00000 ∧ t.regs.harm.get 1 = 0xC1A00000 := by
  decide +kernel
/-- V-FB-1, V-FB-6, V-FB-8. -/
theorem test_fundamentalBin : fundamentalBin Order.reset 0x472C4400 0x447A0000 = 46 ∧
    fundamentalBin order8 0x472C4400 0x42AC4400 = 1 ∧
    fundamentalBin ⟨15, by decide⟩ 0x45FA0000 0x469C4000 = 81920 := by decide +kernel
/-- V-DYN-2: a block of zeros is at −100 dB exactly. -/
theorem test_dyn_zero : let t := issue .producer (.dyn 0) (staged 4 (zeros 4) (zeros 4) [])
    t.dyn = [(0xC2C80000, 0xC2C80000)] ∧ t.regs.dynIn = 0xC2C80000 ∧ t.regs.cratio = 0x3F800000 := by decide +kernel
/-- V-DYN-7 and V-DYN-9: the ratio of the newest ten pairs. -/
theorem test_dyn_ratio :
    ratioSteps (List.replicate 9 (0, 0) ++ [(0x42200000, 0x41A00000)]) = [.reg .cratio 0x40000000] ∧
    ratioSteps (List.replicate 9 (0, 0) ++ [(0x42200000, 0xC1A00000)]) = [.reg .cratio 0xC0000000] := by
  decide +kernel
/-- V-ENV-1. -/
theorem test_env_attack : let t := issue .producer (.env 0) (staged 100 []
      (zeros 20 ++ List.replicate 30 0x3F000000 ++ List.replicate 50 0x3F800000) [])
    t.regs.attack = 0x3A32544A ∧ t.env.length = 100 := by decide +kernel
/-- V-ENV-6. -/
theorem test_env_values : (issue .producer (.env 0) (staged 2 [] [0xBF800000, 0x7FC00000] [])).env = [0x3F800000, 0] := by
  decide +kernel

/-- Rules R227, R324: a percentage beyond the binary32 range saturates; rule R227: +0.0 only for a power sum of 0. -/
theorem test_percent_saturates : keepPercent .reference 0x7F800000 = 0x7F7FFFFF ∧ keepPercent .reference 0 = 0 ∧
    keepPercent .tolerant 0 ≠ 0 := by decide

/-- Rules R225 to R227: with harmonic 2 at or above B, THD is +0.0; with a fundamental bin of 1 no bin is noise. -/
theorem test_percent_exact : thdWord Config.numerics [0, 0, 0, 0] 2 = 0 ∧ thdnWord Config.numerics [0, 0] 1 = 0 := by
  decide +kernel

/-! ### The FIFO -/

/-- V-FIFO-6, the second FWR: the slots wrap. -/
theorem test_fwr_wraps : let t := issue .producer (.fwr 0) { staged 3 [] [20, 21, 22] [] with
      fifoCap := cap4, fifo := { slots := [(0, 10), (1, 11), (2, 12)], rd := 2, wr := 3, count := 1 } }
    t.fifo.count = 4 ∧ t.fifo.queue 4 = [12, 20, 21, 22] ∧ t.fifo.slots = [(0, 21), (1, 22), (2, 12), (3, 20)] := by
  decide +kernel
/-- V-FIFO-7, FWR: what does not fit is dropped. -/
theorem test_fwr_drops : (issue .producer (.fwr 0) { staged 6 [] [1, 2, 3, 4, 5, 6] [] with fifoCap := cap4 }).fifo.queue 4 =
    [1, 2, 3, 4] := by decide +kernel
/-- V-FIFO-1, FRD. -/
theorem test_frd_takes : let t := issue .consumer (.frd 2) { State.reset with
      fifo := { slots := [(0, 10), (1, 11), (2, 12)], rd := 0, wr := 3, count := 3 } }
    t.outC = [⟨.ok, 2⟩] ∧ t.mem.block baseCons 2 = [10, 11] ∧ t.regs.consCnt = 2 ∧ t.fifo.count = 1 := by decide +kernel
/-- V-FIFO-10: a shorter FRD keeps the rest of CONS_BUF. -/
theorem test_frd_keeps : (issue .consumer (.frd 1) { State.reset with
      mem := { ram := [(0x080000, 1), (0x080001, 2), (0x080002, 3)], spectrum := [] }
      fifo := { slots := [(0, 9)], rd := 0, wr := 1, count := 1 } }).mem.block baseCons 3 = [9, 2, 3] := by
  decide +kernel

/-! ### Control -/

/-- V-CTL-3. -/
theorem test_trig : (issue .producer (.trig 0) State.reset).status.toWord = 4 ∧
    (issue .producer (.trig 0) State.reset).gen = 2 := by decide +kernel
/-- V-RST-2, V-IRQ-5. -/
theorem test_srst : let t := issue .producer (.srst 0) { staged 3 [] [0x3F800000] [] with
      gen := 10, irqEn := true, status := { Status.reset with ready := true }, mode := .imd, dyn := [(1, 2)] }
    (t.gen = 12 ∧ t.irq = false ∧ t.regs = Regs.reset ∧ t.mode = .linear ∧ t.dyn = []) ∧
      t.mem.read 0x020000 = 0x3F800000 := by decide +kernel
/-- LT-2: Port C's acknowledgement between the publication and the close of an ACC leaves READY at 0. -/
theorem test_interleaved_ack : (match core.run 3 { State.reset with
      status := { Status.reset with ready := false, valid := true }
      inFlight := some [⟨1, .flag .ready true⟩], gen := 1, sched := [.stepP 0, .portC, .stepP 0]
      inC := [0x02000001, 2] } with
    | .next t => !t.status.ready && t.gen == 2 && t.outP == [⟨.ok, 0⟩] && t.inFlight == none
    | _ => false) = true := by decide +kernel

/-! ### The assembler (rules R122, R123) -/

theorem test_assemble : assembleLine "C: RD CONS_BUF+0" = some (.consumer, .rd 0x080000) ∧
    assembleLine "WR MAG_L+92, f:-20 ; PRG-6" = some (.producer, .wr 0x04005C 0xC1A00000) := by decide +kernel
theorem test_assemble_pseudo : assembleLine "SETRATE 44100" = some (.producer, .wr 7 0x472C4400) ∧
    assembleLine "STAGE POST_L, 3, 0.5" = some (.producer, .wr 0x020003 0x3F000000) ∧
    assembleLine "CLRERR" = some (.producer, .wr 1 0x38) := by decide +kernel

/-! ### Witnesses: for every statement with hypotheses, a state and operands that meet them, one for each clause -/

/-- A FIFO of capacity 4 that holds two samples and wraps. -/
def fifo2 : Fifo := { slots := [(0, 11), (3, 10)], rd := 3, wr := 1, count := 2 }

/-- The power-on state with that FIFO. -/
def holding : State := { State.reset with fifoCap := cap4, fifo := fifo2 }

theorem fifo2_ok : FifoOk holding.fifoCap.val holding.fifo :=
  ⟨by decide, by decide, by decide, by decide, by decide, by decide⟩

/-- A state between commands that is not the power-on state: a legal rate, a sample accumulated, a pair, a FIFO in use. -/
def settledState : State :=
  { holding with
    mode := .harmonic
    gen := 6
    acc := [(1, 2)]
    dyn := [(0x42200000, 0x41A00000)]
    env := [0x3F800000]
    mem := { ram := [(0x020000, 7)], spectrum := [(0x040003, 9), (0x070003, 0xBF800000)] }
    regs := { Regs.reset with
      srate := 0x473B8000, blklen := 3, fbin := 5, hcnt := 1, dynIn := 0x42200000, dynOut := 0x41A00000
      thd := 0x3F800000, thdn := 0x40000000 } }

theorem settledState_settled : Settled settledState where
  mem := by decide +kernel
  fill := by decide +kernel
  linearIdle := by decide +kernel
  blklen := by decide +kernel
  srate := by decide +kernel
  tfreq := by decide +kernel
  fifo := fifo2_ok
  consCnt := by decide +kernel
  fbin := by decide +kernel
  hcnt := by decide +kernel
  harm := by decide +kernel
  thdn := by decide +kernel
  imd := by decide +kernel
  dynCnt := by decide +kernel
  dynNewest := by decide +kernel
  dynLevels := by decide +kernel
  envCnt := by decide +kernel
  envValues := fun w hw => by
    obtain rfl := List.mem_singleton.1 hw
    decide
  noNaN := by decide +kernel
  phases := by decide +kernel
  gen := by decide +kernel

/-- A TRIG under way in it: one write step to come, GEN odd. -/
def underWay : State :=
  { settledState with gen := 5, inFlight := some [⟨0, .flag .analyzing true⟩], sched := [.stepP 0] }

theorem underWay_drain : underWay.drain =
    { settledState with
      status := { Status.reset with analyzing := true }, outP := [⟨.ok, 0⟩], sched := [.stepP 0] } := by
  decide +kernel

theorem underWay_inv : Inv underWay where
  mem := settledState_settled.mem
  fifo := fifo2_ok
  inRam := by
    intro ws h x hx
    cases h
    obtain rfl := List.mem_singleton.1 hx
    rfl
  settled := by
    rw [underWay_drain]
    exact { settledState_settled with linearIdle := by decide +kernel }

/-- Nothing under way in it, GEN even, and two RD waiting on Port C. -/
def reading : State := { settledState with inC := [0x0100000B, 0x01000000], sched := [.portC, .portC] }

theorem reading_inv : Inv reading where
  mem := settledState_settled.mem
  fifo := fifo2_ok
  inRam := fun _ h => nomatch h
  settled := { settledState_settled with }

theorem witness_DecodedCommandsReencode : decode [0x02000007, 5, 9] = .command (.wr 7 5) [9] := by decide

theorem witness_ReservedOpcodesAnswerErrCmd :
    ((opcodeOf 0x03000000).toNat = 0x03 ∧ (opcodeOf 0x0F000000).toNat = 0x0F) ∧
    ((opcodeOf 0x16000000).toNat = 0x16 ∧ (opcodeOf 0x1E000000).toNat = 0x1E) ∧
    ((opcodeOf 0x21000000).toNat = 0x21 ∧ (opcodeOf 0xFF000000).toNat = 0xFF) ∧
    { State.reset with inC := [0xFF000000#32] }.inC = 0xFF000000#32 :: [] := by decide

theorem witness_LengthFollowsFromOpcode : opcodeOf 0x02000000 = 0x02 ∧ opcodeOf 0x01000000 ≠ 0x02 := by decide

theorem witness_AdapterBytesCarryWords : (5 : Word) ∈ [(5 : Word)] := by decide

theorem witness_StepRunsTheReceivedCommand :
    ({ State.reset with sched := [.wholeP], inP := [0] }.inFlight = none ∧ decode [0] = .command (.nop 0) []) ∧
    decode [0x20000004] = .command (.frd 4) [] ∧ State.reset.sched = [] ∧ decode State.reset.inC = .incomplete ∧
    decode State.reset.inP = .incomplete := by decide

theorem witness_IdleBlockDoesNotChange : State.reset.sched = [] ∧ State.reset.inFlight = none ∧
    decode State.reset.inP = .incomplete ∧ decode State.reset.inC = .incomplete := by decide

theorem witness_ErrorAnswersChangeOneStatusBit : ∃ t : State, exec (.acc 0) onC = .next t ∧
    t.lastResponse = some ⟨.errPort, 0⟩ ∧ (⟨.errPort, 0⟩ : Response).code ≠ .ok := ⟨_, rfl, rfl, by decide⟩

theorem witness_ErrorBitsAreSticky : ∃ t : State,
    exec (.nop 0) { State.reset with status := ⟨false, false, false, true, true, true⟩ } = .next t ∧
    (∀ d, Instr.nop 0 ≠ .wr statusAddr d) ∧ ∀ imm, Instr.nop 0 ≠ .srst imm := ⟨_, rfl, by simp, by simp⟩

theorem witness_OpcodesAreTiedToPorts : (Instr.srst 0).wellFormed onC.port = false ∧
    (Instr.frd 1).wellFormed State.reset.port = false := by decide

theorem witness_AccessErrorsInOrder :
    (0x08 < 0x090000 / 0x10000 ∧ 0x000025 / 0x10000 = 0 ∧ 0x24 < 0x000025 % 0x10000) ∧
    (State.reset.port = .producer ∧ 0x080000 / 0x10000 = 0x08) ∧
    (onC.port = .consumer ∧ ∀ a ∈ [0x010000, 0x03FFFF], 0x01 ≤ a / 0x10000 ∧ a / 0x10000 ≤ 0x03) ∧
    (∀ a ∈ [0x040000, 0x07FFFF], 0x04 ≤ a / 0x10000 ∧ a / 0x10000 ≤ 0x07) ∧
    (∀ a ∈ [0x000000, 0x000002, 0x000024], a / 0x10000 = 0 ∧ a % 0x10000 ≤ 0x24 ∧ a % 0x10000 ≠ 1) ∧
    (0x018000 / 0x10000 = 0x01 ∧ State.reset.blkMax.val ≤ 0x018000 % 0x10000) ∧
    (0x040400 / 0x10000 = 0x04 ∧ 2 ^ State.reset.order.val / 2 ≤ 0x040400 % 0x10000) ∧
    (0x088000 / 0x10000 = 0x08 ∧ onC.fifoCap.val ≤ 0x088000 % 0x10000) ∧
    (0x060000 / 0x10000 = 0x06 ∧ 0x070000 / 0x10000 = 0x07) ∧
    (∀ k ∈ [0x00, 0x05, 0x06, 0x0A, 0x24], k / 0x10000 = 0 ∧
      (k % 0x10000 = 0 ∨ 0x05 ≤ k % 0x10000 ∧ k % 0x10000 ≤ 0x06 ∨ 0x0A ≤ k % 0x10000)) := by decide +kernel

theorem witness_RdAnswersTheWord :
    (Register.ofIndex 0 = some .id ∧ Register.ofIndex 0x24 = some .blkMax) ∧
    (State.reset.port = .producer ∧ 0 < State.reset.blkMax.val ∧ 32767 < State.reset.blkMax.val) ∧
    1023 < 2 ^ State.reset.order.val / 2 ∧ onC.port = .consumer ∧ 32767 < onC.fifoCap.val := by decide +kernel

theorem witness_RegistersReadAsTheMapSays :
    (State.reset.acc.length < 2 ^ State.reset.order.val ∧
      { State.reset with acc := List.replicate 255 (0, 0), order := order8 }.acc.length < 2 ^ order8.val) ∧
    State.reset.dyn.length ≤ 1000 ∧ State.reset.env.length ≤ 1920000 ∧ State.reset.fifo.count ≤ 65536 ∧
    holding.fifo.count ≤ 65536 := by decide +kernel

theorem witness_ResetWordsReadAsTheMapSays :
    (∀ a ∈ [0x040000, 0x05FFFF], 0x040000 ≤ a ∧ a < 0x060000) ∧ (∀ a ∈ [0x060000, 0x07FFFF], 0x060000 ≤ a ∧ a < 0x080000) ∧
    ∀ a ∈ [0, 0x03FFFF, 0x080000], a < 0x040000 ∨ 0x080000 ≤ a := by decide

theorem witness_WrStagesAWord : State.reset.port = .producer ∧ 0 < State.reset.blkMax.val ∧
    32767 < State.reset.blkMax.val ∧ 0x010000 ∈ [0x010000, 0x020000, 0x030000] := by decide +kernel

theorem witness_WrMagIsATestAccess : State.reset.port = .producer ∧ 0 < 2 ^ State.reset.order.val / 2 ∧
    1023 < 2 ^ State.reset.order.val / 2 ∧ 0x050000 ∈ [0x040000, 0x050000] := by decide +kernel

theorem witness_WrCtrlSetsIrqEnable : State.reset.port = .producer := rfl

theorem witness_WrModeSwitchesAndResets : State.reset.port = .producer ∧
    (8 < (9 : Word).toNat ∧ (0 : Word) = Register.mode.read State.reset) ∧
    ((1 : Word).toNat ≤ 8 ∧ (1 : Word) ≠ Register.mode.read State.reset) ∧
    (8 : Word).toNat ≤ 8 ∧ (8 : Word) ≠ Register.mode.read State.reset := by decide +kernel

theorem witness_WrOrderResizes : State.reset.port = .producer ∧
    ((7 : Word).toNat < 8 ∧ 15 < (16 : Word).toNat ∧ (11 : Word).toNat = State.reset.order.val) ∧
    (8 ≤ (8 : Word).toNat ∧ (8 : Word).toNat ≠ State.reset.order.val) ∧
    ((15 : Word).toNat ≤ 15 ∧ (15 : Word).toNat ≠ State.reset.order.val) ∧
    2 ^ (8 : Word).toNat / 2 ≤ 128 ∧ 128 < 0x10000 := by decide +kernel

/-- The values of the patterns at and beside the bounds of SRATE and TFREQ. -/
theorem witness_WrSrateStoresLegalRates : State.reset.port = .producer ∧
    (f32IsFinite 0x45FA0000 = true ∧ Ideal.f32Real 0x45FA0000 = (8000 : Int)) ∧
    (f32IsFinite 0x483B8000 = true ∧ Ideal.f32Real 0x483B8000 = (192000 : Int)) ∧
    f32IsFinite 0x7FC00000 = false ∧ Ideal.f32Real 0x45F9F800 = (7999 : Int) ∧
    Ideal.f32Real 0x483B8040 = (192001 : Int) :=
  ⟨rfl, ⟨by decide, f32Real_of_int (by decide +kernel)⟩, ⟨by decide, f32Real_of_int (by decide +kernel)⟩, by decide,
    f32Real_of_int (by decide +kernel), f32Real_of_int (by decide +kernel)⟩

theorem witness_WrTfreqClamps : State.reset.port = .producer ∧ f32IsNaN 0x7FC00000 = true ∧
    (f32IsFinite 0x40A00000 = true ∧ Ideal.f32Real 0x40A00000 = (5 : Int)) ∧
    (f32IsFinite 0x47435000 = true ∧ Ideal.f32Real 0x47435000 = (50000 : Int)) ∧
    (f32IsFinite 0x41A00000 = true ∧ Ideal.f32Real 0x41A00000 = (20 : Int)) ∧
    (f32IsFinite 0x469C4000 = true ∧ Ideal.f32Real 0x469C4000 = (20000 : Int)) :=
  ⟨rfl, by decide, ⟨by decide, f32Real_of_int (by decide +kernel)⟩, ⟨by decide, f32Real_of_int (by decide +kernel)⟩,
    ⟨by decide, f32Real_of_int (by decide +kernel)⟩, ⟨by decide, f32Real_of_int (by decide +kernel)⟩⟩

theorem witness_WrBlklenWithinBlkMax : State.reset.port = .producer ∧ (32768 : Word).toNat ≤ State.reset.blkMax.val ∧
    State.reset.blkMax.val < (32769 : Word).toNat := by decide +kernel

theorem witness_AccCarriesSamplesAcrossTransforms : (staged8 .hammerstein 600 [] []).port = .producer ∧
    (staged8 .hammerstein 600 [] []).mode ≠ .linear ∧
    (staged8 .hammerstein 600 [] []).acc.length < 2 ^ (staged8 .hammerstein 600 [] []).order.val := by decide +kernel

/-- `staged8` in Linear mode, triggered, with 200 samples accumulated (V-ACC-7). -/
def triggered (len : Word) : State :=
  { staged8 .linear len [] [] with
    status := { Status.reset with analyzing := true }, acc := List.replicate 200 (0, 0) }

theorem witness_AccLinearOneShotGate :
    (State.reset.mode = .linear ∧ State.reset.status.analyzing = false ∧ State.reset.port = .producer ∧
      State.reset.acc.length < 2 ^ State.reset.order.val) ∧
    ((triggered 55).status.analyzing = true ∧ (triggered 55).acc.length + 55 < 2 ^ (triggered 55).order.val) ∧
    2 ^ (triggered 56).order.val ≤ (triggered 56).acc.length + 56 ∧
    (staged8 .harmonic 5 [] []).mode ≠ .linear := by decide +kernel

theorem witness_AccPublishesTheLastFullBlock :
    (staged8 .harmonic 256 [] []).mode ≠ .linear ∧ (triggered 56).status.analyzing = true ∧
    (staged8 .harmonic 256 [] []).acc.length < 2 ^ (staged8 .harmonic 256 [] []).order.val ∧
    2 ^ (staged8 .harmonic 256 [] []).order.val ≤ (staged8 .harmonic 256 [] []).acc.length + 256 ∧
    (127 < 2 ^ (triggered 56).order.val / 2 ∧ 2 ^ (triggered 56).order.val / 2 ≤ 0x040080 % 0x10000) := by decide +kernel

theorem witness_SpectrumWordsStayInRange : (1023 < 1024 ∧ ∃ w ∈ [(0x7FC00000 : Word)], f32IsFinite w = false) ∧
    ∀ n < [(0 : Word), 0].length, f32IsFinite ([(0 : Word), 0].getD n 0) = true ∧ Ideal.working [0, 0] false n = 0 := by
  refine ⟨⟨by decide, _, List.mem_singleton.2 rfl, by decide⟩, fun n _ => ?_⟩
  have h : ([0, 0] : List Word).getD n 0 = 0 := by rcases n with _ | _ | n <;> rfl
  have h0 : f32Int 0 = 0 := by decide
  rw [h]
  exact ⟨by decide, by rw [Ideal.working, h, Ideal.f32Real, h0]; simp⟩

/-- POST_R differs, POST_L does not. -/
theorem witness_ChannelsAreIndependent :
    let s := staged8 .harmonic 2 [1, 2] [3, 4]
    let s' := staged8 .harmonic 2 [1, 2] [5, 6]
    (s.port = .producer ∧ s.mode = s'.mode ∧ s.order = s'.order ∧ s.status.analyzing = s'.status.analyzing ∧
      s.regs.blklen = s'.regs.blklen ∧ s.acc.map Prod.fst = s'.acc.map Prod.fst) ∧
    (∀ j < s.regs.blklen.toNat, s.mem.read (0x020000 + j) = s'.mem.read (0x020000 + j)) ∧
    ∀ a ∈ [0x040000, 0x06FFFF], (0x040000 ≤ a ∧ a < 0x050000 ∨ 0x060000 ≤ a ∧ a < 0x070000) ∧
      s.mem.read a = s'.mem.read a := by decide +kernel

/-- An untriggered Linear ACC, and 255 samples into an empty block of 256, complete no transform; 256 do. -/
theorem witness_AccLeavesTheRest : State.reset.port = .producer ∧
    (State.reset.mode = .linear ∧ State.reset.status.analyzing = false) ∧
    (staged8 .harmonic 255 [] []).acc.length + (staged8 .harmonic 255 [] []).regs.blklen.toNat <
      2 ^ (staged8 .harmonic 255 [] []).order.val ∧
    (∀ a ∈ [0x03FFFF, 0x080000, 0x040080],
      a < 0x040000 ∨ 0x080000 ≤ a ∨ 2 ^ (staged8 .harmonic 255 [] []).order.val / 2 ≤ a % 0x10000) ∧
    (State.reset.mode ≠ .harmonic ∧
      State.reset.mode ≠ .thdSweep ∧ State.reset.mode ≠ .imd) ∧ (staged8 .imd 256 [] []).mode = .imd ∧
    (staged8 .imd 256 [] []).acc.length < 2 ^ (staged8 .imd 256 [] []).order.val ∧
    2 ^ (staged8 .imd 256 [] []).order.val ≤
      (staged8 .imd 256 [] []).acc.length + (staged8 .imd 256 [] []).regs.blklen.toNat := by decide +kernel

theorem witness_QuotientsAreCorrectlyRounded : (-3 : Int) ≠ 0 := by decide

theorem f32Real_zero : Ideal.f32Real 0 = 0 := f32Real_of_isZero (by decide)

theorem witness_ConformingResultsAreStored :
    (degenerate [0, 0] = false ∧ 0 < 1 ∧
      MagOk looseNumerics [0, 0] false 0 (looseNumerics.mag (workingKey false [0, 0]) false 0) ∧
      PhOk looseNumerics [0, 0] false 0 (looseNumerics.ph (workingKey false [0, 0]) false 0)) ∧
    (1 ≤ 1 ∧ 1 < [(0 : Word), 0, 0].length ∧ ThdValueOk looseNumerics [0, 0, 0] 1 (looseNumerics.thd [0, 0, 0] 1) ∧
      ThdnValueOk looseNumerics [0, 0, 0] 1 (looseNumerics.thdn [0, 0, 0] 1)) ∧
    degenerate [1] = false ∧ RmsOk looseNumerics [1] (looseNumerics.rmsDb [1]) :=
  ⟨⟨by decide, by decide, loose_magOk _ _ _ _, loose_phOk _ _ _ _⟩,
    ⟨by decide, by decide, loose_thdOk _ _, loose_thdnOk (by decide) (by decide)⟩, by decide, loose_rmsOk _⟩

theorem witness_StoredPercentagesMeetThdOk : 1 ≤ 1 ∧ 1 < [(0 : Word), 0, 0].length ∧
    ThdValueOk looseNumerics [0, 0, 0] 1 (looseNumerics.thd [0, 0, 0] 1) ∧
    ThdnValueOk looseNumerics [0, 0, 0] 1 (looseNumerics.thdn [0, 0, 0] 1) :=
  ⟨by decide, by decide, loose_thdOk _ _, loose_thdnOk (by decide) (by decide)⟩

/-- A block of 256 samples that is 0 but for sample 85, where the Hann window is 3/4. -/
def impulse (w : Word) : List Word := (zeros 256).set 85 w

theorem hann_85 : Ideal.hann 256 85 = 3 / 4 := by
  rw [Ideal.hann, show 2 * Real.pi * (85 : ℕ) / (((256 : ℕ) : ℝ) - 1) = Real.pi - Real.pi / 3 by push_cast; ring,
    Real.cos_pi_sub, Real.cos_pi_div_three]
  norm_num

/-- 1.0 windowed and 0.75 unwindowed are the same working values. -/
theorem impulse_sameWorking : Ideal.SameWorking (impulse 0x3F800000) true (impulse 0x3F400000) false := by
  have hlen (w : Word) : (impulse w).length = 256 := by rw [impulse, zeros, List.length_set, List.length_replicate]
  have hget (w : Word) (n : ℕ) : (impulse w).getD n 0 = if n = 85 then w else 0 := by
    rcases Nat.lt_or_ge n 256 with hn | hn
    · rw [List.getD_eq_getElem _ _ (by rwa [hlen])]
      simp only [impulse, zeros, List.getElem_set, List.getElem_replicate, eq_comm]
    · rw [List.getD_eq_default _ _ (by rwa [hlen]), if_neg (by omega)]
  refine ⟨by rw [hlen, hlen], fun n _ => ?_⟩
  rw [Ideal.working, Ideal.working, hget, hget, hlen]
  split
  · subst n
    rw [if_pos rfl, hann_85, Ideal.f32Real, Ideal.f32Real, show f32Int 0x3F800000 = 2 ^ 149 by decide +kernel,
      show f32Int 0x3F400000 = 3 * 2 ^ 147 by decide +kernel]
    norm_num
  · rw [f32Real_zero, zero_mul, zero_mul]

/-- A windowed and an unwindowed block with the same working values; silent blocks have admissible results in both numerics
modes. -/
theorem witness_StoredResultsMeetTheirProperties :
    (degenerate (impulse 0x3F800000) = false ∧ degenerate (impulse 0x3F400000) = false ∧
      Ideal.SameWorking (impulse 0x3F800000) true (impulse 0x3F400000) false) ∧
    (degenerate [0, 0] = false ∧ 0 < [(0 : Word), 0].length / 2 ∧ (∃ w, MagOk Config.numerics [0, 0] false 0 w) ∧
      ∃ w, PhOk Config.numerics [0, 0] false 0 w) ∧
    (1 ≤ 1 ∧ 1 < [(0 : Word), 0].length ∧ (∃ w, ThdValueOk Config.numerics [0, 0] 1 w) ∧
      ∃ w, ThdnValueOk Config.numerics [0, 0] 1 w) ∧
    [(0 : Word)] ≠ [] ∧ degenerate [0] = false ∧ ∃ w, RmsOk Config.numerics [0] w := by
  refine ⟨⟨by decide +kernel, by decide +kernel, impulse_sameWorking⟩, ⟨by decide, by decide, ?_⟩,
    ⟨by decide, by decide, ?_⟩, by decide, by decide, ?_⟩ <;>
    rcases hm : Config.numerics.mode with _ | _
  · exact ⟨(exists_magOk hm (by decide) (by decide) false 0).imp fun _ h => h.1,
      (exists_phOk hm [0, 0] false 0).imp fun _ h => h.1⟩
  · exact ⟨⟨_, tolerant_magOk hm (by decide) 0⟩, _, tolerant_phOk hm (by decide) 0⟩
  · exact ⟨(exists_percentOk hm _ (thd_nonneg _ _)).imp fun _ h => h.1,
      (exists_percentOk hm _ (thdn_nonneg _ _)).imp fun _ h => h.1⟩
  · exact ⟨⟨0, tolerant_percentOk hm (harmonicPower_eq_zero_iff.2 (by decide))⟩,
      0, tolerant_percentOk hm ((powers_eq_zero_iff (by decide) (by decide)).2 (by decide))⟩
  · exact (exists_rmsOk hm (by decide)).imp fun _ h => h.1
  · exact ⟨_, tolerant_rmsOk hm (by simp; decide)⟩

/-- Some numerics in `reference` mode conform, and a block of 256 samples of 0 is outside the overflow band. -/
theorem witness_ReferenceModeStoresTheRoundedIdeals :
    (∃ num : Numerics, Conforms num ∧ num.mode = .reference) ∧
    ((zeros 256).length = 2 ^ order8.val ∧ degenerate (zeros 256) = false ∧ 127 < 2 ^ order8.val / 2 ∧
      ¬OverflowBand (zeros 256) true) ∧
    (1 ≤ 1 ∧ 1 < [(0 : Word), 0].length) ∧ [(1 : Word)] ≠ [] ∧ degenerate [1] = false := by
  refine ⟨?_, ⟨by decide +kernel, by decide +kernel, by decide, ?_⟩, ⟨by decide, by decide⟩, by decide, by decide⟩
  · obtain ⟨mag, ph, thd, thdn, rms, h⟩ := exists_conforming { looseNumerics with mode := .reference }
    exact ⟨_, h, rfl⟩
  · rintro ⟨n, -, h⟩
    rw [working_of_silent (by decide +kernel), abs_zero, mul_zero] at h
    norm_num at h

theorem witness_FundamentalBinIsExact : 0 < 1 ∧ legalRate 0x45FA0000 = true ∧ legalRate 0x483B8000 = true ∧
    legalFreq 0x41A00000 = true ∧ legalFreq 0x469C4000 = true := by decide +kernel

theorem witness_ThdWritesTheDistortionResults :
    let low := { State.reset with order := order8, regs := { Regs.reset with tfreq := 0x41A00000 } }
    let high := { State.reset with order := order8, regs := { Regs.reset with tfreq := 0x469C4000, srate := 0x45FA0000 } }
    low.port = .producer ∧ fundamentalBin low.order low.regs.srate low.regs.tfreq < 1 ∧
    2 ^ high.order.val / 2 ≤ fundamentalBin high.order high.regs.srate high.regs.tfreq ∧
    1 ≤ fundamentalBin Order.reset Regs.reset.srate Regs.reset.tfreq ∧
    fundamentalBin Order.reset Regs.reset.srate Regs.reset.tfreq < 2 ^ Order.reset.val / 2 := by decide +kernel

theorem witness_DynAppendsALevelPair : State.reset.port = .producer ∧ State.reset.regs.blklen = 0 ∧
    (staged 1 [0] [0] []).regs.blklen ≠ 0 ∧ (staged 1 [0] [0] []).dyn.length < 1000 ∧
    { staged 1 [0] [0] [] with dyn := List.replicate 1000 (0, 0) }.dyn.length = 1000 := by decide +kernel

theorem witness_LevelsStayInRange : (∃ w ∈ [(0x7F800000 : Word)], f32IsFinite w = false) ∧
    (∀ w ∈ [(0 : Word)], f32IsFinite w = true ∧ Ideal.f32Real w = 0) ∧
    looseNumerics.mode = .tolerant ∧ levelWord looseNumerics [0] = 0xC2C80000 := by
  refine ⟨⟨_, List.mem_singleton.2 rfl, by decide⟩, fun w hw => ?_, rfl, by decide⟩
  obtain rfl := List.mem_singleton.1 hw
  exact ⟨by decide, f32Real_zero⟩

/-- A dynamics series of nine equal pairs, and silent blocks staged: the newest pair will be (−100, −100). -/
def ninePairs (level : Word) : State := { staged 1 [0] [0] [] with dyn := List.replicate 9 (level, level) }

theorem witness_DynRatioIsCorrectlyRounded : (ninePairs 0).port = .producer ∧ (ninePairs 0).regs.blklen ≠ 0 ∧
    (issue .producer (.dyn 0) (staged 1 [0] [0] [])).dyn.length < 10 ∧
    (let t := issue .producer (.dyn 0) (ninePairs 0);
      10 ≤ t.dyn.length ∧ t.dyn[t.dyn.length - 1]? = some (0xC2C80000, 0xC2C80000) ∧
        t.dyn[t.dyn.length - 10]? = some (0, 0)) ∧
    (let t := issue .producer (.dyn 0) (ninePairs 0xC2C80000);
      t.dyn[t.dyn.length - 1]? = some (0xC2C80000, 0xC2C80000) ∧
        t.dyn[t.dyn.length - 10]? = some (0xC2C80000, 0xC2C80000)) ∧
    (1 < |Ideal.f32Real 0xC2C80000 - Ideal.f32Real 0| ∧ Ideal.f32Real 0xC2C80000 - Ideal.f32Real 0 ≠ 0) ∧
    |Ideal.f32Real 0xC2C80000 - Ideal.f32Real 0xC2C80000| ≤ 1 := by
  refine ⟨by decide +kernel, by decide +kernel, by decide +kernel, by decide +kernel, by decide +kernel, ?_, by simp⟩
  rw [show (0xC2C80000 : Word) = Config.dynFloor from rfl, f32Real_dynFloor, f32Real_zero]
  norm_num

theorem witness_EnvAppendsMagnitudes : State.reset.port = .producer ∧ legalRate State.reset.regs.srate = true ∧
    State.reset.regs.blklen = 0 ∧ (staged 1 [] [0] []).regs.blklen ≠ 0 := by decide +kernel

/-- 99 entries of the envelope series, and a last sample staged. -/
def envState (entries : List Word) (sample : Word) : State := { staged 1 [] [sample] [] with env := entries }

/-- Two rises: the last two entries are 0.5 and 1.0 in one state, and only the last entry is above 0 in the other. -/
theorem witness_EnvAttackTimeIsCorrectlyRounded :
    let t := issue .producer (.env 0) (envState (zeros 98 ++ [0x3F000000]) 0x3F800000)
    let u := issue .producer (.env 0) (envState (zeros 99) 0x3F800000)
    let v := issue .producer (.env 0) (envState (zeros 99) 0x7F800000)
    ((envState (zeros 99) 0).port = .producer ∧ (envState (zeros 99) 0).regs.blklen ≠ 0 ∧
      legalRate (envState (zeros 99) 0).regs.srate = true ∧
      ((envState (zeros 98 ++ [0x3F000000]) 0).env.all fun w => decide (w.toNat ≤ f32Inf.toNat)) = true ∧
      (issue .producer (.env 0) (envState [] 0)).env.length < 100) ∧
    (t.env = zeros 98 ++ [0x3F000000, 0x3F800000] ∧ 100 ≤ t.env.length ∧ f32Inf ∉ t.env) ∧
    (u.env = zeros 99 ++ [0x3F800000] ∧ 100 ≤ u.env.length ∧ f32Inf ∉ u.env) ∧
    (100 ≤ v.env.length ∧ f32Inf ∈ v.env.drop (v.env.length - 100)) := by decide +kernel

/-- In the first of those windows a tenth of the peak is first reached at 98 and nine tenths at 99. -/
theorem witness_EnvAttackTimeIsCorrectlyRounded_indices :
    let window := zeros 98 ++ [0x3F000000, 0x3F800000]
    (∀ w ∈ window, Ideal.f32Real w ≤ Ideal.f32Real 0x3F800000) ∧
    IsLeast { j | j < 100 ∧ Ideal.f32Real 0x3F800000 / 10 ≤ Ideal.f32Real (window.getD j 0) } 98 ∧
    IsLeast { j | j < 100 ∧ 9 * Ideal.f32Real 0x3F800000 / 10 ≤ Ideal.f32Real (window.getD j 0) } 99 := by
  have h1 : Ideal.f32Real 0x3F800000 = 1 := by
    rw [f32Real_of_int (n := 1) (by decide +kernel)]
    norm_num
  have h2 : Ideal.f32Real 0x3F000000 = 1 / 2 := by
    have h : f32Int 0x3F000000 = 2 ^ 148 := by decide +kernel
    rw [Ideal.f32Real, h]
    norm_num
  have hz : ∀ j < 98, (zeros 98 ++ [0x3F000000, 0x3F800000]).getD j 0 = 0 := by decide +kernel
  have h98 : (zeros 98 ++ [0x3F000000, 0x3F800000]).getD 98 0 = 0x3F000000 := by decide +kernel
  have h99 : (zeros 98 ++ [0x3F000000, 0x3F800000]).getD 99 0 = 0x3F800000 := by decide +kernel
  refine ⟨fun w hw => ?_, ⟨⟨by norm_num, ?_⟩, fun j hj => ?_⟩, ⟨⟨by norm_num, ?_⟩, fun j hj => ?_⟩⟩
  · rw [h1]
    simp only [zeros, List.mem_append, List.mem_replicate, List.mem_cons, List.not_mem_nil, or_false] at hw
    rcases hw with ⟨-, rfl⟩ | rfl | rfl
    · rw [f32Real_zero]
      norm_num
    · rw [h2]
      norm_num
    · rw [h1]
  · rw [h98, h1, h2]
    norm_num
  · by_contra hlt
    have h := hj.2
    rw [hz j (by omega), h1, f32Real_zero] at h
    norm_num at h
  · rw [h99, h1]
    norm_num
  · by_contra hlt
    have h := hj.2
    have : j < 98 ∨ j = 98 := by omega
    rcases this with hlt | rfl
    · rw [hz j hlt, h1, f32Real_zero] at h
      norm_num at h
    · rw [h98, h1, h2] at h
      norm_num at h

theorem witness_FwrAppendsWhatFits : holding.port = .producer ∧ FifoOk holding.fifoCap.val holding.fifo :=
  ⟨rfl, fifo2_ok⟩

theorem witness_FrdTakesTheOldest : { holding with port := .consumer }.port = .consumer ∧
    FifoOk { holding with port := .consumer }.fifoCap.val { holding with port := .consumer }.fifo ∧
    1 < min (2 : BitVec 24).toNat holding.fifo.count := ⟨rfl, fifo2_ok, by decide⟩

theorem witness_FifoDeliversInOrder : FifoOk holding.fifoCap.val holding.fifo ∧
    (∀ c ∈ [(Port.producer, Instr.fwr 0), (.consumer, .frd 3), (.consumer, .srst 0)], ∀ imm,
      c ≠ (.producer, .srst imm)) ∧ State.reset.fifo.count = 0 := ⟨fifo2_ok, by simp, rfl⟩

theorem witness_FifoIsIndependent : (∃ t : State, exec (.trig 0) State.reset = .next t) ∧
    (∀ imm, Instr.trig 0 ≠ .fwr imm) ∧ (∀ m, Instr.trig 0 ≠ .frd m) ∧ (∀ imm, Instr.trig 0 ≠ .srst imm) ∧
    (holding.port = .producer ∧ onC.port = .consumer) ∧ FifoOk holding.fifoCap.val holding.fifo :=
  ⟨⟨_, rfl⟩, by simp, by simp, by simp, ⟨rfl, rfl⟩, fifo2_ok⟩

theorem witness_TrigArmsTheCapture : State.reset.port = .producer := rfl

theorem witness_SrstGivesThePowerOnState : State.reset.port = .producer ∧
    (∀ a ∈ [0x040000, 0x07FFFF], 0x040000 ≤ a ∧ a < 0x080000) ∧ ∀ a ∈ [0x03FFFF, 0x080000], a < 0x040000 ∨ 0x080000 ≤ a := by
  decide

/-- READY rises by an ACC, and falls by an acknowledgement; IRQ rises by a WR of CTRL and falls by another. -/
theorem witness_NotificationHasOneCause :
    (∃ t : State, exec (.acc 0) (silentCapture .imd false) = .next t ∧
      (t.regs.seq ≠ 0 ∧ t.status.ready = true)) ∧
    (∃ t : State, exec (.wr statusAddr 2) { State.reset with status := { Status.reset with ready := true } } = .next t ∧
      t.status.ready = false) ∧
    (∃ t : State, exec (.wr 2 1) { State.reset with status := { Status.reset with ready := true } } = .next t ∧
      t.irq = true) ∧
    ∃ t : State, exec (.wr 2 2) { State.reset with irqEn := true, status := { Status.reset with ready := true } } = .next t ∧
      t.irq = false :=
  ⟨⟨_, exec_bracketed rfl rfl, by decide +kernel⟩, ⟨_, exec_wr_status _ _, by decide +kernel⟩,
    ⟨_, exec_wr_ok (by decide +kernel) (by decide), by decide +kernel⟩,
    ⟨_, exec_wr_ok (by decide +kernel) (by decide), by decide +kernel⟩⟩

theorem witness_GenBracketsPortPCommands : ∃ t : State, exec (.wr 2 1) State.reset = .next t ∧
    t.lastResponse = some ⟨.ok, 0⟩ ∧ (2 : BitVec 24) ≠ 0x000001 := ⟨_, rfl, rfl, by decide⟩

theorem witness_PortCOwnsOnlyTheReadSide : ∃ t : State, { holding with port := .consumer }.port = .consumer ∧
    FifoOk { holding with port := .consumer }.fifoCap.val { holding with port := .consumer }.fifo ∧
    exec (.frd 1) { holding with port := .consumer } = .next t := ⟨_, rfl, fifo2_ok, rfl⟩

theorem witness_BegunCommandsFinishAsTheWhole : ∃ t : State, { State.reset with inP := [0x15000000] }.inFlight = none ∧
    { State.reset with inP := [0x15000000] }.mem.wf = true ∧
    beginP { State.reset with inP := [0x15000000] } = .next t ∧ t.inFlight.isSome = true := ⟨_, rfl, rfl, rfl, rfl⟩

theorem witness_AnyStepOrderEndsTheSame :
    underWay.inFlight = some [⟨0, .flag .analyzing true⟩] ∧ underWay.mem.wf = true ∧
    (∀ w ∈ [(⟨0, .flag .analyzing true⟩ : Write)], w.inRam = true) ∧ [(⟨0, .flag .analyzing true⟩ : Write)] ≠ [] :=
  ⟨rfl, settledState_settled.mem, by decide, by simp⟩

theorem witness_ReadyIsSetLast :
    (∃ pre w post, accSteps Config.numerics (silentCapture .hammerstein false) = pre ++ w :: post ∧
      w.step = .flag .ready true) ∧
    ∃ rest : List Write, ((⟨1, .flag .ready true⟩ : Write), rest) ∈ nextSteps [⟨1, .flag .ready true⟩] := by
  refine ⟨?_, [], by decide⟩
  have h : (accSteps Config.numerics (silentCapture .hammerstein false)).any
      (fun w => w.step == .flag .ready true) = true := by decide +kernel
  obtain ⟨w, hw, hs⟩ := List.any_eq_true.1 h
  obtain ⟨pre, post, e⟩ := List.append_of_mem hw
  exact ⟨pre, w, post, e, by simpa using hs⟩

/-- Port C reads GEN, then IDLE, while Port P has nothing under way. -/
theorem witness_EqualGenMeansAConsistentSnapshot : ∃ t u : State, 2 < 2 ^ 31 ∧ Inv reading ∧
    reading.gen.toNat % 2 = 0 ∧ core.run 2 reading = .next t ∧ t.gen = reading.gen ∧ 1 ≤ 2 ∧
    core.run 1 reading = .next u := ⟨_, _, by decide, reading_inv, rfl, rfl, rfl, by decide, rfl⟩

theorem witness_CommandsKeepTheSettledState : ∃ t : State, Settled settledState ∧
    exec (.thd 0) settledState = .next t := ⟨_, settledState_settled, rfl⟩

theorem witness_StepsKeepTheInvariant : ∃ t : State, Inv underWay ∧ step underWay = .next t ∧ t.inFlight = some [] :=
  ⟨_, underWay_inv, rfl, rfl⟩

end Sys2Proof.Tests
end

section
/-! ## Correct rounding of quotients (rule R9) -/

open Sys2Proof.Machine.Ideal

namespace Sys2Proof.Machine

/-! ### The nearest bits -/

/-- The bits `n` have the magnitude nearest to `a`, and of two equally near ones the even bits. There is no overflow here: the
bits at and above those of +Inf go on as the exponent does. -/
def NearestBits (a : ℝ) (n : ℕ) : Prop :=
  (∀ k, |a - realOf n| ≤ |a - realOf k|) ∧ (n % 2 = 0 ∨ ∀ k, |a - realOf n| = |a - realOf k| → k = n)

theorem realOf_zero : realOf 0 = 0 := by simp [realOf, magOf]

/-- The bits of the largest finite binary32. -/
theorem realOf_f32Max : realOf 0x7F7FFFFF = 2 ^ 128 - 2 ^ 104 := by
  rw [realOf, show magOf 0x7F7FFFFF = (2 ^ 24 - 1) * 2 ^ 253 by decide +kernel]
  norm_num

/-- Where +Inf stands in the order of the bits, one step above the largest finite value. -/
theorem realOf_f32Inf : realOf 0x7F800000 = 2 ^ 128 := by
  rw [realOf, show magOf 0x7F800000 = 2 ^ 128 * 2 ^ 149 by decide +kernel]
  norm_num

theorem nearestBits_zero {n : ℕ} (h : NearestBits 0 n) : n = 0 := by
  have h0 := h.1 0
  rw [realOf_zero, sub_zero, abs_zero, zero_sub, abs_neg, abs_of_nonneg (realOf_nonneg n)] at h0
  exact realOf_strictMono.injective (by rw [realOf_zero]; exact le_antisymm h0 (realOf_nonneg n))

/-- Below the overflow threshold the nearest bits are finite. -/
theorem nearestBits_finite {a : ℝ} {n : ℕ} (h : NearestBits a n) (ha : a < 2 ^ 128 - 2 ^ 103) : n < 0x7F800000 := by
  by_contra hn
  have hle : (2 : ℝ) ^ 128 ≤ realOf n := realOf_f32Inf ▸ realOf_strictMono.monotone (not_lt.1 hn)
  have hnear := h.1 0x7F7FFFFF
  rw [realOf_f32Max, abs_of_neg (by linarith)] at hnear
  rcases abs_choice (a - (2 ^ 128 - 2 ^ 104)) with e | e <;> rw [e] at hnear <;> linarith

/-- At and above the overflow threshold they are not. -/
theorem nearestBits_overflow {a : ℝ} {n : ℕ} (h : NearestBits a n) (ha : 2 ^ 128 - 2 ^ 103 ≤ a) : 0x7F800000 ≤ n := by
  by_contra hn
  have hle : realOf n ≤ 2 ^ 128 - 2 ^ 104 := realOf_f32Max ▸ realOf_strictMono.monotone (by omega)
  have hnear := h.1 0x7F800000
  rw [realOf_f32Inf, abs_of_nonneg (by linarith)] at hnear
  -- Only the middle itself is as near to the largest finite value, whose bits are odd.
  have hmid : a = 2 ^ 128 - 2 ^ 103 ∧ realOf n = 2 ^ 128 - 2 ^ 104 := by
    rcases abs_choice (a - 2 ^ 128) with e | e <;> rw [e] at hnear <;> constructor <;> linarith
  have hmax : n = 0x7F7FFFFF := realOf_strictMono.injective (by rw [hmid.2, realOf_f32Max])
  rcases h.2 with heven | huniq
  · omega
  · have := huniq 0x7F800000 (by rw [realOf_f32Inf, hmid.1, hmid.2]; norm_num [abs_of_neg])
    omega

/-- Rounding to the nearest bits with the sign of `r`, cut off at +Inf, is roundTiesToEven (rule R9). -/
theorem isRne_signed {r : ℝ} {n : ℕ} (h : NearestBits |r| n) :
    IsRne r (signed (decide (r < 0)) (min n 0x7F800000)) := by
  by_cases hr : 2 ^ 128 - 2 ^ 103 ≤ |r|
  · rw [IsRne, if_pos hr, min_eq_right (nearestBits_overflow h hr)]
    by_cases hneg : r < 0 <;> simp [hneg, signed]
  have hn := nearestBits_finite h (not_le.1 hr)
  have hn' : n < 2 ^ 31 := by omega
  have hz (h0 : r = 0) : realOf n = 0 := by
    rw [h0, abs_zero] at h
    rw [nearestBits_zero h, realOf_zero]
  rw [IsRne, if_neg hr, min_eq_left hn.le]
  refine ⟨(f32IsFinite_iff _).2 (by rwa [f32Abs_signed _ hn']), fun v _ => ?_, fun v _ hne he => ?_, fun _ => ?_⟩
  · rw [dist_signed r hn']
    exact (h.1 _).trans (dist_ge r v)
  · rcases h.2 with heven | huniq
    · rw [lsb_signed, heven]
      rfl
    · rw [dist_signed r hn'] at he
      have hbits := huniq _ (le_antisymm (h.1 _) (he ▸ dist_ge r v))
      exact absurd (value_of_dist hn' hz hbits he.symm) hne
  · rw [f32Sign_signed _ hn', decide_eq_true_iff]

/-! ### The bits that `rneMagBits` computes -/

/-- Of the bits on both sides of `a`, those at a distance of at most half the gap are the nearest. -/
theorem nearestBits_lower {a : ℝ} {m : ℕ} (lo : realOf m ≤ a) (near : a - realOf m ≤ realOf (m + 1) - a)
    (even : a - realOf m = realOf (m + 1) - a → m % 2 = 0) : NearestBits a m := by
  have below {k : ℕ} (hk : k ≤ m) : realOf k ≤ realOf m := realOf_strictMono.monotone hk
  have above {k : ℕ} (hk : m < k) : realOf (m + 1) ≤ realOf k := realOf_strictMono.monotone hk
  rw [NearestBits, abs_of_nonneg (sub_nonneg.2 lo)]
  refine ⟨fun k => ?_, ?_⟩
  · rcases Nat.lt_or_ge m k with hk | hk
    · exact le_abs.2 (.inr (by linarith [above hk]))
    · exact le_abs.2 (.inl (by linarith [below hk]))
  · refine or_iff_not_imp_left.2 fun hodd k he => ?_
    have hlt : a - realOf m < realOf (m + 1) - a := lt_of_le_of_ne near fun e => hodd (even e)
    rcases Nat.lt_or_ge m k with hk | hk
    · rw [abs_of_nonpos (by linarith [above hk])] at he
      linarith [above hk]
    · rw [abs_of_nonneg (by linarith [below hk])] at he
      exact realOf_strictMono.injective (by linarith)

theorem nearestBits_upper {a : ℝ} {m : ℕ} (hi : a ≤ realOf (m + 1)) (near : realOf (m + 1) - a ≤ a - realOf m)
    (even : a - realOf m = realOf (m + 1) - a → (m + 1) % 2 = 0) : NearestBits a (m + 1) := by
  have below {k : ℕ} (hk : k ≤ m) : realOf k ≤ realOf m := realOf_strictMono.monotone hk
  have above {k : ℕ} (hk : m < k) : realOf (m + 1) ≤ realOf k := realOf_strictMono.monotone hk
  rw [NearestBits, abs_sub_comm, abs_of_nonneg (sub_nonneg.2 hi)]
  refine ⟨fun k => ?_, ?_⟩
  · rcases Nat.lt_or_ge m k with hk | hk
    · exact le_abs.2 (.inr (by linarith [above hk]))
    · exact le_abs.2 (.inl (by linarith [below hk]))
  · refine or_iff_not_imp_left.2 fun hodd k he => ?_
    have hlt : realOf (m + 1) - a < a - realOf m := lt_of_le_of_ne near fun e => hodd (even e.symm)
    rcases Nat.lt_or_ge m k with hk | hk
    · rw [abs_of_nonpos (by linarith [above hk])] at he
      exact realOf_strictMono.injective (by linarith)
    · rw [abs_of_nonneg (by linarith [below hk])] at he
      linarith [below hk]

/-- The magnitude of a significand of at most 24 bits, and of its carry into the exponent field. -/
theorem magOf_shifted {e s : ℕ} (hs : s ≤ 2 ^ 24) (he : e = 0 ∨ 2 ^ 23 ≤ s) : magOf (e * 2 ^ 23 + s) = s * 2 ^ e := by
  rcases Nat.lt_or_ge s (2 ^ 23) with h1 | h1
  · obtain rfl : e = 0 := by omega
    rw [magOf, if_pos (by omega)]
    omega
  · rcases Nat.lt_or_ge s (2 ^ 24) with h2 | h2
    · rw [magOf, show (e * 2 ^ 23 + s) / 2 ^ 23 = e + 1 by omega, show (e * 2 ^ 23 + s) % 2 ^ 23 = s - 2 ^ 23 by omega,
        if_neg (Nat.succ_ne_zero e), Nat.add_sub_cancel, Nat.add_sub_cancel' h1]
    · obtain rfl : s = 2 ^ 24 := by omega
      rw [magOf, show (e * 2 ^ 23 + 2 ^ 24) / 2 ^ 23 = e + 2 by omega,
        show (e * 2 ^ 23 + 2 ^ 24) % 2 ^ 23 = 0 by omega, if_neg (Nat.succ_ne_zero (e + 1))]
      show (2 ^ 23 + 0) * 2 ^ (e + 1) = 2 ^ 24 * 2 ^ e
      ring

/-- The significand before rounding has at most 24 bits, and 24 where the quotient is shifted (rule R9). -/
theorem significand_bounds (q : ℕ) :
    q / 2 ^ (Nat.log2 q - 23) < 2 ^ 24 ∧ (Nat.log2 q - 23 = 0 ∨ 2 ^ 23 ≤ q / 2 ^ (Nat.log2 q - 23)) := by
  have hlt : q < 2 ^ (Nat.log2 q + 1) := Nat.lt_log2_self
  constructor
  · rw [Nat.div_lt_iff_lt_mul (Nat.two_pow_pos _), ← pow_add]
    exact hlt.trans_le (Nat.pow_le_pow_right (by norm_num) (by omega))
  · rcases Nat.eq_zero_or_pos (Nat.log2 q - 23) with h0 | hpos
    · exact .inl h0
    · right
      have hq : q ≠ 0 := by
        rintro rfl
        simp at hpos
      rw [Nat.le_div_iff_mul_le (Nat.two_pow_pos _), ← pow_add, show 23 + (Nat.log2 q - 23) = Nat.log2 q by omega]
      exact Nat.log2_self_le hq

/-- Rounding between neighbouring bits by a remainder `t` of `b`, where the distances from them are `t` and `b − t` in some
unit. -/
theorem nearestBits_of_remainder {a c : ℝ} {m t b : ℕ} (hc : 0 < c) (ht : t < b) (lower : a - realOf m = t / c)
    (upper : realOf (m + 1) - a = ((b : ℝ) - t) / c) :
    NearestBits a (if 2 * t < b then m else if b < 2 * t then m + 1 else m + m % 2) := by
  have hlo : realOf m ≤ a := sub_nonneg.1 (lower ▸ by positivity)
  have hhi : a ≤ realOf (m + 1) :=
    sub_nonneg.1 (upper ▸ div_nonneg (sub_nonneg.2 (by exact_mod_cast ht.le)) hc.le)
  have down : a - realOf m ≤ realOf (m + 1) - a ↔ 2 * t ≤ b := by
    rw [lower, upper, div_le_div_iff_of_pos_right hc, le_sub_iff_add_le, ← two_mul]
    exact_mod_cast Iff.rfl
  have up : realOf (m + 1) - a ≤ a - realOf m ↔ b ≤ 2 * t := by
    rw [lower, upper, div_le_div_iff_of_pos_right hc, sub_le_iff_le_add, ← two_mul]
    exact_mod_cast Iff.rfl
  have tie (h : a - realOf m = realOf (m + 1) - a) : 2 * t = b := le_antisymm (down.1 h.le) (up.1 h.ge)
  split
  · exact nearestBits_lower hlo (down.2 (by omega)) fun h => by have := tie h; omega
  split
  · exact nearestBits_upper hhi (up.2 (by omega)) fun h => by have := tie h; omega
  rcases Nat.mod_two_eq_zero_or_one m with heven | hodd
  · rw [heven]
    exact nearestBits_lower hlo (down.2 (by omega)) fun _ => heven
  · rw [hodd]
    exact nearestBits_upper hhi (up.2 (by omega)) fun _ => by omega

/-- Rounding a significand `x / (den · 2^e)` to the nearest integer, ties to even, gives the nearest bits. -/
theorem nearestBits_divRoundEven {x den e : ℕ} (hden : 0 < den) (hs : x / (den * 2 ^ e) < 2 ^ 24)
    (he : e = 0 ∨ 2 ^ 23 ≤ x / (den * 2 ^ e)) :
    NearestBits ((x : ℝ) / den / 2 ^ 149) (e * 2 ^ 23 + divRoundEven x (den * 2 ^ e)) := by
  have hx : (x : ℝ) = (den * 2 ^ e : ℕ) * (x / (den * 2 ^ e) : ℕ) + (x % (den * 2 ^ e) : ℕ) := by
    exact_mod_cast (Nat.div_add_mod x _).symm
  have ht := Nat.mod_lt x (Nat.mul_pos hden (Nat.two_pow_pos e))
  have hden' : (0 : ℝ) < den := by exact_mod_cast hden
  rw [divRoundEven]
  generalize x / (den * 2 ^ e) = s at *
  generalize x % (den * 2 ^ e) = t at *
  have h := nearestBits_of_remainder (a := (x : ℝ) / den / 2 ^ 149) (c := den * 2 ^ 149) (m := e * 2 ^ 23 + s)
    (by positivity) ht
    (by
      rw [realOf, magOf_shifted hs.le he, hx]
      push_cast
      field_simp
      ring)
    (by
      rw [realOf, add_assoc, magOf_shifted (s := s + 1) hs (he.imp_right fun h => h.trans (Nat.le_succ s)), hx]
      push_cast
      field_simp
      ring)
  convert h using 1
  split_ifs <;> omega

/-- `rneMagBits` are the nearest bits of the quotient, cut off at +Inf. -/
theorem rneMagBits_spec (num : ℕ) {den : ℕ} (hden : 0 < den) :
    ∃ n, NearestBits ((num : ℝ) / den) n ∧ rneMagBits num den = min n 0x7F800000 := by
  refine ⟨_, ?_, rfl⟩
  obtain ⟨hs, he⟩ := significand_bounds (num * 2 ^ 149 / den)
  rw [Nat.div_div_eq_div_mul] at hs he
  have h := nearestBits_divRoundEven hden hs he
  rwa [show ((num * 2 ^ 149 : ℕ) : ℝ) / den / 2 ^ 149 = num / den by
    rw [Nat.cast_mul, Nat.cast_pow, Nat.cast_ofNat, div_right_comm, mul_div_cancel_right₀ _ (by positivity)]] at h

/-- `rneFrac` with the sign of a real and the quotient of its magnitude is the real's correct rounding (rules R9, R11). -/
theorem isRne_rneFrac {r : ℝ} {num den : ℕ} (hden : 0 < den) (hr : |r| = (num : ℝ) / den) :
    IsRne r (rneFrac (decide (r < 0)) num den) := by
  rw [rneFrac]
  split
  · rename_i h0
    rw [h0, Nat.cast_zero, zero_div, abs_eq_zero] at hr
    rw [hr, isRne_zero]
  · obtain ⟨n, hn, hbits⟩ := rneMagBits_spec num hden
    rw [hbits]
    exact isRne_signed (hr ▸ hn)

theorem quot_neg_iff {a d : ℤ} (ha : a ≠ 0) (hd : d ≠ 0) :
    (decide (a < 0) != decide (d < 0)) = decide ((a : ℝ) / d < 0) := by
  rw [Bool.eq_iff_iff, bne_iff_ne, Ne, decide_eq_decide, decide_eq_true_iff, div_neg_iff, Int.cast_pos, Int.cast_pos,
    Int.cast_lt_zero, Int.cast_lt_zero]
  omega

/-- The machine's quotient of two integers is the correct rounding of the real quotient. -/
theorem isRne_rneQuot (a : ℤ) {d : ℤ} (hd : d ≠ 0) : IsRne ((a : ℝ) / d) (rneQuot a d) := by
  have hmag : |(a : ℝ) / d| = (a.natAbs : ℝ) / (d.natAbs : ℝ) := by
    rw [abs_div, Nat.cast_natAbs, Nat.cast_natAbs, Int.cast_abs, Int.cast_abs]
  by_cases ha : a = 0
  · subst ha
    rw [Int.cast_zero, zero_div, isRne_zero]
    rfl
  · rw [rneQuot, quot_neg_iff ha hd]
    exact isRne_rneFrac (Int.natAbs_pos.2 hd) hmag

/-- Settles O33: the bits before the cut at +Inf are the nearest bits of the magnitude, and the sign is the quotient's. -/
theorem quotientsAreCorrectlyRounded : Obligations.QuotientsAreCorrectlyRounded :=
  fun a _ hd => isRne_rneQuot a hd

end Sys2Proof.Machine
end

section
/-! ## The stored results of the numerics (rules R12, R189 to R192, R196, R225 to R227, R230) -/

open Sys2Proof.Machine.Ideal

namespace Sys2Proof.Machine

/-! ### Patterns and their values -/

theorem f32Real_le_iff {v w : Word} : f32Real v ≤ f32Real w ↔ f32Int v ≤ f32Int w := by
  rw [f32Real, f32Real, div_le_div_iff_of_pos_right (by positivity), Int.cast_le]

/-- The value of a pattern with sign bit 0. -/
theorem f32Real_of_lt {w : Word} (h : w.toNat < 2 ^ 31) : f32Real w = realOf w.toNat := by
  have hs : f32Sign w = false := by
    rw [f32Sign, BitVec.getLsbD, Nat.testBit_eq_decide_div_mod_eq, decide_eq_false_iff_not]
    omega
  rw [f32Real_eq, hs, if_neg Bool.false_ne_true, toNat_f32Abs, Nat.mod_eq_of_lt h]

/-- The order of the patterns with sign bit 0 is the order of their values. -/
theorem f32Real_le_iff_toNat {v w : Word} (hv : v.toNat < 2 ^ 31) (hw : w.toNat < 2 ^ 31) :
    f32Real v ≤ f32Real w ↔ v.toNat ≤ w.toNat := by
  rw [f32Real_of_lt hv, f32Real_of_lt hw, realOf_strictMono.le_iff_le]

theorem abs_f32Real_le_max {w : Word} (h : f32IsFinite w = true) : |f32Real w| ≤ 2 ^ 128 - 2 ^ 104 := by
  have hlt := (f32IsFinite_iff w).1 h
  rw [abs_f32Real, ← realOf_f32Max]
  exact realOf_strictMono.monotone (by omega)

/-- A value other than 0 that a finite pattern has is rounded to that pattern. -/
theorem eq_of_isRne_f32Real {v w : Word} (hv : f32IsFinite v = true) (h0 : f32Real v ≠ 0)
    (h : IsRne (f32Real v) w) : w = v := by
  have hr : |f32Real v| < 2 ^ 128 - 2 ^ 103 := (abs_f32Real_le_max hv).trans_lt (by norm_num)
  exact f32Real_injective_of_ne_zero h0 (le_antisymm (isRne_le h hr hv le_rfl) (isRne_ge h hr hv le_rfl))

theorem isSat_zero {w : Word} : IsSat 0 w ↔ w = 0 := by
  rw [IsSat, if_neg (by norm_num), isRne_zero]

/-! ### What the machine keeps of a word in range -/

theorem keepLevel_eq_self {floor w : Word} (hf : f32IsFinite w = true) (h : f32Real floor ≤ f32Real w) :
    keepLevel floor w = w := by
  rw [keepLevel, hf, decide_eq_true (f32Real_le_iff.1 h)]
  rfl

theorem keepPhase_eq_self {w : Word} (h : |f32Real w| ≤ f32Real f32Pi) : keepPhase w = w := by
  rw [abs_f32Real, f32Real_of_lt (by decide), realOf_strictMono.le_iff_le] at h
  rw [keepPhase, if_pos h]

theorem keepPercent_eq_self {num : Numerics} {power r : ℝ} {w : Word} (h : PercentOk num power r w) (hp : power ≠ 0) :
    keepPercent num.mode w = w := by
  obtain ⟨hlt, h⟩ := h
  rw [keepPercent, decide_eq_true hlt]
  cases hm : num.mode with
  | reference => rfl
  | tolerant =>
    rw [hm] at h
    rw [bne_iff_ne.2 fun e => hp (h.1.1 e)]
    rfl

theorem keepRms_eq_self {num : Numerics} {samples : List Word} {w : Word} (h : RmsOk num samples w)
    (hz : samples.all f32IsZero = false) : keepRms num.mode w = w := by
  obtain ⟨hf, hle, h⟩ := h
  rw [← f32Real_dynFloor, f32Real_le_iff] at hle
  rw [keepRms, hf, decide_eq_true hle]
  cases hm : num.mode with
  | reference => rfl
  | tolerant =>
    rw [hm] at h
    rw [bne_iff_ne.2 fun e => absurd (List.all_eq_true.2 (h.1.1 e)) (by rw [hz]; exact Bool.false_ne_true)]
    rfl

/-! ### A word with its property is stored -/

/-- The magnitude word of a bin of a channel of finite samples. -/
theorem magWords_getD (num : Numerics) (windowed : Bool) {block : List Word} {bins k : ℕ}
    (hd : degenerate block = false) (hk : k < bins) :
    (magWords num windowed block bins).getD k 0 =
      if silent windowed block then Config.magFloor
      else keepLevel Config.magFloor (num.mag (workingKey windowed block) windowed k) := by
  rw [magWords, hd, Bool.false_or]
  split <;> simp [List.getD, hk]

/-- The phase word of a bin of a channel of finite samples. -/
theorem phWords_getD (num : Numerics) (windowed : Bool) {block : List Word} {bins k : ℕ}
    (hd : degenerate block = false) (hk : k < bins) :
    (phWords num windowed block bins).getD k 0 =
      if silent windowed block ∨ k = 0 then 0 else keepPhase (num.ph (workingKey windowed block) windowed k) := by
  rw [phWords, hd, Bool.false_or]
  by_cases hs : silent windowed block = true <;> simp [List.getD, hk, hs]

theorem magWords_stores {num : Numerics} {windowed : Bool} {block : List Word} {bins k : ℕ}
    (hd : degenerate block = false) (hk : k < bins)
    (h : MagOk num block windowed k (num.mag (workingKey windowed block) windowed k)) :
    (magWords num windowed block bins).getD k 0 = num.mag (workingKey windowed block) windowed k := by
  obtain ⟨hf, hle, hs, -⟩ := h
  rw [magWords_getD num windowed hd hk]
  split
  · rename_i hsil
    exact (hs hsil).symm
  · exact keepLevel_eq_self hf (f32Real_magFloor ▸ hle)

theorem phWords_stores {num : Numerics} {windowed : Bool} {block : List Word} {bins k : ℕ}
    (hd : degenerate block = false) (hk : k < bins)
    (h : PhOk num block windowed k (num.ph (workingKey windowed block) windowed k)) :
    (phWords num windowed block bins).getD k 0 = num.ph (workingKey windowed block) windowed k := by
  obtain ⟨-, hle, h0, -⟩ := h
  rw [phWords_getD num windowed hd hk]
  split
  · rename_i hc
    exact (h0 hc.symm).symm
  · exact keepPhase_eq_self hle

/-- Where the power sum is 0, +0.0 is the one admissible percentage (rule R227). -/
theorem eq_zero_of_percentOk {num : Numerics} {power x : ℝ} {w : Word} (hp : power = 0)
    (h : PercentOk num power (100 * Real.sqrt power / x) w) : w = 0 := by
  obtain ⟨-, h⟩ := h
  rw [percent_eq_zero hp] at h
  cases hm : num.mode with
  | reference =>
    rw [hm] at h
    exact isSat_zero.1 h
  | tolerant =>
    rw [hm] at h
    exact h.1.2 hp

theorem thdWord_stores {num : Numerics} {levels : List Word} {fb : ℕ}
    (h : ThdValueOk num levels fb (num.thd levels fb)) : thdWord num levels fb = num.thd levels fb := by
  rw [thdWord]
  split
  · rename_i hn
    exact (eq_zero_of_percentOk (harmonicPower_eq_zero_iff.2 hn) h).symm
  · rename_i hn
    exact keepPercent_eq_self h (mt harmonicPower_eq_zero_iff.1 hn)

theorem thdnValue_stores {num : Numerics} {levels : List Word} {fb : ℕ} (h1 : 1 ≤ fb) (hlt : fb < levels.length)
    (h : ThdnValueOk num levels fb (num.thdn levels fb)) : thdnValue num levels fb = num.thdn levels fb := by
  rw [thdnValue]
  split
  · rename_i hn
    exact (eq_zero_of_percentOk ((powers_eq_zero_iff h1 hlt).2 hn) h).symm
  · rename_i hn
    exact keepPercent_eq_self h (mt (powers_eq_zero_iff h1 hlt).1 hn)

/-- The ideal level of a block of zeros is the floor (rule R230). -/
theorem rmsDb_of_zeros {samples : List Word} (h : samples.all f32IsZero = true) : Ideal.rmsDb samples = -100 := by
  have hsum : (samples.map fun w => f32Real w ^ 2).sum = 0 := List.sum_eq_zero fun x hx => by
    obtain ⟨w, hw, rfl⟩ := List.mem_map.1 hx
    rw [f32Real_of_isZero (List.all_eq_true.1 h w hw), zero_pow two_ne_zero]
  rw [Ideal.rmsDb, hsum, mul_zero, Real.sqrt_zero, toDb, if_pos rfl]

/-- Of a block of zeros −100.0 is the one admissible level (rule R230). -/
theorem eq_dynFloor_of_rmsOk {num : Numerics} {samples : List Word} {w : Word} (hz : samples.all f32IsZero = true)
    (h : RmsOk num samples w) : w = Config.dynFloor := by
  obtain ⟨-, -, h⟩ := h
  cases hm : num.mode with
  | reference =>
    rw [hm, rmsDb_of_zeros hz, ← f32Real_dynFloor] at h
    exact eq_of_isRne_f32Real (by decide) (by rw [f32Real_dynFloor]; norm_num) h
  | tolerant =>
    rw [hm] at h
    exact h.1.2 (List.all_eq_true.1 hz)

theorem levelWord_stores {num : Numerics} {samples : List Word} (hd : degenerate samples = false)
    (h : RmsOk num samples (num.rmsDb samples)) : levelWord num samples = num.rmsDb samples := by
  rw [levelWord, hd, Bool.false_or]
  split
  · rename_i hz
    exact (eq_dynFloor_of_rmsOk hz h).symm
  · rename_i hz
    exact keepRms_eq_self h (Bool.eq_false_of_not_eq_true hz)

/-- Settles O34: a word with its property lies in the range that the machine keeps, and is the exact word in each exact case. -/
theorem conformingResultsAreStored : Obligations.ConformingResultsAreStored :=
  ⟨fun _ _ _ _ _ hd hk => ⟨magWords_stores hd hk, phWords_stores hd hk⟩,
    fun _ _ _ h1 hlt => ⟨thdWord_stores, thdnValue_stores h1 hlt⟩,
    fun _ _ hd => levelWord_stores hd⟩

/-! ### The stored words of conforming numerics -/

section Conforming

variable {num : Numerics}

/-- The stored spectrum depends on x_c alone (rules R12, R189, R191). -/
theorem Conforms.sameWorking_words_eq (hc : Conforms num) {block block' : List Word} {windowed windowed' : Bool}
    (hd : degenerate block = false) (hd' : degenerate block' = false)
    (h : SameWorking block windowed block' windowed') (bins : ℕ) :
    magWords num windowed block bins = magWords num windowed' block' bins ∧
      phWords num windowed block bins = phWords num windowed' block' bins := by
  rw [magWords, magWords, phWords, phWords, hd, hd', sameWorking_silent_eq h,
    hc.magInputs block windowed block' windowed' hd hd' h, hc.phInputs block windowed block' windowed' hd hd' h]
  exact ⟨rfl, rfl⟩

theorem Conforms.magWords_ok (hc : Conforms num) {block : List Word} {windowed : Bool} {k : ℕ}
    (hd : degenerate block = false) (hk : k < block.length / 2) (h : ∃ w, MagOk num block windowed k w) :
    MagOk num block windowed k ((magWords num windowed block (block.length / 2)).getD k 0) := by
  have hok := hc.mag block windowed k hd hk h
  rwa [magWords_stores hd hk hok]

theorem Conforms.phWords_ok (hc : Conforms num) {block : List Word} {windowed : Bool} {k : ℕ}
    (hd : degenerate block = false) (hk : k < block.length / 2) (h : ∃ w, PhOk num block windowed k w) :
    PhOk num block windowed k ((phWords num windowed block (block.length / 2)).getD k 0) := by
  have hok := hc.ph block windowed k hd hk h
  rwa [phWords_stores hd hk hok]

theorem Conforms.thdWord_ok (hc : Conforms num) {levels : List Word} {fb : ℕ} (h1 : 1 ≤ fb) (hlt : fb < levels.length)
    (h : ∃ w, ThdValueOk num levels fb w) : ThdValueOk num levels fb (thdWord num levels fb) := by
  have hok := hc.thd levels fb h1 hlt h
  rwa [thdWord_stores hok]

theorem Conforms.thdnValue_ok (hc : Conforms num) {levels : List Word} {fb : ℕ} (h1 : 1 ≤ fb)
    (hlt : fb < levels.length) (h : ∃ w, ThdnValueOk num levels fb w) :
    ThdnValueOk num levels fb (thdnValue num levels fb) := by
  have hok := hc.thdn levels fb h1 hlt h
  rwa [thdnValue_stores h1 hlt hok]

theorem Conforms.levelWord_ok (hc : Conforms num) {samples : List Word} (hne : samples ≠ [])
    (hd : degenerate samples = false) (h : ∃ w, RmsOk num samples w) : RmsOk num samples (levelWord num samples) := by
  have hok := hc.rmsDb samples hne hd h
  rwa [levelWord_stores hd hok]

end Conforming

/-! ### THDN is the larger of two percentages (rule R227) -/

theorem thd_le_thdn (levels : List Word) (fb : ℕ) : Ideal.thd levels fb ≤ Ideal.thdn levels fb := by
  have hpower : harmonicPower levels fb ≤ harmonicPower levels fb + noisePower levels fb :=
    le_add_of_nonneg_right (noisePower_nonneg levels fb)
  exact div_le_div_of_nonneg_right (mul_le_mul_of_nonneg_left (Real.sqrt_le_sqrt hpower) (by norm_num)) (g_pos _ _).le

/-- A word between two ideals' admissible words, `v` for the larger ideal `r'` and `w` above it for the smaller `r`, is as near to
the larger ideal as the tolerance asks. -/
theorem within_of_between {tol : Tolerance} {r r' v w : ℝ} (hr : r ≤ r') (hvw : v ≤ w) (hw : Within tol |w - r| r)
    (hv : Within tol |v - r'| r') : Within tol |w - r'| r' := by
  intro t ht
  have hw := abs_le.1 (hw t ht)
  have hv := abs_le.1 (hv t ht)
  have hmul : (t : ℝ) * r ≤ t * r' := mul_le_mul_of_nonneg_left hr (by positivity)
  exact abs_le.2 ⟨by linarith, by linarith⟩

/-- In `tolerant` mode a percentage word that is admissible for a power sum and its ideal, and above a word that is admissible for
a larger power sum and ideal, is admissible for these too. -/
theorem percentOk_of_larger {num : Numerics} (hm : num.mode = .tolerant) {power power' r r' : ℝ} {v w : Word}
    (hp : power' = 0 → power = 0) (hr : r ≤ r') (hvw : v.toNat < w.toNat) (hw : PercentOk num power r w)
    (hv : PercentOk num power' r' v) : PercentOk num power' r' w := by
  obtain ⟨hwlt, hw⟩ := hw
  obtain ⟨-, hv⟩ := hv
  rw [hm] at hw hv
  obtain ⟨hw0, hw⟩ := hw
  obtain ⟨-, hv⟩ := hv
  have hinf : w.toNat < 0x7F800000 := hwlt
  refine ⟨hwlt, ?_⟩
  rw [hm]
  refine ⟨⟨fun h => ?_, fun h => hw0.2 (hp h)⟩, ?_⟩
  · rw [h] at hvw
    exact absurd hvw (Nat.not_lt_zero _)
  split at hv
  · -- Above the saturated word there is no percentage.
    rw [hv] at hvw
    have : 0x7F7FFFFF < w.toNat := hvw
    omega
  · rename_i hmax
    rw [if_neg fun h => hmax (h.trans_le hr)] at hw
    rw [if_neg hmax]
    exact within_of_between hr ((f32Real_le_iff_toNat (by omega) (by omega)).2 hvw.le) hw hv

/-- The stored pair meets THD_OK where the two values it is made of meet their properties. -/
theorem thdOk_of_valuesOk {num : Numerics} {levels : List Word} {fb : ℕ}
    (hthd : ThdValueOk num levels fb (thdWord num levels fb))
    (hthdn : ThdnValueOk num levels fb (thdnValue num levels fb)) :
    ThdOk num levels fb (thdWord num levels fb) (thdnWord num levels fb) := by
  refine ⟨hthd, ?_, ?_⟩
  · rw [thdnWord]
    split <;> omega
  cases hm : num.mode with
  | reference =>
    refine ⟨_, ?_, rfl⟩
    obtain ⟨-, h⟩ := hthdn
    rwa [hm] at h
  | tolerant =>
    show ThdnValueOk num levels fb (thdnWord num levels fb)
    rw [thdnWord]
    split
    · exact hthdn
    · rename_i hgt
      refine percentOk_of_larger hm (fun h => ?_) (thd_le_thdn levels fb) (not_le.1 hgt) hthd hthdn
      linarith [harmonicPower_nonneg levels fb, noisePower_nonneg levels fb]

/-- Settles O59: the numerics of the block conform, and what conforming numerics give is stored. -/
theorem storedResultsMeetTheirProperties : Obligations.StoredResultsMeetTheirProperties := by
  have hc := config_numerics_conform
  refine ⟨fun _ _ _ _ bins hd hd' h => hc.sameWorking_words_eq hd hd' h bins,
    fun _ _ _ hd hk => ⟨hc.magWords_ok hd hk, hc.phWords_ok hd hk⟩, fun _ _ h1 hlt ht htn => ?_,
    fun _ hne hd => hc.levelWord_ok hne hd⟩
  exact thdOk_of_valuesOk (hc.thdWord_ok h1 hlt ht) (hc.thdnValue_ok h1 hlt htn)

/-! ### Reference mode (rule R12) -/

section Reference

variable {num : Numerics} (hm : num.mode = .reference)
include hm

theorem isRne_of_magOk {block : List Word} {windowed : Bool} {k : ℕ} {w : Word} (hb : ¬OverflowBand block windowed)
    (h : MagOk num block windowed k w) : IsRne (magDb block windowed k) w := by
  obtain ⟨-, -, -, ⟨hband, -⟩ | h⟩ := h
  · exact absurd hband hb
  · rwa [hm] at h

theorem isRne_of_phOk {block : List Word} {windowed : Bool} {k : ℕ} {w : Word} (hb : ¬OverflowBand block windowed)
    (h : PhOk num block windowed k w) : IsRne (phase block windowed k) w := by
  obtain ⟨-, -, -, hband | h⟩ := h
  · exact absurd hband hb
  · rwa [hm] at h

theorem isSat_of_percentOk {power r : ℝ} {w : Word} (h : PercentOk num power r w) : IsSat r w := by
  obtain ⟨-, h⟩ := h
  rwa [hm] at h

theorem isRne_of_rmsOk {samples : List Word} {w : Word} (h : RmsOk num samples w) :
    IsRne (Ideal.rmsDb samples) w := by
  obtain ⟨-, -, h⟩ := h
  rwa [hm] at h

end Reference

theorem toNat_thdnWord (num : Numerics) (levels : List Word) (fb : ℕ) :
    (thdnWord num levels fb).toNat = max (thdWord num levels fb).toNat (thdnValue num levels fb).toNat := by
  rw [thdnWord]
  split <;> omega

/-- Settles O60: in `reference` mode the rounded ideal is admissible, so conforming numerics give an admissible word, and outside
the overflow band no other word is admissible. -/
theorem referenceModeStoresTheRoundedIdeals : Obligations.ReferenceModeStoresTheRoundedIdeals := by
  intro num hc hm
  refine ⟨fun o block windowed k hlen hd hk hb => ?_, fun levels fb h1 hlt => ⟨?_, thdnValue num levels fb, ?_, ?_⟩,
    fun samples hne hd => ?_⟩
  · have hle : block.length ≤ 2 ^ 15 := hlen ▸ Nat.pow_le_pow_right (by norm_num) o.2.2
    rw [← hlen] at hk ⊢
    exact ⟨isRne_of_magOk hm hb (hc.magWords_ok hd hk ((exists_magOk hm hd hle windowed k).imp fun _ => And.left)),
      isRne_of_phOk hm hb (hc.phWords_ok hd hk ((exists_phOk hm block windowed k).imp fun _ => And.left))⟩
  · exact isSat_of_percentOk hm
      (hc.thdWord_ok h1 hlt ((exists_percentOk hm _ (thd_nonneg levels fb)).imp fun _ => And.left))
  · exact isSat_of_percentOk hm
      (hc.thdnValue_ok h1 hlt ((exists_percentOk hm _ (thdn_nonneg levels fb)).imp fun _ => And.left))
  · exact toNat_thdnWord num levels fb
  · exact isRne_of_rmsOk hm (hc.levelWord_ok hne hd ((exists_rmsOk hm hd).imp fun _ => And.left))

end Sys2Proof.Machine
end

section
/-! ## The fundamental bin, the dynamics ratio and the attack time (rules R221, R232, R235) -/

open Sys2Proof.Machine.Ideal

namespace Sys2Proof.Machine

/-! ### Legal rates and frequencies -/

theorem f32Int_of_pos {w : Word} (h : 0 < f32Int w) : f32Int w = f32Mag w := by
  rw [f32Int] at h ⊢
  split at h
  · omega
  · rw [if_neg ‹_›]

theorem f32Real_of_pos {w : Word} (h : 0 < f32Int w) : f32Real w = (f32Mag w : ℝ) / 2 ^ 149 := by
  rw [f32Real, f32Int_of_pos h, Int.cast_natCast]

/-- A legal rate is at least 8000 (rule R148). -/
theorem legalRate_ge {w : Word} (h : legalRate w = true) : 8000 * 2 ^ 149 ≤ f32Int w := by
  have h8000 : f32Int f32EightThousand = 8000 * 2 ^ 149 := by decide +kernel
  simp only [legalRate, Bool.and_eq_true, decide_eq_true_eq, h8000] at h
  obtain ⟨⟨-, hge⟩, -⟩ := h
  exact hge

/-- A legal test frequency is in [20, 20000] (rule R41). -/
theorem legalFreq_mem {w : Word} (h : legalFreq w = true) :
    20 * 2 ^ 149 ≤ f32Int w ∧ f32Int w ≤ 20000 * 2 ^ 149 := by
  have lo : f32Int f32Twenty = 20 * 2 ^ 149 := by decide +kernel
  have hi : f32Int f32TwentyThousand = 20000 * 2 ^ 149 := by decide +kernel
  simp only [legalFreq, Bool.and_eq_true, decide_eq_true_eq, lo, hi] at h
  obtain ⟨⟨-, hge⟩, hle⟩ := h
  exact ⟨hge, hle⟩

/-! ### The fundamental bin -/

/-- Rule R16: a half is rounded up. -/
theorem roundHalfAway_eq_floor (num : ℕ) {den : ℕ} (hden : 0 < den) :
    (roundHalfAway num den : ℤ) = ⌊(num : ℝ) / den + 1 / 2⌋ := by
  have hden' : (den : ℝ) ≠ 0 := by positivity
  have hq : (num : ℝ) / den + 1 / 2 = ((2 * num + den : ℕ) : ℝ) / ((2 * den : ℕ) : ℝ) := by
    push_cast
    field_simp
  rw [hq, ← Int.natCast_floor_eq_floor (by positivity), Nat.floor_div_eq_div, roundHalfAway]

theorem roundHalfAway_le {num den b : ℕ} (h : num ≤ b * den) : roundHalfAway num den ≤ b := by
  rcases Nat.eq_zero_or_pos den with rfl | hden
  · simp [roundHalfAway]
  · refine Nat.le_of_lt_succ ((Nat.div_lt_iff_lt_mul (by omega)).2 ?_)
    calc 2 * num + den < 2 * (b * den) + 2 * den := by omega
      _ = (b + 1) * (2 * den) := by ring

/-- The largest bin is that of the highest frequency at the lowest rate in the largest block: 20000 × 32768 / 8000. -/
theorem fundamentalBin_le (o : Order) {srate tfreq : Word} (hs : legalRate srate = true) (ht : legalFreq tfreq = true) :
    fundamentalBin o srate tfreq ≤ 81920 := by
  have hs := legalRate_ge hs
  obtain ⟨htlo, hthi⟩ := legalFreq_mem ht
  rw [f32Int_of_pos (by omega)] at hs
  rw [f32Int_of_pos (by omega)] at hthi
  have hn : 2 ^ o.val ≤ 2 ^ 15 := Nat.pow_le_pow_right (by norm_num) o.2.2
  refine roundHalfAway_le ((Nat.mul_le_mul_left _ hn).trans ?_)
  omega

theorem fundamentalBin_eq_floor (o : Order) {srate tfreq : Word} (hs : legalRate srate = true)
    (ht : legalFreq tfreq = true) :
    (fundamentalBin o srate tfreq : ℤ) = ⌊f32Real tfreq * 2 ^ o.val / f32Real srate + 1 / 2⌋ := by
  have hs := legalRate_ge hs
  obtain ⟨ht, -⟩ := legalFreq_mem ht
  have hpos : 0 < f32Mag srate := by
    rw [f32Int_of_pos (by omega)] at hs
    omega
  have hq : f32Real tfreq * 2 ^ o.val / f32Real srate = ((f32Mag tfreq * 2 ^ o.val : ℕ) : ℝ) / f32Mag srate := by
    rw [f32Real_of_pos (w := tfreq) (by omega), f32Real_of_pos (w := srate) (by omega), Nat.cast_mul, Nat.cast_pow,
      Nat.cast_ofNat, div_mul_eq_mul_div]
    exact div_div_div_cancel_right₀ (by positivity) _ _
  rw [hq, fundamentalBin, roundHalfAway_eq_floor _ hpos]

/-- Settles O36: both values are whole numbers of 2^−149, so the quotient of the reals is that of the naturals. -/
theorem fundamentalBinIsExact : Obligations.FundamentalBinIsExact :=
  ⟨fun num _ hden => roundHalfAway_eq_floor num hden,
    fun o _ _ hs ht => ⟨fundamentalBin_eq_floor o hs ht, fundamentalBin_le o hs ht⟩⟩

/-! ### The steps of DYN and ENV -/

theorem bracket_regs (ws : List Write) (s : State) : (bracket ws s).regs = (applyAll ws s).regs := by simp [bracket_eq]
theorem bracket_dyn (ws : List Write) (s : State) : (bracket ws s).dyn = (applyAll ws s).dyn := by simp [bracket_eq]
theorem bracket_env (ws : List Write) (s : State) : (bracket ws s).env = (applyAll ws s).env := by simp [bracket_eq]

/-- Registers are no part of the dynamics series. -/
theorem applyAll_ratioSteps_dyn (series : List (Word × Word)) (s : State) :
    (applyAll ((ratioSteps series).map WriteStep.plain) s).dyn = s.dyn :=
  applyAll_map_preserves 0 (·.dyn) _ s fun w hw t => by
    obtain ⟨v, rfl⟩ := mem_ratioSteps hw
    rfl

theorem applyAll_attackSteps_env (srate : Word) (series : List Word) (s : State) :
    (applyAll ((attackSteps srate series).map WriteStep.plain) s).env = s.env :=
  applyAll_map_preserves 0 (·.env) _ s fun w hw t => by
    obtain ⟨v, rfl⟩ := mem_attackSteps hw
    rfl

/-- Envelope values are appended one by one. -/
theorem applyAll_envPush (cap : ℕ) (values : List Word) (s : State) :
    applyAll ((values.map fun v => WriteStep.envPush v cap).map WriteStep.plain) s =
      { s with env := values.foldl (fun series v => pushEnv series v cap) s.env } := by
  induction values generalizing s with
  | nil => rfl
  | cons v values ih =>
    rw [List.map_cons, List.map_cons, applyAll_cons, ih]
    rfl

theorem toNat_ne_zero {w : Word} (h : w ≠ 0) : w.toNat ≠ 0 := fun h0 => h (BitVec.eq_of_toNat_eq h0)

/-- What DYN does to CRATIO is what `ratioSteps` of the new series says (rule R232). -/
theorem exec_dyn_cratio (imm : BitVec 24) {s : State} (hp : s.port = .producer) (hlen : s.regs.blklen ≠ 0) :
    ∃ t, exec (.dyn imm) s = .next t ∧ (ratioSteps t.dyn = [] → t.regs.cratio = s.regs.cratio) ∧
      ∀ v, ratioSteps t.dyn = [.reg .cratio v] → t.regs.cratio = v := by
  refine ⟨_, exec_bracketed hp rfl, ?_⟩
  simp only [dynSteps, if_neg (toNat_ne_zero hlen), List.map_cons, bracket_regs, bracket_dyn, applyAll_cons,
    applyAll_ratioSteps_dyn, WriteStep.plain, WriteStep.apply]
  exact ⟨fun h => by rw [h]; rfl, fun v h => by rw [h]; rfl⟩

/-- What ENV does to ATTACK is what `attackSteps` of the new series says (rule R235). -/
theorem exec_env_attack (imm : BitVec 24) {s : State} (hp : s.port = .producer) (hlen : s.regs.blklen ≠ 0) :
    ∃ t, exec (.env imm) s = .next t ∧
      t.env = ((s.mem.block basePostL s.regs.blklen.toNat).map envValue).foldl
        (fun series v => pushEnv series v (envCap s.regs.srate)) s.env ∧
      (attackSteps s.regs.srate t.env = [] → t.regs.attack = s.regs.attack) ∧
      ∀ v, attackSteps s.regs.srate t.env = [.reg .attack v] → t.regs.attack = v := by
  refine ⟨_, exec_bracketed hp rfl, ?_⟩
  simp only [envSteps, if_neg (toNat_ne_zero hlen), List.map_append, bracket_regs, bracket_env, applyAll_append,
    applyAll_envPush, applyAll_attackSteps_env, true_and]
  exact ⟨fun h => by rw [h]; rfl, fun v h => by rw [h]; rfl⟩

/-! ### The ratio of the changes -/

theorem ratioSteps_short {series : List (Word × Word)} (h : series.length < 10) : ratioSteps series = [] := by
  rw [ratioSteps, if_pos h]

theorem ratioSteps_eq {series : List (Word × Word)} {new old : Word × Word} (h : 10 ≤ series.length)
    (hnew : series[series.length - 1]? = some new) (hold : series[series.length - 10]? = some old) :
    ratioSteps series =
      if f32One < (f32Int new.1 - f32Int old.1).natAbs ∧ f32Int new.2 - f32Int old.2 ≠ 0 then
        [.reg .cratio (rneQuot (f32Int new.1 - f32Int old.1) (f32Int new.2 - f32Int old.2))]
      else [] := by
  rw [ratioSteps, if_neg (not_lt.2 h), List.getLast?_eq_getElem?, hnew, hold]

theorem f32Real_sub (v w : Word) : f32Real v - f32Real w = ((f32Int v - f32Int w : ℤ) : ℝ) / 2 ^ 149 := by
  rw [f32Real, f32Real, Int.cast_sub, sub_div]

theorem one_lt_abs_sub_iff (v w : Word) : 1 < |f32Real v - f32Real w| ↔ f32One < (f32Int v - f32Int w).natAbs := by
  rw [f32Real_sub, abs_div, abs_of_pos (by positivity : (0 : ℝ) < 2 ^ 149), one_lt_div (by positivity), ← Int.cast_abs,
    Int.abs_eq_natAbs, Int.cast_natCast]
  exact_mod_cast Iff.rfl

theorem sub_ne_zero_iff (v w : Word) : f32Real v - f32Real w ≠ 0 ↔ f32Int v - f32Int w ≠ 0 := by
  rw [f32Real_sub, div_ne_zero_iff, Int.cast_ne_zero]
  exact and_iff_left (by positivity)

/-- Settles O40: the differences in units of 2^−149 have the quotient of the real differences. -/
theorem dynRatioIsCorrectlyRounded : Obligations.DynRatioIsCorrectlyRounded := by
  intro imm s hp hlen
  obtain ⟨t, ht, keeps, writes⟩ := exec_dyn_cratio imm hp hlen
  refine ⟨t, ht, fun h => keeps (ratioSteps_short h), fun new old h10 hnew hold => ?_⟩
  have hsteps := ratioSteps_eq h10 hnew hold
  refine ⟨fun ha hd => ?_, fun h => keeps ?_⟩
  · rw [one_lt_abs_sub_iff] at ha
    rw [sub_ne_zero_iff] at hd
    rw [writes _ (hsteps.trans (if_pos ⟨ha, hd⟩)), f32Real_sub, f32Real_sub,
      div_div_div_cancel_right₀ (by positivity : (2 : ℝ) ^ 149 ≠ 0)]
    exact isRne_rneQuot _ hd
  · rw [hsteps, if_neg]
    rintro ⟨ha, hd⟩
    rw [← one_lt_abs_sub_iff] at ha
    rw [← sub_ne_zero_iff] at hd
    rcases h with h | h
    exacts [absurd ha (not_lt.2 h), hd h]

/-! ### The attack time -/

/-- ENV appends magnitudes: nonnegative and not NaN (rule R233). -/
theorem toNat_envValue_le (w : Word) : (envValue w).toNat ≤ f32Inf.toNat := by
  have hinf : f32Inf.toNat = 0x7F800000 := rfl
  rw [envValue]
  split
  · exact Nat.zero_le _
  · rename_i h
    simp only [f32IsNaN, f32Exp, f32Frac, Bool.and_eq_true, beq_iff_eq, bne_iff_ne] at h
    rw [toNat_f32Abs]
    omega

theorem mem_pushEnv {series : List Word} {v w : Word} {cap : ℕ} (h : w ∈ pushEnv series v cap) :
    w ∈ series ∨ w = v := by
  simpa using List.mem_of_mem_drop h

/-- The envelope series keeps magnitudes, as `Settled` says (rule R64). -/
theorem foldl_pushEnv_le {cap : ℕ} {values series : List Word} (hv : ∀ w ∈ values, w.toNat ≤ f32Inf.toNat)
    (hs : ∀ w ∈ series, w.toNat ≤ f32Inf.toNat) :
    ∀ w ∈ values.foldl (fun series v => pushEnv series v cap) series, w.toNat ≤ f32Inf.toNat :=
  List.foldlRecOn (motive := fun series : List Word => ∀ w ∈ series, w.toNat ≤ f32Inf.toNat) values _ hs
    fun _ ih v hm w hw => by
    rcases mem_pushEnv hw with hw | rfl
    exacts [ih w hw, hv w hm]

/-- The larger pattern is kept at each entry of the window. -/
theorem foldl_max_eq (window : List Word) (p peak : Word) (hp : p.toNat ≤ peak.toNat)
    (hmax : ∀ w ∈ window, w.toNat ≤ peak.toNat) (hmem : p = peak ∨ peak ∈ window) :
    window.foldl (fun p w => if p.toNat < w.toNat then w else p) p = peak := by
  induction window generalizing p with
  | nil => simpa using hmem
  | cons w window ih =>
    have hw := hmax w List.mem_cons_self
    refine ih _ (by dsimp only; split <;> assumption) (fun x hx => hmax x (List.mem_cons_of_mem _ hx)) ?_
    rcases hmem with rfl | hmem
    · exact .inl (if_neg (not_lt.2 hw))
    · rcases List.mem_cons.1 hmem with rfl | hmem
      · left
        dsimp only
        split
        · rfl
        · exact BitVec.eq_of_toNat_eq (by omega)
      · exact .inr hmem

/-- The largest entry of a window is its peak. -/
theorem envPeak_eq {window : List Word} {peak : Word} (hmem : peak ∈ window)
    (hmax : ∀ w ∈ window, w.toNat ≤ peak.toNat) : envPeak window = peak :=
  foldl_max_eq window 0 peak (Nat.zero_le _) hmax (.inr hmem)

/-- Reaching tenths of a finite peak, in the reals (rule R235). -/
theorem reaches_iff {tenths : ℕ} {peak w : Word} (hp : peak.toNat < f32Inf.toNat) (hw : w.toNat ≤ f32Inf.toNat) :
    reaches tenths peak w = true ↔ tenths * f32Real peak / 10 ≤ f32Real w := by
  have hinf : f32Inf.toNat = 0x7F800000 := rfl
  have value {v : Word} (hv : v.toNat ≤ f32Inf.toNat) : f32Real v = (f32Mag v : ℝ) / 2 ^ 149 := by
    rw [f32Real_of_lt (by omega), realOf, f32Mag_eq_magOf, toNat_f32Abs, Nat.mod_eq_of_lt (by omega)]
  have hne : peak ≠ f32Inf := fun e => absurd hp (by rw [e]; exact lt_irrefl _)
  rw [reaches, if_neg hne, decide_eq_true_iff, value hp.le, value hw, ← mul_div_assoc, div_right_comm,
    div_le_div_iff_of_pos_right (by positivity), div_le_iff₀' (by norm_num)]
  exact_mod_cast Iff.rfl

/-- The first entry that reaches tenths of the peak. -/
theorem findIdx_reaches {window : List Word} {peak : Word} {tenths len i : ℕ} (hlen : window.length = len)
    (hle : ∀ w ∈ window, w.toNat ≤ f32Inf.toNat) (hp : peak.toNat < f32Inf.toNat)
    (hi : IsLeast { j | j < len ∧ tenths * f32Real peak / 10 ≤ f32Real (window.getD j 0) } i) :
    window.findIdx (reaches tenths peak) = i := by
  subst hlen
  have hget {j : ℕ} (hj : j < window.length) : reaches tenths peak window[j] = true ↔
      tenths * f32Real peak / 10 ≤ f32Real (window.getD j 0) := by
    rw [List.getD_eq_getElem _ _ hj, reaches_iff hp (hle _ (List.getElem_mem hj))]
  obtain ⟨⟨hlt, hreach⟩, hleast⟩ := hi
  refine (List.findIdx_eq hlt).2 ⟨(hget hlt).2 hreach, fun j hj => Bool.eq_false_of_not_eq_true fun h => ?_⟩
  exact absurd (hleast ⟨hj.trans hlt, (hget (hj.trans hlt)).1 h⟩) (not_le.2 hj)

theorem attackSteps_short {srate : Word} {series : List Word} (h : series.length < 100) :
    attackSteps srate series = [] := by
  rw [attackSteps, if_pos h]

theorem attackSteps_eq {srate : Word} {series window : List Word} {peak : Word} {i10 i90 : ℕ} (h : 100 ≤ series.length)
    (hwin : series.drop (series.length - 100) = window) (hpeak : envPeak window = peak)
    (h10 : window.findIdx (reaches 1 peak) = i10) (h90 : window.findIdx (reaches 9 peak) = i90) :
    attackSteps srate series =
      if i10 < i90 then [.reg .attack (rneFrac false ((i90 - i10) * f32One) (f32Mag srate))] else [] := by
  subst hwin hpeak h10 h90
  rw [attackSteps, if_neg (not_lt.2 h)]

/-- An infinite peak is reached at once by every tenth of it (rule R235). -/
theorem attackSteps_infinite {srate : Word} {series : List Word} (h : 100 ≤ series.length)
    (hle : ∀ w ∈ series, w.toNat ≤ f32Inf.toNat) (hinf : f32Inf ∈ series.drop (series.length - 100)) :
    attackSteps srate series = [] := by
  have hpeak := envPeak_eq hinf fun w hw => hle w (List.mem_of_mem_drop hw)
  have hsame : reaches 9 f32Inf = reaches 1 f32Inf := by
    funext w
    rw [reaches, reaches, if_pos rfl, if_pos rfl]
  rw [attackSteps_eq h rfl hpeak rfl (by rw [hsame]), if_neg (lt_irrefl _)]

/-- The time between two entries of the series, at a legal rate, is correctly rounded (rule R11). -/
theorem isRne_attack {srate : Word} (hs : legalRate srate = true) {i10 i90 : ℕ} (h : i10 < i90) :
    IsRne (((i90 : ℝ) - i10) / f32Real srate) (rneFrac false ((i90 - i10) * f32One) (f32Mag srate)) := by
  have hs := legalRate_ge hs
  have hreal := f32Real_of_pos (w := srate) (by omega)
  rw [f32Int_of_pos (by omega)] at hs
  have hpos : 0 < f32Mag srate := by omega
  have hr : ((i90 : ℝ) - i10) / f32Real srate = (((i90 - i10) * f32One : ℕ) : ℝ) / f32Mag srate := by
    rw [hreal, div_div_eq_mul_div, Nat.cast_mul, Nat.cast_sub h.le, Nat.cast_pow, Nat.cast_ofNat]
  have h0 : ¬ ((i90 : ℝ) - i10) / f32Real srate < 0 := by
    rw [hr, not_lt]
    positivity
  have := isRne_rneFrac hpos ((abs_of_nonneg (not_lt.1 h0)).trans hr)
  rwa [decide_eq_false h0] at this

/-- Settles O42: on magnitudes below +Inf the patterns are in the order of their values, so the machine's peak and indices are the
real ones. -/
theorem envAttackTimeIsCorrectlyRounded : Obligations.EnvAttackTimeIsCorrectlyRounded := by
  intro imm s hp hlen hs hsettled
  obtain ⟨t, ht, henv, keeps, writes⟩ := exec_env_attack imm hp hlen
  have hle : ∀ w ∈ t.env, w.toNat ≤ f32Inf.toNat := henv ▸ foldl_pushEnv_le (fun w hw => by
    obtain ⟨v, -, rfl⟩ := List.mem_map.1 hw
    exact toNat_envValue_le v) hsettled
  refine ⟨t, ht, fun h => keeps (attackSteps_short h), fun h100 => ⟨fun hinf => keeps (attackSteps_infinite h100 hle hinf),
    fun peak i10 i90 hfin hmem hmax h10 h90 => ?_⟩⟩
  have hle' : ∀ w ∈ t.env.drop (t.env.length - 100), w.toNat ≤ f32Inf.toNat := fun w hw => hle w (List.mem_of_mem_drop hw)
  have hwin : (t.env.drop (t.env.length - 100)).length = 100 := by
    rw [List.length_drop]
    omega
  have hpeak : peak.toNat < f32Inf.toNat :=
    lt_of_le_of_ne (hle' peak hmem) fun e => hfin (BitVec.eq_of_toNat_eq e ▸ hmem)
  have h31 : f32Inf.toNat < 2 ^ 31 := by decide
  have hsteps := attackSteps_eq (srate := s.regs.srate) h100 rfl
    (envPeak_eq hmem fun w hw =>
      (f32Real_le_iff_toNat ((hle' w hw).trans_lt h31) (hpeak.trans h31)).1 (hmax w hw))
    (findIdx_reaches hwin hle' hpeak (by simpa using h10)) (findIdx_reaches hwin hle' hpeak (by simpa using h90))
  refine ⟨fun h => ?_, fun h => keeps (hsteps.trans (if_neg (not_lt.2 h)))⟩
  rw [writes _ (hsteps.trans (if_pos h))]
  exact isRne_attack hs h

/-! ### The words after power-on -/

/-- After power-on no RAM word is listed (rule R350). -/
theorem read_reset (a : ℕ) : State.reset.mem.read a = unlisted a := by
  show (if isSpectrum a then none else none).getD (unlisted a) = unlisted a
  rw [ite_self]
  rfl

theorem isSpectrum_iff {a : ℕ} : isSpectrum a = true ↔ 0x040000 ≤ a ∧ a < 0x080000 := by
  simp [isSpectrum]

/-- Settles O16: the registers by evaluation, the RAM by what an unlisted word reads as. -/
theorem resetWordsReadAsTheMapSays : Obligations.ResetWordsReadAsTheMapSays := by
  refine ⟨fun port => ?_, fun a lo hi => ?_, fun a lo hi => ?_, fun a h => ?_, rfl⟩
  · cases port <;> decide +kernel
  · rw [read_reset, unlisted, if_pos (isSpectrum_iff.2 ⟨lo, by omega⟩), spectrumReset, if_pos hi]
    rfl
  · rw [read_reset, unlisted, if_pos (isSpectrum_iff.2 ⟨by omega, hi⟩), spectrumReset, if_neg (not_lt.2 lo)]
  · rw [read_reset, unlisted, if_neg (by rw [isSpectrum_iff]; omega)]

end Sys2Proof.Machine
end

section
/-! ## What a command without a GEN bracket may change (rules R83, R89, R91) -/

namespace Sys2Proof.Machine

/-- What a command that is one atomic step (rule R91) may change: the port streams, STATUS but for ANALYZING, the FIFO within its
invariant, CONS_CNT within C, and CONS_BUF. -/
structure AtomicChange (s t : State) : Prop where
  irqEn : t.irqEn = s.irqEn
  mode : t.mode = s.mode
  order : t.order = s.order
  gen : t.gen = s.gen
  fifoCap : t.fifoCap = s.fifoCap
  blkMax : t.blkMax = s.blkMax
  acc : t.acc = s.acc
  dyn : t.dyn = s.dyn
  env : t.env = s.env
  inFlight : t.inFlight = s.inFlight
  analyzing : t.status.analyzing = s.status.analyzing
  regs : t.regs = { s.regs with consCnt := t.regs.consCnt }
  consCnt : t.regs.consCnt = s.regs.consCnt ∨ t.regs.consCnt.toNat ≤ t.fifoCap.val
  spectrum : t.mem.spectrum = s.mem.spectrum
  ram : ∀ a < baseCons, cellsGet t.mem.ram a = cellsGet s.mem.ram a
  wf : t.mem.wf = true
  fifo : FifoOk t.fifoCap.val t.fifo

namespace AtomicChange

variable {s t u : State}

theorem refl (hm : s.mem.wf = true) (hf : FifoOk s.fifoCap.val s.fifo) : AtomicChange s s :=
  ⟨rfl, rfl, rfl, rfl, rfl, rfl, rfl, rfl, rfl, rfl, rfl, rfl, .inl rfl, rfl, fun _ _ => rfl, hm, hf⟩

theorem trans (h : AtomicChange s t) (h' : AtomicChange t u) : AtomicChange s u where
  irqEn := h'.irqEn.trans h.irqEn
  mode := h'.mode.trans h.mode
  order := h'.order.trans h.order
  gen := h'.gen.trans h.gen
  fifoCap := h'.fifoCap.trans h.fifoCap
  blkMax := h'.blkMax.trans h.blkMax
  acc := h'.acc.trans h.acc
  dyn := h'.dyn.trans h.dyn
  env := h'.env.trans h.env
  inFlight := h'.inFlight.trans h.inFlight
  analyzing := h'.analyzing.trans h.analyzing
  regs := by rw [h'.regs, h.regs]
  consCnt := by
    rcases h'.consCnt with e | hle
    · rw [e, h'.fifoCap]
      exact h.consCnt
    · exact .inr hle
  spectrum := h'.spectrum.trans h.spectrum
  ram := fun a ha => (h'.ram a ha).trans (h.ram a ha)
  wf := h'.wf
  fifo := h'.fifo

/-- A response is no part of what the relation speaks of. -/
theorem respond (h : AtomicChange s t) (code : RespCode) (data : Word) : AtomicChange s (respond code data t) := by
  unfold Machine.respond
  cases t.port <;> exact { h with }

theorem respond_left (h : AtomicChange s t) (code : RespCode) (data : Word) : AtomicChange (Machine.respond code data s) t := by
  unfold Machine.respond
  cases s.port <;> exact { h with }

/-- Taking a command off a port's stream. -/
theorem take (h : AtomicChange s t) (port : Port) (rest : List Word) : AtomicChange s (t.take port rest) := by
  cases port <;> exact { h with }

theorem setStatus (h : AtomicChange s t) {st : Status} (ha : st.analyzing = t.status.analyzing) :
    AtomicChange s { t with status := st } := { h with analyzing := ha.trans h.analyzing }

/-- An error answer sets a STATUS bit that is not ANALYZING (rule R322). -/
theorem answerError (h : AtomicChange s t) (code : RespCode) : AtomicChange s (answerError code t) := by
  cases code with
  | ok => exact h.respond _ _
  | errCmd => exact (h.setStatus (st := { t.status with errCmd := true }) rfl).respond _ _
  | errAddr => exact (h.setStatus (st := { t.status with errAddr := true }) rfl).respond _ _
  | errPort => exact (h.setStatus (st := { t.status with errPort := true }) rfl).respond _ _

theorem writeStatus (h : AtomicChange s t) (data : Word) : AtomicChange s (writeStatus data t) :=
  (h.setStatus (st := t.status.writeOneToClear data) rfl).respond _ _

theorem closeBracket (h : AtomicChange s t) : AtomicChange (closeBracket s) (closeBracket t) :=
  ((show AtomicChange (genClose s) (genClose t) from { h with gen := congrArg (· + 1) h.gen }).respond _ _).respond_left _ _

/-- A write step of the command under way does the same on both sides. -/
theorem apply (h : AtomicChange s t) {w : Write} (hw : w.inRam = true) :
    AtomicChange (w.step.apply s) (w.step.apply t) := by
  obtain ⟨pub, w⟩ := w
  cases w with
  | reg r v =>
    refine { h with regs := ?_, consCnt := ?_ }
    · show t.regs.set r v = { s.regs.set r v with consCnt := (t.regs.set r v).consCnt }
      rw [h.regs]
      cases r <;> rfl
    · cases r
      case consCnt => exact .inl rfl
      all_goals exact h.consCnt
  | ctrl b => exact { h with irqEn := rfl }
  | mode m => exact { h with mode := rfl }
  | order o => exact { h with order := rfl }
  | flag f b =>
    refine { h with analyzing := ?_ }
    cases f with
    | analyzing => rfl
    | _ => exact h.analyzing
  | clearStatus => exact { h with analyzing := rfl }
  | word a v =>
    refine { h with spectrum := ?_, ram := fun b hb => ?_, wf := Memory.wf_write h.wf hw v }
    · show (t.mem.write a v).spectrum = (s.mem.write a v).spectrum
      unfold Memory.write
      split
      · split <;> simp only [h.spectrum]
      · exact h.spectrum
    · show cellsGet (t.mem.write a v).ram b = cellsGet (s.mem.write a v).ram b
      rw [Memory.ram_write, Memory.ram_write, h.ram b hb]
  | clearSpectrum => exact { h with spectrum := rfl, wf := Memory.wf_clearSpectrum h.wf }
  | accept xs => exact { h with acc := congrArg (· ++ xs) h.acc }
  | clearFill => exact { h with acc := rfl }
  | dynPush pair =>
    have hd : pushPair t.dyn pair = pushPair s.dyn pair := by rw [h.dyn]
    simp only [WriteStep.apply, hd]
    generalize pushPair s.dyn pair = d
    exact { h with dyn := rfl }
  | clearDyn => exact { h with dyn := rfl }
  | envPush v cap =>
    refine { h with env := ?_ }
    show pushEnv t.env v cap = pushEnv s.env v cap
    rw [h.env]
  | clearEnv => exact { h with env := rfl }
  | clearFifo => exact { h with fifo := h.fifo.clear }

theorem applyAll (h : AtomicChange s t) {ws : List Write} (hw : ∀ w ∈ ws, w.inRam = true) :
    AtomicChange (applyAll ws s) (applyAll ws t) := by
  induction ws generalizing s t with
  | nil => exact h
  | cons w ws ih => exact ih (h.apply (hw w List.mem_cons_self)) fun x hx => hw x (List.mem_cons_of_mem _ hx)

/-- The command under way ends with the same difference as it stands now. -/
theorem drain (h : AtomicChange s t) (hw : ∀ ws, s.inFlight = some ws → ∀ w ∈ ws, w.inRam = true) :
    AtomicChange s.drain t.drain := by
  unfold State.drain
  rw [h.inFlight]
  cases hf : s.inFlight with
  | none => exact h
  | some ws =>
    refine (applyAll ?_ (hw ws hf)).closeBracket
    exact { h with inFlight := rfl }

/-- What is settled stays settled: no clause of it speaks of a word that the change may touch, but for the FIFO, CONS_CNT and the
canonical form of the memory. -/
theorem settled (h : AtomicChange s t) (hs : Settled s) : Settled t where
  mem := h.wf
  fill := by
    rw [h.acc, State.nsize, h.order]
    exact hs.fill
  linearIdle := by
    rw [h.mode, h.analyzing, h.acc]
    exact hs.linearIdle
  blklen := by
    rw [h.regs, h.blkMax]
    exact hs.blklen
  srate := by
    rw [h.regs]
    exact hs.srate
  tfreq := by
    rw [h.regs]
    exact hs.tfreq
  fifo := h.fifo
  consCnt := by
    rcases h.consCnt with e | hle
    · rw [e, h.fifoCap]
      exact hs.consCnt
    · exact hle
  fbin := by
    rw [h.regs]
    exact hs.fbin
  hcnt := by
    rw [h.regs]
    exact hs.hcnt
  harm := by
    rw [h.regs]
    exact hs.harm
  thdn := by
    rw [h.regs]
    exact hs.thdn
  imd := by
    rw [h.regs]
    exact hs.imd
  dynCnt := by
    rw [h.dyn]
    exact hs.dynCnt
  dynNewest := by
    rw [h.dyn, h.regs]
    exact hs.dynNewest
  dynLevels := by
    rw [h.regs]
    exact hs.dynLevels
  envCnt := by
    rw [h.env]
    exact hs.envCnt
  envValues := by
    rw [h.env]
    exact hs.envValues
  noNaN := by
    rw [h.regs]
    exact hs.noNaN
  phases := by
    rw [h.spectrum]
    exact hs.phases
  gen := by
    rw [h.gen]
    exact hs.gen

/-- Every word of rule R93's snapshots reads as before. -/
theorem register_read (h : AtomicChange s t) {r : Register} (hr : r.snapshot = true) : r.read t = r.read s := by
  cases r <;> simp only [Register.snapshot, Bool.false_eq_true] at hr <;>
    simp only [Register.read, State.nsize, h.irqEn, h.mode, h.order, h.acc, h.dyn, h.env, h.fifoCap, h.blkMax] <;>
    rw [h.regs]

theorem mem_read (h : AtomicChange s t) {a : ℕ} (ha : a < baseCons) : t.mem.read a = s.mem.read a := by
  rw [Memory.read, Memory.read, h.spectrum, h.ram a ha]

end AtomicChange

/-! ### FRD's words in CONS_BUF (rule R264) -/

theorem isPlainRam_cons {cap : Capacity} {j : ℕ} (h : j < cap.val) : isPlainRam (baseCons + j) = true := by
  have := cap.2.2
  simp only [isPlainRam, baseCons, Bool.or_eq_true, Bool.and_eq_true, decide_eq_true_eq]
  omega

theorem Memory.spectrum_writeList {m : Memory} {base : ℕ} {xs : List Word}
    (h : ∀ j < xs.length, isSpectrum (base + j) = false) : (m.writeList base xs).spectrum = m.spectrum := by
  induction xs generalizing m base with
  | nil => rfl
  | cons x xs ih =>
    have h0 : isSpectrum base = false := h 0 (by simp)
    rw [Memory.writeList, ih fun j hj => ?_, Memory.write, if_neg (by simp [h0])]
    have := h (j + 1) (by simpa using hj)
    rwa [Nat.add_assoc, Nat.add_comm 1]

theorem Memory.ram_writeList_below {m : Memory} {base a : ℕ} (xs : List Word) (h : a < base) :
    cellsGet (m.writeList base xs).ram a = cellsGet m.ram a := by
  induction xs generalizing m base with
  | nil => rfl
  | cons x xs ih => rw [Memory.writeList, ih (by omega), Memory.ram_write, if_neg (by omega)]

/-- FRD moves at most the samples that the FIFO holds (rule R263). -/
theorem AtomicChange.takeSamples {s : State} (hm : s.mem.wf = true) (hf : FifoOk s.fifoCap.val s.fifo) {n : ℕ}
    (hn : n ≤ s.fifo.count) : AtomicChange s (takeSamples n s) := by
  have hcap := s.fifoCap.2.2
  have hcount := hf.count
  have hplain : ∀ j < ((s.fifo.queue s.fifoCap.val).take n).length, isPlainRam (baseCons + j) = true := fun j hj =>
    isPlainRam_cons (cap := s.fifoCap) (by
      rw [List.length_take, Fifo.length_queue] at hj
      omega)
  refine { AtomicChange.refl hm hf with
    regs := rfl
    consCnt := .inr ?_
    spectrum := Memory.spectrum_writeList fun j hj => isPlainRam_not_isSpectrum (hplain j hj)
    ram := fun a ha => Memory.ram_writeList_below _ ha
    wf := Memory.wf_writeList hm fun j hj => by rw [hplain j hj, Bool.true_or]
    fifo := (Fifo.pop_spec hf hn).2 }
  show (BitVec.ofNat 32 n).toNat ≤ s.fifoCap.val
  rw [BitVec.toNat_ofNat]
  omega

/-! ### What a command, a port and a step can do -/

/-- Every command is an atomic change, or a bracketed command on Port P (rule R91). -/
theorem exec_effect {i : Instr} {s t : State} (hm : s.mem.wf = true) (hf : FifoOk s.fifoCap.val s.fifo)
    (h : exec i s = .next t) :
    AtomicChange s t ∨ ∃ ws, s.port = .producer ∧ bracketed i s = some ws ∧ t = bracket ws s := by
  have hr := AtomicChange.refl hm hf
  rcases exec_cases h with ⟨code, -, rfl⟩ | ⟨imm, -, rfl⟩ | ⟨addr, -, -, rfl⟩ | ⟨data, -, rfl⟩ | ⟨imm, -, -, rfl⟩ |
    ⟨m, -, -, rfl⟩ | hb
  · exact .inl (hr.answerError code)
  · exact .inl (hr.respond _ _)
  · exact .inl (hr.respond _ _)
  · exact .inl (hr.writeStatus data)
  · refine .inl (AtomicChange.respond ?_ _ _)
    obtain ⟨-, -, hpush⟩ := Fifo.push_spec hf (s.mem.block basePostL s.regs.blklen.toNat)
    exact { hr with fifo := hpush }
  · exact .inl ((AtomicChange.takeSamples hm hf (Nat.min_le_right _ _)).respond _ _)
  · exact .inr hb

/-- Everything a step can do, up to an atomic change: Port P performs a bracketed command whole, begins it, performs one of its
write steps, or closes it (rules R90, R91). -/
inductive StepEffect (s : State) : State → Prop
  | atomic {t : State} (h : AtomicChange s t) : StepEffect s t
  | whole {s₀ : State} {i : Instr} {ws : List Write} (h : AtomicChange s s₀) (idle : s₀.inFlight = none)
    (hp : s₀.port = .producer) (hb : bracketed i s₀ = some ws) : StepEffect s (bracket ws s₀)
  | begun {s₀ : State} {i : Instr} {ws : List Write} (h : AtomicChange s s₀) (idle : s₀.inFlight = none)
    (hp : s₀.port = .producer) (hb : bracketed i s₀ = some ws) :
    StepEffect s { genOpen s₀ with inFlight := some (expandAll ws) }
  | write {s₀ : State} {ws rest : List Write} {w : Write} (h : AtomicChange s s₀) (hf : s₀.inFlight = some ws)
    (hn : (w, rest) ∈ nextSteps ws) : StepEffect s { w.step.apply s₀ with inFlight := some rest }
  | closed {s₀ : State} {ws : List Write} (h : AtomicChange s s₀) (hf : s₀.inFlight = some ws) : StepEffect s s₀.drain

section

variable {s s₀ t : State}

/-- A port's whole command is an atomic change, but for a bracketed command on Port P. -/
theorem runPort_effect {port : Port} (h₀ : AtomicChange s s₀) (idle : port = .producer → s₀.inFlight = none)
    (h : runPort port s₀ = .next t) : StepEffect s t := by
  unfold runPort at h
  split at h
  · rename_i i rest _
    have h₁ := h₀.take port rest
    rcases exec_effect h₁.wf h₁.fifo h with h₂ | ⟨ws, hp, hb, rfl⟩
    · exact .atomic (h₁.trans h₂)
    · rw [take_port] at hp
      exact .whole h₁ (by rw [take_inFlight, idle hp]) (by rw [take_port, hp]) hb
  · cases h
    exact .atomic ((h₀.take port _).answerError _)
  · cases h
    exact .atomic h₀

theorem beginP_effect (h₀ : AtomicChange s s₀) (idle : s₀.inFlight = none) (h : beginP s₀ = .next t) : StepEffect s t := by
  unfold beginP at h
  split at h
  · rename_i i rest _
    have h₁ := h₀.take .producer rest
    split at h
    · rename_i ws hb
      cases h
      exact .begun h₁ (by rw [take_inFlight, idle]) (by rw [take_port]) hb
    · rename_i hb
      rcases exec_effect h₁.wf h₁.fifo h with h₂ | ⟨ws, -, hb', -⟩
      · exact .atomic (h₁.trans h₂)
      · rw [hb] at hb'
        cases hb'
  · cases h
    exact .atomic ((h₀.take .producer _).answerError _)
  · cases h
    exact .atomic h₀

theorem runTurn_effect {turn : Turn} (h₀ : AtomicChange s s₀) (h : runTurn turn s₀ = .next t) : StepEffect s t := by
  cases turn with
  | wholeP =>
    simp only [runTurn, wholeP] at h
    split at h
    · rename_i idle
      exact runPort_effect h₀ (fun _ => idle) h
    · rename_i ws hf
      cases h
      exact .closed h₀ hf
  | stepP choice =>
    simp only [runTurn, stepP] at h
    split at h
    · rename_i idle
      exact beginP_effect h₀ idle h
    · rename_i ws hf
      split at h
      · rename_i w rest hn
        cases h
        exact .write h₀ hf (List.mem_of_getElem? hn)
      · cases h
        exact .closed h₀ hf
  | portC => exact runPort_effect (port := .consumer) h₀ nofun h

/-- Deciding the turn changes nothing but the model's own fields (rule R90). -/
theorem AtomicChange.nextTurn (h : AtomicChange s s₀) : AtomicChange s s₀.nextTurn.2 := by
  unfold State.nextTurn
  split
  · exact { h with }
  · split
    · exact h
    · exact h
    · exact h
    · exact { h with }

theorem step_effect (hm : s.mem.wf = true) (hf : FifoOk s.fifoCap.val s.fifo) (h : step s = .next t) : StepEffect s t := by
  have h₀ := (AtomicChange.refl hm hf).nextTurn
  unfold step at h
  split at h
  · rename_i t' ht
    cases h
    rw [ht] at h₀
    exact .atomic h₀
  · rename_i turn t' ht
    rw [ht] at h₀
    exact runTurn_effect h₀ h

end

end Sys2Proof.Machine
end

section
/-! ## What is settled stays settled (rules R39 to R66, R227, R292) -/

namespace Sys2Proof.Machine

/-! ### The words that the results take -/

/-- A correctly rounded quotient is not NaN (rule R9). -/
theorem f32IsNaN_rneFrac (neg : Bool) (num den : ℕ) : f32IsNaN (rneFrac neg num den) = false := by
  rw [rneFrac]
  split
  · rfl
  · have hle : rneMagBits num den ≤ 0x7F800000 := Nat.min_le_right _ _
    rw [f32IsNaN, f32Exp, f32Frac, BitVec.toNat_ofNat, Bool.and_eq_false_iff]
    simp only [beq_eq_false_iff_ne, bne_eq_false_iff_eq]
    cases neg <;> simp only [Bool.false_eq_true, if_false, if_true] <;> omega

/-- A level is finite and at or above −100.0 (rule R230). -/
theorem levelInRange_levelWord (num : Numerics) (samples : List Word) :
    levelInRange Config.dynFloor (levelWord num samples) = true := by
  rw [levelWord]
  split
  · decide +kernel
  · rw [keepRms]
    split
    · rename_i h
      rw [Bool.and_eq_true] at h
      exact h.1
    · decide +kernel

theorem keepPercent_lt (mode : NumericsMode) (w : Word) : (keepPercent mode w).toNat < f32Inf.toNat := by
  rw [keepPercent]
  split
  · rename_i h
    rw [Bool.and_eq_true, decide_eq_true_iff] at h
    exact h.1
  · decide

theorem thdWord_lt (num : Numerics) (levels : List Word) (fb : ℕ) : (thdWord num levels fb).toNat < f32Inf.toNat := by
  rw [thdWord]
  split
  · decide
  · exact keepPercent_lt _ _

theorem thdnValue_lt (num : Numerics) (levels : List Word) (fb : ℕ) :
    (thdnValue num levels fb).toNat < f32Inf.toNat := by
  rw [thdnValue]
  split
  · decide
  · exact keepPercent_lt _ _

/-- The stored percentages are finite and in order (rule R227). -/
theorem percentages_inRange (num : Numerics) (levels : List Word) (fb : ℕ) :
    (thdWord num levels fb).toNat ≤ (thdnWord num levels fb).toNat ∧
      (thdnWord num levels fb).toNat < f32Inf.toNat := by
  have h1 := thdWord_lt num levels fb
  have h2 := thdnValue_lt num levels fb
  rw [toNat_thdnWord]
  omega

theorem keepPhase_le (w : Word) : (f32Abs (keepPhase w)).toNat ≤ f32Pi.toNat := by
  rw [keepPhase]
  split
  · assumption
  · decide

/-- A stored phase lies in [−rne(π), rne(π)] (rule R191). -/
theorem phWords_le {num : Numerics} {windowed : Bool} {block : List Word} {bins : ℕ} {w : Word}
    (h : w ∈ phWords num windowed block bins) : (f32Abs w).toNat ≤ f32Pi.toNat := by
  rw [phWords] at h
  split at h
  · obtain ⟨-, rfl⟩ := List.mem_replicate.1 h
    decide
  · obtain ⟨k, -, rfl⟩ := List.mem_map.1 h
    split
    · decide
    · exact keepPhase_le _

theorem harmCount_le (bins fb : ℕ) : harmCount bins fb ≤ 10 :=
  (List.length_filter_le _ _).trans (List.length_range).le

/-- Harmonics are counted from the first (rule R224): those that lie below B come before the others. -/
theorem lt_harmCount {bins fb j : ℕ} (hj : j < 10) (h : (j + 1) * fb < bins) : j < harmCount bins fb := by
  have hall : (List.range (j + 1)).filter (fun i => decide ((i + 1) * fb < bins)) = List.range (j + 1) :=
    List.filter_eq_self.2 fun i hi => by
      have hi : i + 1 ≤ j + 1 := List.mem_range.1 hi
      exact decide_eq_true ((Nat.mul_le_mul_right fb hi).trans_lt h)
  have hsub : (List.range (j + 1)).Sublist (List.range Config.harmMax) := List.range_sublist.2 hj
  have hle := (hsub.filter fun i => decide ((i + 1) * fb < bins)).length_le
  rw [hall, List.length_range] at hle
  exact hle

theorem harmLevel_of_le {levels : List Word} {fb : ℕ} {j : Fin 10} (h : harmCount levels.length fb ≤ j.val) :
    harmLevel levels fb j.val = Config.magFloor :=
  if_neg fun hlt => absurd (lt_harmCount j.2 hlt) (not_lt.2 h)

/-- The cap of the envelope series at a legal rate (rule R13). -/
theorem envCap_le {srate : Word} (h : legalRate srate = true) : envCap srate ≤ 1920000 := by
  have hi : f32Int f32HundredNinetyTwoThousand = 192000 * 2 ^ 149 := by decide +kernel
  have hlo := legalRate_ge h
  simp only [legalRate, Bool.and_eq_true, decide_eq_true_eq, hi] at h
  obtain ⟨-, hle⟩ := h
  rw [f32Int_of_pos (by omega)] at hle
  refine Nat.div_le_of_le_mul ?_
  show 10 * f32Mag srate ≤ 2 ^ 149 * 1920000
  omega

theorem length_pushEnv_le {series : List Word} {v : Word} {cap b : ℕ} (hs : series.length ≤ b) (hc : cap ≤ b) :
    (pushEnv series v cap).length ≤ b := by
  simp only [pushEnv, List.length_drop, List.length_append, List.length_singleton]
  omega

theorem length_foldl_pushEnv_le {values series : List Word} {cap b : ℕ} (hs : series.length ≤ b) (hc : cap ≤ b) :
    (values.foldl (fun series v => pushEnv series v cap) series).length ≤ b :=
  List.foldlRecOn (motive := fun series : List Word => series.length ≤ b) values _ hs
    fun _ ih _ _ => length_pushEnv_le ih hc

theorem length_pushPair_le (series : List (Word × Word)) (pair : Word × Word) :
    (pushPair series pair).length ≤ Config.dynCap := by
  simp only [pushPair, List.length_drop, List.length_append, List.length_singleton]
  omega

/-- The pair appended is the newest (rule R231). -/
theorem getLast?_pushPair (series : List (Word × Word)) (pair : Word × Word) :
    (pushPair series pair).getLast? = some pair := by
  rw [pushPair, List.getLast?_drop, if_neg, List.getLast?_append]
  · rfl
  · simp only [List.length_append, List.length_singleton, Config.dynCap]
    omega

/-! ### Power-on (rule R350) -/

theorem settled_reset : Settled State.reset where
  mem := Memory.wf_reset
  fill := by decide
  linearIdle := fun _ _ => rfl
  blklen := Nat.zero_le _
  srate := by decide +kernel
  tfreq := by decide +kernel
  fifo := FifoOk.reset State.reset.fifoCap.2.1
  consCnt := Nat.zero_le _
  fbin := Nat.zero_le _
  hcnt := Nat.zero_le _
  harm := by decide
  thdn := by decide
  imd := rfl
  dynCnt := Nat.zero_le _
  dynNewest := rfl
  dynLevels := by decide +kernel
  envCnt := Nat.zero_le _
  envValues := nofun
  noNaN := by decide +kernel
  phases := nofun
  gen := rfl

/-- Between commands the invariant of every step is what is settled. -/
theorem inv_of_settled {s : State} (h : Settled s) (idle : s.inFlight = none) : Inv s where
  mem := h.mem
  fifo := h.fifo
  inRam := fun ws hf => by
    rw [idle] at hf
    cases hf
  settled := by rwa [drain_none idle]

theorem settled_of_inv {s : State} (h : Inv s) (idle : s.inFlight = none) : Settled s := by
  have hs := h.settled
  rwa [drain_none idle] at hs

/-- Settles O56, by evaluation of the power-on state. -/
theorem resetMeetsTheInvariants : Obligations.ResetMeetsTheInvariants :=
  ⟨settled_reset, inv_of_settled settled_reset rfl⟩

/-! ### WR and TRIG (rules R145 to R152, R292) -/

section

variable {s : State}

theorem settled_setMode (hs : Settled s) (m : Mode) : Settled (applyAll (setModeSteps m s) s) := by
  rw [setModeSteps]
  split
  · exact hs
  · exact { hs with fill := Nat.two_pow_pos _, linearIdle := fun _ _ => rfl }

theorem settled_resize (hs : Settled s) (o : Order) : Settled (applyAll (resizeSteps o s) s) := by
  rw [resizeSteps]
  split
  · exact hs
  · exact { hs with
      mem := Memory.wf_clearSpectrum hs.mem
      fill := Nat.two_pow_pos _
      linearIdle := fun _ _ => rfl
      phases := nofun }

/-- TFREQ is clamped to the legal frequencies (rule R149). -/
theorem tfreqSteps_cases (data : Word) :
    tfreqSteps data = [] ∨ ∃ v, legalFreq v = true ∧ tfreqSteps data = [.reg .tfreq v] := by
  rw [tfreqSteps]
  split
  · exact .inl rfl
  · rename_i hn
    split
    · exact .inr ⟨_, by decide +kernel, rfl⟩
    · rename_i hlo
      split
      · exact .inr ⟨_, by decide +kernel, rfl⟩
      · rename_i hhi
        refine .inr ⟨_, ?_, rfl⟩
        simp only [legalFreq, Bool.and_eq_true, Bool.not_eq_true', decide_eq_true_eq]
        exact ⟨⟨by simpa using hn, not_lt.1 hlo⟩, not_lt.1 hhi⟩

theorem settled_regWrite (hs : Settled s) (r : Register) (d : Word) : Settled (applyAll (regWriteSteps r d s) s) := by
  cases r with
  | ctrl => exact { hs with }
  | mode =>
    simp only [regWriteSteps]
    split
    · exact settled_setMode hs _
    · exact hs
  | order =>
    simp only [regWriteSteps]
    split
    · exact settled_resize hs _
    · exact hs
  | srate =>
    simp only [regWriteSteps]
    split
    · rename_i h
      exact { hs with srate := h }
    · exact hs
  | tfreq =>
    simp only [regWriteSteps]
    rcases tfreqSteps_cases d with e | ⟨v, hv, e⟩ <;> rw [e]
    · exact hs
    · exact { hs with tfreq := hv }
  | blklen =>
    simp only [regWriteSteps]
    split
    · rename_i h
      exact { hs with blklen := h }
    · exact hs
  | _ => exact hs

theorem mem_spectrum_write {m : Memory} {a : ℕ} {v : Word} {c : Cell} (h : c ∈ (m.write a v).spectrum) :
    c = (a, v) ∨ c ∈ m.spectrum := by
  unfold Memory.write at h
  split at h
  · split at h
    · exact .inr (List.mem_of_mem_filter h)
    · exact mem_cellsPut h
  · exact .inr h

/-- A word the RAM has, and in the phase regions a phase in range (rules R58, R151, R152). -/
theorem settled_word (hs : Settled s) {pub a : ℕ} {v : Word} (ha : Write.inRam ⟨pub, .word a v⟩ = true)
    (hv : basePhL ≤ a → (f32Abs v).toNat ≤ f32Pi.toNat) : Settled ((WriteStep.word a v).apply s) :=
  { hs with
    mem := Memory.wf_write hs.mem ha v
    phases := fun c hc hlo => by
      rcases mem_spectrum_write hc with rfl | hc
      exacts [hv hlo, hs.phases c hc hlo] }

theorem wrSteps_regs {addr : BitVec 24} (h : regionOf addr = some .regs) (d : Word) :
    wrSteps addr d s = [] ∨ ∃ r, wrSteps addr d s = regWriteSteps r d s := by
  simp only [wrSteps, h]
  split
  · exact .inr ⟨_, rfl⟩
  · exact .inl rfl

/-- WR writes no word of the phase regions (rule R83). -/
theorem lt_basePhL_of_write {addr : BitVec 24} {region : Region} (hr : regionOf addr = some region)
    (hw : readOnlyWord region (indexOf addr) = false) : addr.toNat < basePhL := by
  have hn := regionOf_some hr
  cases region <;> simp only [readOnlyWord, Region.number, Bool.true_eq_false] at hn hw <;> simp only [basePhL] <;> omega

theorem settled_wr (hs : Settled s) {addr : BitVec 24} {d : Word} (hc : checkAccess s .write addr = .ok)
    (ha : addr ≠ statusAddr) : Settled (applyAll (wrSteps addr d s) s) := by
  obtain ⟨region, hr, -, -, hw⟩ := checkAccess_ok hc
  by_cases hregs : region = .regs
  · subst hregs
    rcases wrSteps_regs hr d with e | ⟨r, e⟩ <;> rw [e]
    exacts [hs, settled_regWrite hs r d]
  · have e : wrSteps addr d s = [WriteStep.plain (.word addr.toNat d)] := by
      rw [wrSteps, hr]
      cases region with
      | regs => exact absurd rfl hregs
      | _ => rfl
    have hb : bracketed (.wr addr d) s = some (wrSteps addr d s) := if_pos ⟨hc, ha⟩
    have hram : (WriteStep.plain (.word addr.toNat d)).inRam = true := inRam_of_mem hb (by rw [e, List.mem_singleton])
    rw [e]
    exact settled_word hs hram fun hlo => absurd (lt_basePhL_of_write hr (hw rfl)) (not_lt.2 hlo)

theorem settled_trig (hs : Settled s) : Settled (applyAll (trigSteps s) s) :=
  { hs with linearIdle := nofun }

/-! ### THD (rules R220 to R227) -/

theorem vector_get_set (v : Vector Word 10) (i j : Fin 10) (x : Word) :
    (v.set i x).get j = if j = i then x else v.get j := by
  rw [Vector.get_eq_getElem, Vector.get_eq_getElem, Vector.getElem_set]
  simp only [Fin.ext_iff, eq_comm]

/-- The harmonic registers written one by one (rule R224). -/
theorem applyAll_harms (pub : ℕ) (js : List (Fin 10)) (level : Fin 10 → Word) (s : State) :
    ∃ harm : Vector Word 10,
      applyAll ((js.map fun j => WriteStep.reg (.harm j) (level j)).map (Write.mk pub)) s =
        { s with regs := { s.regs with harm := harm } } ∧
      ∀ j, harm.get j = if j ∈ js then level j else s.regs.harm.get j := by
  induction js generalizing s with
  | nil => exact ⟨s.regs.harm, rfl, fun j => (if_neg List.not_mem_nil).symm⟩
  | cons i js ih =>
    obtain ⟨harm, he, hget⟩ := ih ((WriteStep.reg (.harm i) (level i)).apply s)
    refine ⟨harm, by rw [List.map_cons, List.map_cons, applyAll_cons, he]; rfl, fun j => (hget j).trans ?_⟩
    show (if j ∈ js then level j else (s.regs.harm.set i (level i)).get j) = _
    rw [vector_get_set]
    by_cases hj : j ∈ js
    · rw [if_pos hj, if_pos (List.mem_cons_of_mem _ hj)]
    · by_cases e : j = i
      · subst e
        rw [if_neg hj, if_pos rfl, if_pos List.mem_cons_self]
      · rw [if_neg hj, if_neg e, if_neg (by simp [e, hj])]

theorem applyAll_harmSteps (pub : ℕ) (level : Fin 10 → Word) (s : State) :
    ∃ harm : Vector Word 10,
      applyAll ((harmSteps level).map (Write.mk pub)) s = { s with regs := { s.regs with harm := harm } } ∧
      ∀ j, harm.get j = level j := by
  obtain ⟨harm, he, hget⟩ := applyAll_harms pub (List.finRange 10) level s
  exact ⟨harm, he, fun j => (hget j).trans (if_pos (List.mem_finRange j))⟩

/-- Distortion() leaves its results in their ranges, whatever the levels (rules R45, R46, R48). -/
theorem settled_distortion (hs : Settled s) (pub : ℕ) (num : Numerics) (o : Order) {srate tfreq : Word}
    (hsr : legalRate srate = true) (htf : legalFreq tfreq = true) (mags : List Word) :
    Settled (applyAll ((distortionSteps num o srate tfreq mags).map (Write.mk pub)) s) := by
  have hle := fundamentalBin_le o hsr htf
  have hfb : (BitVec.ofNat 32 (fundamentalBin o srate tfreq)).toNat ≤ 81920 := by
    rw [BitVec.toNat_ofNat]
    omega
  rw [distortionSteps]
  generalize fundamentalBin o srate tfreq = fb at hfb
  split
  · obtain ⟨harm, he, hget⟩ := applyAll_harmSteps pub (fun _ => Config.magFloor)
      { s with regs := { s.regs with fbin := BitVec.ofNat 32 fb, thd := 0, thdn := 0, hcnt := 0 } }
    have hzero : (0 : Word).toNat ≤ (0 : Word).toNat ∧ (0 : Word).toNat < f32Inf.toNat := by decide
    simp only [List.map_cons, applyAll_cons, WriteStep.apply, Regs.set]
    rw [he]
    exact { hs with fbin := hfb, hcnt := Nat.zero_le _, harm := fun j _ => hget j, thdn := hzero }
  · generalize hl : mags.map coerceLevel = levels
    obtain ⟨harm, he, hget⟩ := applyAll_harmSteps pub (fun j => harmLevel levels fb j)
      { s with regs := { s.regs with fbin := BitVec.ofNat 32 fb } }
    have hcount : (BitVec.ofNat 32 (harmCount levels.length fb)).toNat = harmCount levels.length fb := by
      have := harmCount_le levels.length fb
      rw [BitVec.toNat_ofNat]
      omega
    rw [List.map_cons, applyAll_cons, applyAll_map_append]
    refine (congrArg (fun t => Settled (applyAll _ t)) he).mpr ?_
    exact { hs with
      fbin := hfb
      hcnt := hcount.trans_le (harmCount_le _ _)
      harm := fun j hj => (hget j).trans (harmLevel_of_le (hcount.symm.trans_le hj))
      thdn := percentages_inRange num levels fb }

theorem settled_thd (hs : Settled s) (num : Numerics) : Settled (applyAll (thdSteps num s) s) :=
  settled_distortion hs 0 num s.order hs.srate hs.tfreq _

/-! ### DYN and ENV (rules R229 to R236) -/

theorem settled_cratio {t : State} (ht : Settled t) {v : Word} (hv : f32IsNaN v = false) :
    Settled ((WriteStep.reg .cratio v).apply t) := { ht with noNaN := ht.noNaN.imp_left fun _ => hv }

theorem settled_attack {t : State} (ht : Settled t) {v : Word} (hv : f32IsNaN v = false) :
    Settled ((WriteStep.reg .attack v).apply t) := { ht with noNaN := ht.noNaN.imp_right fun _ => hv }

theorem settled_ratioSteps {t : State} (ht : Settled t) (series : List (Word × Word)) :
    Settled (applyAll ((ratioSteps series).map WriteStep.plain) t) := by
  rw [ratioSteps]
  split
  · exact ht
  · split
    · dsimp only
      split
      · exact settled_cratio ht (f32IsNaN_rneFrac _ _ _)
      · exact ht
    · exact ht

theorem settled_dyn (hs : Settled s) (num : Numerics) : Settled (applyAll (dynSteps num s) s) := by
  rw [dynSteps]
  dsimp only
  split
  · exact hs
  · generalize hl : levelWord num (s.mem.block basePreL s.regs.blklen.toNat) = lin
    generalize hr : levelWord num (s.mem.block basePostL s.regs.blklen.toNat) = lout
    have hlen := length_pushPair_le s.dyn (lin, lout)
    have hlast := getLast?_pushPair s.dyn (lin, lout)
    generalize hd : pushPair s.dyn (lin, lout) = series at hlen hlast
    have hbase : Settled { s with dyn := series, regs := { s.regs with dynIn := lin, dynOut := lout } } :=
      { hs with
        dynCnt := hlen
        dynNewest := congrArg (Option.getD · _) hlast
        dynLevels := ⟨hl ▸ levelInRange_levelWord _ _, hr ▸ levelInRange_levelWord _ _⟩ }
    simp only [List.map_cons, applyAll_cons, WriteStep.plain, WriteStep.apply, Regs.set, hd]
    exact settled_ratioSteps hbase series

theorem settled_attackSteps {t : State} (ht : Settled t) (srate : Word) (series : List Word) :
    Settled (applyAll ((attackSteps srate series).map WriteStep.plain) t) := by
  rw [attackSteps]
  split
  · exact ht
  · dsimp only
    split
    · exact settled_attack ht (f32IsNaN_rneFrac _ _ _)
    · exact ht

theorem settled_env (hs : Settled s) : Settled (applyAll (envSteps s) s) := by
  rw [envSteps]
  dsimp only
  split
  · exact hs
  · have hvalues : ∀ w ∈ (s.mem.block basePostL s.regs.blklen.toNat).map envValue, w.toNat ≤ f32Inf.toNat := fun w hw => by
      obtain ⟨v, -, rfl⟩ := List.mem_map.1 hw
      exact toNat_envValue_le v
    generalize (s.mem.block basePostL s.regs.blklen.toNat).map envValue = values at hvalues
    have hbase : Settled { s with
        env := values.foldl (fun series v => pushEnv series v (envCap s.regs.srate)) s.env } :=
      { hs with
        envCnt := length_foldl_pushEnv_le hs.envCnt (envCap_le hs.srate)
        envValues := foldl_pushEnv_le hvalues hs.envValues }
    rw [List.map_append, applyAll_append, applyAll_envPush]
    exact settled_attackSteps hbase _ _

/-! ### SRST (rule R293) -/

theorem applyAll_srstSteps (s : State) :
    applyAll (srstSteps s) s = { s with
      status := Status.reset, irqEn := false, mode := .linear, order := Order.reset, regs := Regs.reset,
      mem := s.mem.clearSpectrum, acc := [], fifo := { s.fifo with rd := 0, wr := 0, count := 0 }, dyn := [], env := [] } := by
  obtain ⟨harm, he, hget⟩ := applyAll_harmSteps 0 (fun _ => Config.magFloor)
    { s with
      status := Status.reset, irqEn := false, mode := .linear, order := Order.reset,
      regs := { s.regs with
        srate := Regs.reset.srate, tfreq := Regs.reset.tfreq, blklen := Regs.reset.blklen, seq := Regs.reset.seq,
        fbin := Regs.reset.fbin, thd := Regs.reset.thd, thdn := Regs.reset.thdn, imd := Regs.reset.imd,
        hcnt := Regs.reset.hcnt },
      mem := s.mem.clearSpectrum, acc := [], fifo := { s.fifo with rd := 0, wr := 0, count := 0 }, dyn := [], env := [] }
  have hharm : harm = Vector.replicate 10 Config.magFloor := Vector.ext fun i hi =>
    (hget ⟨i, hi⟩).trans (Vector.getElem_replicate ..).symm
  rw [hharm] at he
  rw [srstSteps, resetRegSteps, resetWordSteps]
  simp only [List.map_cons, List.map_append, applyAll_cons, applyAll_append, List.map_nil, applyAll_nil]
  exact congrArg (applyAll (resetDynSteps.map WriteStep.plain)) he

theorem settled_srst (hs : Settled s) : Settled (applyAll (srstSteps s) s) := by
  rw [applyAll_srstSteps]
  exact { settled_reset with
    mem := Memory.wf_clearSpectrum hs.mem
    blklen := Nat.zero_le _
    fifo := hs.fifo.clear
    consCnt := Nat.zero_le _
    phases := nofun
    gen := hs.gen }

end

end Sys2Proof.Machine
end

section
/-! ## ACC and the invariants of every command and step (rules R66, R90, R91, R180 to R197) -/

namespace Sys2Proof.Machine

/-! ### The publication of a transform (rule R193) -/

/-- The configuration a transform runs under, as the state holds it (rule R180). -/
def State.setup (s : State) : AccSetup := ⟨s.mode, s.order, s.regs.srate, s.regs.tfreq⟩

/-- No step of ACC changes the configuration. -/
theorem AccStep.setup_apply {mode : Mode} {bins : ℕ} {w : WriteStep} (h : AccStep mode bins w) (t : State) :
    (w.apply t).setup = t.setup := by
  cases h with
  | metric v _ hr => cases hr <;> rfl
  | _ => rfl

/-- The accumulated samples take no part in a step that is not about them. -/
theorem apply_setAcc (w : WriteStep) (hw : w.target ≠ .fill) (acc : List (Word × Word)) (s : State) :
    w.apply { s with acc := acc } = { w.apply s with acc := acc } := by
  cases w
  case accept | clearFill => exact absurd rfl hw
  all_goals simp only [WriteStep.apply]

theorem applyAll_setAcc {ws : List Write} (hw : ∀ w ∈ ws, w.step.target ≠ .fill) (acc : List (Word × Word)) (s : State) :
    applyAll ws { s with acc := acc } = { applyAll ws s with acc := acc } := by
  induction ws generalizing s with
  | nil => rfl
  | cons w ws ih =>
    rw [applyAll_cons, apply_setAcc _ (hw w List.mem_cons_self), ih fun x hx => hw x (List.mem_cons_of_mem _ hx),
      applyAll_cons]

/-- No step of a publication is about the accumulated samples. -/
theorem publicationSteps_target {num : Numerics} {u : AccSetup} {seq : Word} {samples : List (Word × Word)} {w : WriteStep}
    (h : w ∈ publicationSteps num u seq samples) : w.target ≠ .fill := by
  simp only [publicationSteps, List.mem_append, List.mem_cons, List.not_mem_nil, or_false] at h
  rcases h with (((h | rfl) | h) | h) | rfl | rfl
  · obtain ⟨a, v, rfl, -⟩ := mem_spectrumSteps h
    nofun
  · nofun
  · split at h
    · obtain rfl := List.mem_singleton.1 h
      nofun
    · exact absurd h List.not_mem_nil
  · obtain ⟨r, v, rfl, -⟩ := mem_metricSteps h
    nofun
  · nofun
  · nofun

theorem mem_spectrum_writeList {m : Memory} {base : ℕ} {xs : List Word} {c : Cell}
    (h : c ∈ (m.writeList base xs).spectrum) : c ∈ m.spectrum ∨ c.2 ∈ xs ∧ c.1 < base + xs.length := by
  induction xs generalizing m base with
  | nil => exact .inl h
  | cons x xs ih =>
    rw [List.length_cons]
    rcases ih h with h | ⟨hv, hlt⟩
    · rcases mem_spectrum_write h with rfl | h
      · exact .inr ⟨List.mem_cons_self, by simp only; omega⟩
      · exact .inl h
    · exact .inr ⟨List.mem_cons_of_mem _ hv, by omega⟩

section

variable {s : State} {num : Numerics} {u : AccSetup}

/-- A channel's words, magnitudes below the phase regions or phases in range (rule R58). -/
theorem settled_wordSteps (hs : Settled s) (pub : ℕ) {base : ℕ} {ws : List Word}
    (hbase : base ∈ [baseMagL, baseMagR, basePhL, basePhR]) (hlen : ws.length ≤ Config.binsMax)
    (hph : basePhL ≤ base → ∀ w ∈ ws, (f32Abs w).toNat ≤ f32Pi.toNat) :
    Settled (applyAll ((wordSteps base ws).map (Write.mk pub)) s) := by
  have hb : base % 0x10000 = 0 ∧ baseMagL ≤ base ∧ base < baseCons ∧ (base < basePhL → base + 0x10000 ≤ basePhL) := by
    fin_cases hbase <;> decide
  obtain ⟨hmod, hlo, hhi, hmag⟩ := hb
  simp only [Config.binsMax] at hlen
  rw [applyAll_wordSteps]
  refine { hs with mem := Memory.wf_writeList hs.mem fun j hj => ?_, phases := fun c hc hc_lo => ?_ }
  · simp only [Bool.or_eq_true, hasSpectrumWord, isSpectrum, Bool.and_eq_true, decide_eq_true_eq, Config.binsMax, baseMagL,
      baseCons] at hlo hhi ⊢
    omega
  · rcases mem_spectrum_writeList hc with hc | ⟨hv, hlt⟩
    · exact hs.phases c hc hc_lo
    · have hphase : basePhL ≤ base := by
        by_contra hbelow
        have := hmag (not_le.1 hbelow)
        omega
      exact hph hphase _ hv

theorem settled_magWords (hs : Settled s) (pub : ℕ) {base bins : ℕ} (num : Numerics) (windowed : Bool) (block : List Word)
    (hbase : base = baseMagL ∨ base = baseMagR) (hbins : bins ≤ Config.binsMax) :
    Settled (applyAll ((wordSteps base (magWords num windowed block bins)).map (Write.mk pub)) s) := by
  refine settled_wordSteps hs pub ?_ (by simpa using hbins) fun hlo => ?_
  · rcases hbase with rfl | rfl <;> simp
  · rcases hbase with rfl | rfl <;> exact absurd hlo (by decide)

theorem settled_phWords (hs : Settled s) (pub : ℕ) {base bins : ℕ} (num : Numerics) (windowed : Bool) (block : List Word)
    (hbase : base = basePhL ∨ base = basePhR) (hbins : bins ≤ Config.binsMax) :
    Settled (applyAll ((wordSteps base (phWords num windowed block bins)).map (Write.mk pub)) s) := by
  refine settled_wordSteps hs pub ?_ (by simpa using hbins) fun _ _ hw => phWords_le hw
  rcases hbase with rfl | rfl <;> simp

theorem settled_spectrumSteps (hs : Settled s) (pub : ℕ) (num : Numerics) (u : AccSetup) (left right : List Word) :
    Settled (applyAll ((spectrumSteps num u left right).map (Write.mk pub)) s) := by
  have hbins := Order.pow_le u.order
  rw [spectrumSteps, applyAll_map_append, applyAll_map_append, applyAll_map_append]
  have h₁ := settled_magWords hs pub num u.windowed left (.inl rfl) hbins
  have h₂ := settled_magWords h₁ pub num u.windowed right (.inr rfl) hbins
  have h₃ := settled_phWords h₂ pub num u.windowed left (.inl rfl) hbins
  exact settled_phWords h₃ pub num u.windowed right (.inr rfl) hbins

/-- The spectrum steps of a publication write the spectrum RAM alone. -/
theorem applyAll_spectrumSteps (pub : ℕ) (num : Numerics) (u : AccSetup) (left right : List Word) (s : State) :
    ∃ m, applyAll ((spectrumSteps num u left right).map (Write.mk pub)) s = { s with mem := m } := by
  simp only [spectrumSteps, applyAll_map_append, applyAll_wordSteps]
  exact ⟨_, rfl⟩

theorem settled_metricSteps (hs : Settled s) (pub : ℕ) (num : Numerics) (hu : s.setup = u) (left : List Word) :
    Settled (applyAll ((metricSteps num u left).map (Write.mk pub)) s) := by
  subst hu
  rw [metricSteps]
  split
  · exact settled_distortion hs pub num s.order hs.srate hs.tfreq _
  · exact settled_distortion hs pub num s.order hs.srate hs.tfreq _
  · exact { hs with imd := rfl }
  all_goals exact hs

/-- In a state with no sample accumulated, every step of a publication keeps what is settled: ANALYZING may fall in Linear mode
(rule R292). -/
theorem settled_publicationSteps (hs : Settled s) (hacc : s.acc = []) (hu : s.setup = u) (pub : ℕ) (num : Numerics) (seq : Word)
    (samples : List (Word × Word)) :
    Settled (applyAll ((publicationSteps num u seq samples).map (Write.mk pub)) s) := by
  have h₁ := settled_spectrumSteps hs pub num u (samples.map Prod.fst) (samples.map Prod.snd)
  obtain ⟨m, hm⟩ := applyAll_spectrumSteps pub num u (samples.map Prod.fst) (samples.map Prod.snd) s
  rw [publicationSteps, applyAll_map_append, applyAll_map_append, applyAll_map_append, applyAll_map_append, hm]
  rw [hm] at h₁
  have h₂ (st : Status) : Settled { s with mem := m, status := st } := { h₁ with linearIdle := fun _ _ => hacc }
  have h₃ : Settled (applyAll ((metricSteps num u (samples.map Prod.fst)).map (Write.mk pub))
      (applyAll ((if u.mode = .linear then [WriteStep.flag .analyzing false] else []).map (Write.mk pub))
        (applyAll ([WriteStep.flag .valid true].map (Write.mk pub)) { s with mem := m }))) := by
    split
    · exact settled_metricSteps (h₂ _) pub num (by exact hu) _
    · exact settled_metricSteps (h₂ _) pub num (by exact hu) _
  exact { h₃ with }

/-- A publication with the FILL <- 0 after it (rule R193). -/
theorem settled_publish (hs : Settled s) (hu : s.setup = u) (pub : ℕ) (num : Numerics) (seq : Word)
    (samples : List (Word × Word)) :
    Settled (WriteStep.clearFill.apply (applyAll ((publicationSteps num u seq samples).map (Write.mk pub)) s)) := by
  have hempty : Settled { s with acc := [] } := { hs with fill := Nat.two_pow_pos _, linearIdle := fun _ _ => rfl }
  have h := settled_publicationSteps hempty rfl hu pub num seq samples
  rwa [applyAll_setAcc fun w hw => by
    obtain ⟨x, hx, rfl⟩ := List.mem_map.1 hw
    exact publicationSteps_target hx] at h

theorem setup_publication (pub : ℕ) (num : Numerics) (u : AccSetup) (seq : Word) (samples : List (Word × Word)) (s : State) :
    (applyAll ((publicationSteps num u seq samples).map (Write.mk pub)) s).setup = s.setup :=
  applyAll_map_preserves pub State.setup _ s fun _ hw t => (mem_publicationSteps hw).setup_apply t

/-! ### The passes of ACC (rules R180 to R183, R194) -/

/-- Samples are accumulated below N, and in Linear mode while ANALYZING is set (rules R39, R292). -/
theorem settled_accept (hs : Settled s) {xs : List (Word × Word)} (hlen : s.acc.length + xs.length < s.nsize)
    (hrun : s.mode = .linear → s.status.analyzing = true) : Settled ((WriteStep.accept xs).apply s) :=
  { hs with
    fill := (List.length_append.trans_lt hlen : (s.acc ++ xs).length < s.nsize)
    linearIdle := fun hmode hidle => by
      rw [show s.status.analyzing = false from hidle] at hrun
      exact absurd (hrun hmode) Bool.false_ne_true }

/-- The loop's ANALYZING is the state's as long as Linear mode goes on: then FILL may rise (rules R182, R292). -/
theorem settled_accPasses (hs : Settled s) (hu : s.setup = u) {fuel pub : ℕ} {acc xs : List (Word × Word)} {analyzing : Bool}
    {seq : Word} (hacc : s.acc = acc) (hlin : u.mode = .linear → analyzing = true → s.status.analyzing = true) :
    Settled (applyAll (accPasses num u fuel pub acc xs analyzing seq) s) := by
  induction fuel generalizing s pub acc xs analyzing seq with
  | zero => exact hs
  | succ fuel ih =>
    have hfill : acc.length < 2 ^ u.order.val := by
      rw [← hacc, ← hu]
      exact hs.fill
    rw [accPasses]
    split
    · exact hs
    · rename_i hgo
      simp only [Bool.or_eq_true, Bool.and_eq_true, decide_eq_true_eq, Bool.not_eq_true', not_or, not_and,
        Bool.not_eq_false] at hgo
      obtain ⟨-, hgo⟩ := hgo
      dsimp only
      split
      · rw [applyAll_append, applyAll_cons]
        generalize acc ++ xs.take _ = samples
        have hpub := settled_publish hs hu pub num seq samples
        have hset := (setup_publication pub num u seq samples s).trans hu
        generalize applyAll ((publicationSteps num u seq samples).map (Write.mk pub)) s = t at hpub hset
        refine ih hpub hset rfl fun hmode h => ?_
        simp [hmode] at h
      · rename_i hne
        rw [applyAll_cons]
        subst hu hacc
        refine ih (settled_accept hs ?_ fun hmode => hlin hmode (hgo hmode)) rfl rfl hlin
        simp only [State.setup, State.nsize, List.length_append, List.length_take] at hfill hne ⊢
        omega

theorem settled_acc (hs : Settled s) (num : Numerics) : Settled (applyAll (accSteps num s) s) :=
  settled_accPasses hs rfl rfl fun _ h => h

/-! ### Every command -/

/-- The bracket adds nothing but GEN, two further, and the response (rule R91). -/
theorem settled_bracket {ws : List Write} (h : Settled (applyAll ws s)) : Settled (bracket ws s) := by
  have hg : (s.gen + 2).toNat % 2 = 0 := by
    have := h.gen
    rw [applyAll_gen] at this
    rw [BitVec.toNat_add]
    show (s.gen.toNat + 2) % 2 ^ 32 % 2 = 0
    omega
  have hs : Settled { applyAll ws s with gen := s.gen + 2 } := { h with gen := hg }
  rw [bracket_eq]
  exact ((AtomicChange.refl hs.mem hs.fifo).respond _ _).settled hs

theorem settled_bracketed (hs : Settled s) {i : Instr} {ws : List Write} (h : bracketed i s = some ws) :
    Settled (bracket ws s) := by
  refine settled_bracket ?_
  cases i <;> simp only [bracketed, Option.some.injEq, reduceCtorEq] at h
  case wr addr d =>
    split at h
    · rename_i hc
      obtain ⟨hok, hne⟩ := hc
      cases h
      exact settled_wr hs hok hne
    · cases h
  all_goals subst h
  case acc => exact settled_acc hs _
  case dyn => exact settled_dyn hs _
  case env => exact settled_env hs
  case thd => exact settled_thd hs _
  case trig => exact settled_trig hs
  case srst => exact settled_srst hs

/-- Settles O57: an atomic change touches no clause that could fail, and the steps of each bracketed command end in their
ranges. -/
theorem commandsKeepTheSettledState : Obligations.CommandsKeepTheSettledState := by
  intro i s t hs h
  rcases exec_effect hs.mem hs.fifo h with ha | ⟨ws, -, hb, rfl⟩
  · exact ha.settled hs
  · exact settled_bracketed hs hb

/-! ### Every step -/

theorem drain_some {ws : List Write} (h : s.inFlight = some ws) :
    s.drain = closeBracket (applyAll ws { s with port := .producer, inFlight := none }) := by
  rw [State.drain, h]

@[simp] theorem drain_inFlight (s : State) : s.drain.inFlight = none := by
  unfold State.drain
  split
  · assumption
  · rw [closeBracket_inFlight, applyAll_inFlight]

/-- An atomic change, of either port, in the midst of a Port P command or between commands. -/
theorem inv_of_atomicChange {t : State} (hi : Inv s) (h : AtomicChange s t) : Inv t where
  mem := h.wf
  fifo := h.fifo
  inRam := fun ws hf => hi.inRam ws (h.inFlight.symm.trans hf)
  settled := (h.drain hi.inRam).settled hi.settled

theorem inRam_expandAll {ws : List Write} (h : ∀ w ∈ ws, w.inRam = true) : ∀ w ∈ expandAll ws, w.inRam = true := by
  intro w hw
  obtain ⟨w₀, h₀, hw⟩ := List.mem_flatMap.1 hw
  obtain ⟨x, hx, rfl⟩ := List.mem_map.1 hw
  have hram := h w₀ h₀
  obtain ⟨pub, w₀⟩ := w₀
  cases w₀ with
  | clearSpectrum =>
    obtain ⟨a, ha, rfl⟩ := List.mem_map.1 hx
    simp only [Write.inRam, mem_spectrumAddresses.1 ha, Bool.or_true]
  | _ =>
    obtain rfl := List.mem_singleton.1 hx
    exact hram

/-- A begun command ends as the whole command does (rules R89, R91). -/
theorem drain_begun (hp : s.port = .producer) (idle : s.inFlight = none) (hm : s.mem.wf = true) {ws : List Write}
    (hw : ∀ w ∈ ws, w.inRam = true) :
    State.drain { genOpen s with inFlight := some (expandAll ws) } = bracket ws s := by
  have hs : { genOpen s with port := .producer, inFlight := none } = genOpen s := by
    cases s
    simp only at hp idle
    subst hp idle
    rfl
  rw [drain_some rfl, bracket]
  show closeBracket (applyAll (expandAll ws) { genOpen s with port := .producer, inFlight := none }) = _
  rw [hs]
  exact congrArg closeBracket (applyAll_expandAll (s := genOpen s) hm hw)

/-- Whichever step that may come next is performed, the command ends in the same state (rule R91, log 15). -/
theorem drain_write (hi : Inv s) {ws rest : List Write} {w : Write} (hf : s.inFlight = some ws) (hn : (w, rest) ∈ nextSteps ws) :
    State.drain { w.step.apply s with inFlight := some rest } = s.drain := by
  obtain ⟨pre, post, rfl, rfl, hb⟩ := mem_nextSteps.1 hn
  have hram := hi.inRam _ hf
  have hc : ∀ x ∈ pre, x.step.conflicts w.step = false := fun x hx => by
    have := hb x hx
    rw [Write.blocks, Bool.or_eq_false_iff] at this
    exact this.1
  rw [drain_some rfl, drain_some hf, applyAll_pull (by exact hi.mem)
    (fun x hx => hram x (List.mem_append_left _ hx)) (hram w (by simp)) hc, apply_setInFlight s w.step .producer none]

theorem inv_of_stepEffect {t : State} (hi : Inv s) (h : StepEffect s t) : Inv t := by
  cases h with
  | atomic h => exact inv_of_atomicChange hi h
  | whole h idle hp hb =>
    have h₀ := settled_of_inv (inv_of_atomicChange hi h) idle
    exact inv_of_settled (settled_bracketed h₀ hb) (by rw [bracket_inFlight, idle])
  | begun h idle hp hb =>
    have h₀ := settled_of_inv (inv_of_atomicChange hi h) idle
    have hram := fun w => inRam_of_mem hb (w := w)
    exact {
      mem := h₀.mem
      fifo := h₀.fifo
      inRam := fun ws hf => by
        cases hf
        exact inRam_expandAll hram
      settled := by
        rw [drain_begun hp idle h₀.mem hram]
        exact settled_bracketed h₀ hb }
  | @write s₀ _ _ w h hf hn =>
    have h₀ := inv_of_atomicChange hi h
    obtain ⟨pre, post, rfl, rfl, -⟩ := mem_nextSteps.1 hn
    have hram := h₀.inRam _ hf
    have hw := (AtomicChange.refl h₀.mem h₀.fifo).apply (hram w (by simp))
    exact {
      mem := hw.wf
      fifo := hw.fifo
      inRam := fun ws hf x hx => by
        cases hf
        exact hram x (by
          simp only [List.mem_append, List.mem_cons] at hx ⊢
          exact hx.imp_right .inr)
      settled := by
        rw [drain_write h₀ hf hn]
        exact h₀.settled }
  | closed h hf => exact inv_of_settled (inv_of_atomicChange hi h).settled (drain_inFlight _)

theorem inv_step {t : State} (hi : Inv s) (h : step s = .next t) : Inv t :=
  inv_of_stepEffect hi (step_effect hi.mem hi.fifo h)

/-- Settles O58: each thing a step can do leaves the end of the command under way settled. -/
theorem stepsKeepTheInvariant : Obligations.StepsKeepTheInvariant := fun _ _ => inv_step

/-! ### GEN and the snapshots (rule R93) -/

/-- GEN is even between commands and odd within one (rules R66, R91). -/
theorem idle_of_gen_even (hi : Inv s) (hg : s.gen.toNat % 2 = 0) : s.inFlight = none := by
  cases hf : s.inFlight with
  | none => rfl
  | some ws =>
    have h := hi.settled.gen
    rw [drain_some hf, closeBracket_gen, applyAll_gen, BitVec.toNat_add] at h
    change (s.gen.toNat + 1) % 2 ^ 32 % 2 = 0 at h
    omega

/-- A step advances GEN by at most 2, and one that leaves it between commands is an atomic change (rule R91). -/
theorem step_gen {t : State} (hi : Inv s) (h : step s = .next t) :
    ∃ d ≤ 2, t.gen = s.gen + BitVec.ofNat 32 d ∧ (s.inFlight = none → d = 0 → AtomicChange s t) := by
  cases step_effect hi.mem hi.fifo h with
  | atomic h' => exact ⟨0, by omega, by rw [h'.gen, BitVec.add_zero], fun _ _ => h'⟩
  | whole h' => exact ⟨2, le_rfl, by rw [bracket_gen, h'.gen, BitVec.add_assoc]; rfl, nofun⟩
  | begun h' =>
    refine ⟨1, by omega, ?_, nofun⟩
    rw [← h'.gen]
    rfl
  | write h' hf hn =>
    refine ⟨0, by omega, ?_, fun idle => ?_⟩
    · rw [BitVec.add_zero, ← h'.gen]
      exact apply_gen _ _
    · rw [h'.inFlight, idle] at hf
      cases hf
  | closed h' hf =>
    refine ⟨1, by omega, ?_, nofun⟩
    rw [drain_some hf, closeBracket_gen, applyAll_gen, ← h'.gen]
    rfl

/-- One step of a run (rule R90). -/
theorem run_succ {k : ℕ} {u : State} (h : core.run (k + 1) s = .next u) :
    ∃ t, step s = .next t ∧ core.run k t = .next u := by
  simp only [Host.Core.run] at h
  split at h
  · exact ⟨_, ‹_›, h⟩
  · cases h
  · cases h

/-- A run of `k` steps advances GEN by at most `2 k`; where it does not advance it from an even value, every state on the way is an
atomic change of the first. -/
theorem run_gen {k : ℕ} {t : State} (hi : Inv s) (h : core.run k s = .next t) :
    ∃ d ≤ 2 * k, t.gen = s.gen + BitVec.ofNat 32 d ∧
      (s.inFlight = none → d = 0 → ∀ j ≤ k, ∀ u, core.run j s = .next u → AtomicChange s u) := by
  have hr := AtomicChange.refl hi.mem hi.fifo
  induction k generalizing s with
  | zero =>
    cases h
    refine ⟨0, le_rfl, (BitVec.add_zero _).symm, fun _ _ j hj u hu => ?_⟩
    obtain rfl := Nat.le_zero.1 hj
    cases hu
    exact hr
  | succ k ih =>
    obtain ⟨s', hs', h⟩ := run_succ h
    have hi' := inv_step hi hs'
    obtain ⟨d, hd, hg, hstep⟩ := step_gen hi hs'
    obtain ⟨d', hd', hg', hrun⟩ := ih hi' h (AtomicChange.refl hi'.mem hi'.fifo)
    refine ⟨d + d', by omega, by rw [hg', hg, BitVec.add_assoc, ← BitVec.ofNat_add], fun idle h0 j hj u hu => ?_⟩
    have hfirst := hstep idle (by omega)
    cases j with
    | zero =>
      cases hu
      exact hr
    | succ j =>
      obtain ⟨s'', hs'', hu⟩ := run_succ hu
      rw [hs'] at hs''
      cases hs''
      exact hfirst.trans (hrun (hfirst.inFlight.trans idle) (by omega) j (by omega) u hu)

/-- Settles O55: GEN cannot wrap in fewer than 2^31 steps, so an equal value means that no step of the run advanced it, and a step
that does not advance an even GEN writes no word of a snapshot. -/
theorem equalGenMeansAConsistentSnapshot : Obligations.EqualGenMeansAConsistentSnapshot := by
  intro k j s t u hk hi heven ht hgen hj hu
  obtain ⟨d, hd, hg, hrun⟩ := run_gen hi ht
  have hd0 : d = 0 := by
    have h := congrArg BitVec.toNat (hg.symm.trans hgen)
    rw [BitVec.toNat_add, BitVec.toNat_ofNat] at h
    have := s.gen.isLt
    omega
  have h := hrun (idle_of_gen_even hi heven) hd0 j hj u hu
  exact ⟨h.gen, fun r hr => h.register_read hr, fun a ha => h.mem_read ha⟩

end

end Sys2Proof.Machine
end

section
/-! ## Addresses and registers (rules R32 to R56, R82 to R84, R119, R145) -/

namespace Sys2Proof.Machine

/-! ### The errors of an access, in their order (rule R119) -/

section

variable {s : State} {acc : Access} {addr : BitVec 24} {region : Region}

/-- Step 3: no region, or a reserved register address. -/
theorem checkAccess_unmapped
    (h : 0x08 < addr.toNat / 0x10000 ∨ addr.toNat / 0x10000 = 0 ∧ 0x24 < addr.toNat % 0x10000) :
    checkAccess s acc addr = .errAddr := by
  rw [checkAccess]
  rcases h with h | ⟨hregs, hi⟩
  · rw [regionOf_eq rfl, Region.ofNumber_unmapped h]
  · rw [regionOf_eq hregs]
    exact if_pos ⟨rfl, by rwa [indexOf_eq]⟩

/-- A mapped address that is not reserved is refused by the port's rights, then the bound, then the read-only words. -/
theorem checkAccess_mapped (hr : regionOf addr = some region) (hmap : region = .regs → addr.toNat % 0x10000 ≤ 0x24) :
    checkAccess s acc addr =
      if portForbids s.port acc region (addr.toNat % 0x10000) then .errPort
      else if region.bound s ≤ addr.toNat % 0x10000 then .errAddr
      else if acc = .write ∧ readOnlyWord region (addr.toNat % 0x10000) then .errAddr
      else .ok := by
  simp only [checkAccess, hr, indexOf_eq]
  rw [if_neg]
  rintro ⟨hregs, hlt⟩
  exact absurd (hmap hregs) (not_le.2 hlt)

/-- Step 4. -/
theorem checkAccess_forbidden (hr : regionOf addr = some region) (hmap : region = .regs → addr.toNat % 0x10000 ≤ 0x24)
    (hf : portForbids s.port acc region (addr.toNat % 0x10000) = true) : checkAccess s acc addr = .errPort := by
  rw [checkAccess_mapped hr hmap, if_pos hf]

/-- Steps 5 and 6. -/
theorem checkAccess_outside (hr : regionOf addr = some region) (hmap : region = .regs → addr.toNat % 0x10000 ≤ 0x24)
    (hf : portForbids s.port acc region (addr.toNat % 0x10000) = false)
    (h : region.bound s ≤ addr.toNat % 0x10000 ∨ acc = .write ∧ readOnlyWord region (addr.toNat % 0x10000) = true) :
    checkAccess s acc addr = .errAddr := by
  rw [checkAccess_mapped hr hmap, if_neg (by simp [hf])]
  split
  · rfl
  · rename_i hb
    exact if_pos (h.resolve_left hb)

theorem regionOf_stage (h1 : 0x01 ≤ addr.toNat / 0x10000) (h3 : addr.toNat / 0x10000 ≤ 0x03) :
    ∃ region, regionOf addr = some region ∧ (region = .preL ∨ region = .postL ∨ region = .postR) := by
  rcases (by omega : addr.toNat / 0x10000 = 1 ∨ addr.toNat / 0x10000 = 2 ∨ addr.toNat / 0x10000 = 3) with h | h | h <;>
    exact ⟨_, regionOf_eq h, by decide⟩

theorem regionOf_spectrum (h4 : 0x04 ≤ addr.toNat / 0x10000) (h7 : addr.toNat / 0x10000 ≤ 0x07) :
    ∃ region, regionOf addr = some region ∧ (region = .magL ∨ region = .magR ∨ region = .phL ∨ region = .phR) := by
  rcases (by omega : addr.toNat / 0x10000 = 4 ∨ addr.toNat / 0x10000 = 5 ∨ addr.toNat / 0x10000 = 6 ∨
      addr.toNat / 0x10000 = 7) with h | h | h | h <;>
    exact ⟨_, regionOf_eq h, by decide⟩

end

/-- The registers Port P may not write (rules R32, R56). -/
theorem readOnlyWord_regs {index : ℕ} (h : index = 0 ∨ 0x05 ≤ index ∧ index ≤ 0x06 ∨ 0x0A ≤ index) :
    readOnlyWord .regs index = true := by
  simp only [readOnlyWord]
  cases hr : Register.ofIndex index with
  | none => rfl
  | some r =>
    cases hw : r.writable with
    | false => simp [hw]
    | true =>
      have := Register.ofIndex_some hr hw
      omega

/-- Settles O13: each clause is the check of rule R119 that answers it, after the checks before it have passed. -/
theorem accessErrorsInOrder : Obligations.AccessErrorsInOrder := by
  intro s a d region index errAddr errPort
  have rdAddr (h : checkAccess s .read a = .errAddr) : exec (.rd a) s = .next errAddr := exec_rd_error h (by decide)
  have rdPort (h : checkAccess s .read a = .errPort) : exec (.rd a) s = .next errPort := exec_rd_error h (by decide)
  have wrAddr (h : checkAccess s .write a = .errAddr) : exec (.wr a d) s = .next errAddr := exec_wr_error h (by decide)
  have wrPort (h : checkAccess s .write a = .errPort) : exec (.wr a d) s = .next errPort := exec_wr_error h (by decide)
  refine ⟨fun h => ⟨rdAddr (checkAccess_unmapped h), wrAddr (checkAccess_unmapped h)⟩,
    fun hp h8 => ?_, fun hp h1 h3 => ?_, fun hp h4 h7 => ?_, fun hp h0 hi h1 => ?_, fun hp h1 h3 hb => ?_,
    fun h4 h7 hb => ?_, fun hp h8 hb => ?_, fun hp h8 => ?_, fun hp h67 => ?_, fun hp h0 hi => ?_⟩
  · have hr : regionOf a = some .consBuf := regionOf_eq h8
    exact ⟨rdPort (checkAccess_forbidden hr nofun (by rw [hp]; rfl)),
      wrPort (checkAccess_forbidden hr nofun (by rw [hp]; rfl))⟩
  · obtain ⟨region, hr, rfl | rfl | rfl⟩ := regionOf_stage h1 h3 <;>
      exact ⟨rdPort (checkAccess_forbidden hr nofun (by rw [hp]; rfl)),
        wrPort (checkAccess_forbidden hr nofun (by rw [hp]; rfl))⟩
  · obtain ⟨region, hr, rfl | rfl | rfl | rfl⟩ := regionOf_spectrum h4 h7 <;>
      exact wrPort (checkAccess_forbidden hr nofun (by rw [hp]; rfl))
  · refine wrPort (checkAccess_forbidden (region := .regs) (regionOf_eq h0) (fun _ => hi) ?_)
    rw [hp]
    exact bne_iff_ne.2 h1
  · obtain ⟨region, hr, rfl | rfl | rfl⟩ := regionOf_stage h1 h3 <;>
      exact ⟨rdAddr (checkAccess_outside hr nofun (by rw [hp]; rfl) (.inl hb)),
        wrAddr (checkAccess_outside hr nofun (by rw [hp]; rfl) (.inl hb))⟩
  · obtain ⟨region, hr, rfl | rfl | rfl | rfl⟩ := regionOf_spectrum h4 h7 <;>
      exact ⟨rdAddr (checkAccess_outside hr nofun (by cases s.port <;> rfl) (.inl hb)),
        fun hp => wrAddr (checkAccess_outside hr nofun (by rw [hp]; rfl) (.inl hb))⟩
  · have hr : regionOf a = some .consBuf := regionOf_eq h8
    exact rdAddr (checkAccess_outside hr nofun (by rw [hp]; rfl) (.inl hb))
  · have hr : regionOf a = some .consBuf := regionOf_eq h8
    exact wrAddr (checkAccess_outside hr nofun (by rw [hp]; rfl) (.inr ⟨rfl, rfl⟩))
  · rcases h67 with h | h
    · exact wrAddr (checkAccess_outside (region := .phL) (regionOf_eq h) nofun (by rw [hp]; rfl) (.inr ⟨rfl, rfl⟩))
    · exact wrAddr (checkAccess_outside (region := .phR) (regionOf_eq h) nofun (by rw [hp]; rfl) (.inr ⟨rfl, rfl⟩))
  · by_cases hres : index ≤ 0x24
    · exact wrAddr (checkAccess_outside (region := .regs) (regionOf_eq h0) (fun _ => hres) (by rw [hp]; rfl)
        (.inr ⟨rfl, readOnlyWord_regs hi⟩))
    · exact wrAddr (checkAccess_unmapped (.inr ⟨h0, not_le.1 hres⟩))

/-! ### What the registers read as (rules R32 to R55) -/

theorem Register.ofIndex_lt {index : ℕ} {r : Register} (h : Register.ofIndex index = some r) : index < 0x25 := by
  by_contra hge
  have hnone : Register.ofIndex index = none := by
    unfold Register.ofIndex
    split <;> first | rfl | omega
  rw [hnone] at h
  cases h

/-- RD of a register's address answers the register. -/
theorem readWord_register (s : State) {index : ℕ} {r : Register} (h : Register.ofIndex index = some r) :
    readWord s (BitVec.ofNat 24 index) = r.read s := by
  have hlt := Register.ofIndex_lt h
  have hn : (BitVec.ofNat 24 index).toNat = index := by
    rw [BitVec.toNat_ofNat]
    omega
  have hr : regionOf (BitVec.ofNat 24 index) = some .regs := regionOf_eq (n := 0) (by rw [hn]; omega)
  have hi : indexOf (BitVec.ofNat 24 index) = index := by
    rw [indexOf_eq, hn]
    omega
  simp only [readWord, hr, hi, h]

/-- STATUS as a number in binary (rule R34). -/
theorem Status.toWord_eq_bit (st : Status) : st.toWord = BitVec.ofNat 32
    (Nat.bit st.valid (Nat.bit st.ready (Nat.bit st.analyzing (Nat.bit st.errCmd (Nat.bit st.errAddr
      (Nat.bit st.errPort 0)))))) := by
  simp only [Status.toWord, Nat.bit_val]
  congr 1
  omega

/-- The flags of STATUS bit by bit (rule R34). -/
theorem Status.getLsbD_toWord (st : Status) (b : ℕ) : st.toWord.getLsbD b = true ↔
    b = 0 ∧ st.valid ∨ b = 1 ∧ st.ready ∨ b = 2 ∧ st.analyzing ∨ b = 3 ∧ st.errCmd ∨ b = 4 ∧ st.errAddr ∨
      b = 5 ∧ st.errPort := by
  rw [Status.toWord_eq_bit, BitVec.getLsbD_ofNat]
  rcases b with _ | _ | _ | _ | _ | _ | b <;> simp [Nat.testBit_bit_succ]

theorem getLsbD_ofNat_toNat (v : Bool) (b : ℕ) : (BitVec.ofNat 32 v.toNat).getLsbD b = true ↔ b = 0 ∧ v := by
  rcases b with _ | b <;> cases v <;> simp [BitVec.getLsbD_ofNat, Nat.testBit_succ]

theorem toNat_ofNat_of_lt {n : ℕ} (h : n < 2 ^ 32) : (BitVec.ofNat 32 n).toNat = n := by
  rw [BitVec.toNat_ofNat, Nat.mod_eq_of_lt h]

/-- Settles O15: each address is that of its register, and a count below 2^32 reads as itself. -/
theorem registersReadAsTheMapSays : Obligations.RegistersReadAsTheMapSays := by
  intro s word
  have hword {index : ℕ} {r : Register} (h : Register.ofIndex index = some r) : word index = r.read s :=
    readWord_register s h
  have horder : s.order.val ≤ 15 := s.order.2.2
  have hsize : 2 ^ s.order.val ≤ 2 ^ 15 := Nat.pow_le_pow_right (by norm_num) horder
  have hcap := s.fifoCap.2.2
  have hblk := s.blkMax.2.2
  refine ⟨hword (r := .id) rfl, fun b => ?_, fun b => ?_, ?_, ?_, ?_, fun h => ?_, ?_, fun h => ?_, fun h => ?_, fun h => ?_, ?_, ?_⟩
  · rw [hword (r := .status) rfl]
    exact Status.getLsbD_toWord _ b
  · rw [hword (r := .ctrl) rfl]
    exact getLsbD_ofNat_toNat _ b
  · rw [hword (r := .mode) rfl, Register.read]
    cases s.mode <;> rfl
  · rw [hword (r := .order) rfl]
    exact toNat_ofNat_of_lt (by omega)
  · rw [hword (r := .nsize) rfl]
    exact toNat_ofNat_of_lt (by rw [State.nsize]; omega)
  · rw [hword (r := .fill) rfl]
    exact toNat_ofNat_of_lt (by omega)
  · have hharm : ∀ j : Fin 10, Register.ofIndex (0x11 + j.val) = some (.harm j) := by decide
    exact ⟨hword (r := .srate) rfl, hword (r := .tfreq) rfl, hword (r := .blklen) rfl, hword (r := .seq) rfl,
      hword (r := .gen) rfl, hword (r := .fbin) rfl, hword (r := .thd) rfl, hword (r := .thdn) rfl, hword (r := .imd) rfl,
      hword (r := .hcnt) rfl, fun j => hword (hharm j), hword (r := .cratio) rfl, hword (r := .dynIn) rfl,
      hword (r := .dynOut) rfl, hword (r := .attack) rfl, hword (r := .consCnt) rfl⟩
  · rw [hword (r := .dynCnt) rfl]
    exact toNat_ofNat_of_lt (by omega)
  · rw [hword (r := .envCnt) rfl]
    exact toNat_ofNat_of_lt (by omega)
  · rw [hword (r := .fifoCount) rfl]
    exact toNat_ofNat_of_lt (by omega)
  · rw [hword (r := .fifoCap) rfl]
    exact toNat_ofNat_of_lt (by omega)
  · rw [hword (r := .blkMax) rfl]
    exact toNat_ofNat_of_lt (by omega)

/-! ### WR to CTRL (rule R145) -/

theorem checkAccess_write_ctrl {s : State} (hp : s.port = .producer) : checkAccess s .write 0x000002 = .ok := by
  have hr : regionOf 0x000002 = some .regs := rfl
  rw [checkAccess_mapped hr (fun _ => by decide), hp]
  rfl

theorem bracketed_wr_ctrl {s : State} (hp : s.port = .producer) (d : Word) :
    bracketed (.wr 0x000002 d) s = some [WriteStep.plain (.ctrl (d.getLsbD 0))] :=
  if_pos ⟨checkAccess_write_ctrl hp, by decide⟩

/-- CTRL reads bit 0 of the word written. -/
theorem ofNat_getLsbD_zero (d : Word) : BitVec.ofNat 32 (d.getLsbD 0).toNat = d &&& 1 := by
  rw [show (1 : Word) = 1#32 from rfl, BitVec.and_one_eq_setWidth_ofBool_getLsbD]
  cases d.getLsbD 0 <;> rfl

/-- Settles O21: the command has the one write step that sets IRQ_EN. -/
theorem wrCtrlSetsIrqEnable : Obligations.WrCtrlSetsIrqEnable := by
  intro s d hp
  refine ⟨_, exec_bracketed hp (bracketed_wr_ctrl hp d), ?_, ?_, ?_⟩ <;> rw [bracket_eq]
  · rfl
  · rw [Register.read, respond_irqEn]
    exact ofNat_getLsbD_zero d
  · rw [State.irq, respond_status, respond_irqEn]
    rfl

end Sys2Proof.Machine
end

section
/-! ## GEN, SEQ, READY and the interrupt line (rules R43, R44, R91, R294, R321, R325) -/

namespace Sys2Proof.Machine

variable {i : Instr} {s t : State}

/-! ### GEN (rules R44, R91) -/

theorem lastResponse_respond (code : RespCode) (data : Word) (s : State) :
    (respond code data s).lastResponse = some ⟨code, data⟩ := by
  rw [State.lastResponse, respond_port]
  cases hp : s.port
  · simp [respond_producer _ _ _ hp]
  · simp [respond_consumer _ _ _ hp]

/-- On Port C a producer command answers ERR_PORT (rule R115). -/
theorem exec_bracketed_consumer (hp : s.port = .consumer) {ws : List Write} (h : bracketed i s = some ws) :
    exec i s = .next (answerError .errPort s) := by
  cases i <;> simp only [bracketed, Option.some.injEq, reduceCtorEq] at h
  case wr addr data =>
    split at h
    · rename_i hc
      obtain ⟨hok, hne⟩ := hc
      exact absurd (checkAccess_consumer_write hp hok) hne
    · cases h
  all_goals simp only [exec, execAcc, execDyn, execEnv, execThd, execTrig, execSrst, producerCommand_consumer hp]

theorem gen_of_bracketed {ws : List Write} (hb : bracketed i s = some ws) (h : exec i s = .next t) :
    t.gen = if s.port = .producer then s.gen + 2 else s.gen := by
  cases hp : s.port
  · rw [exec_bracketed hp hb] at h
    cases h
    rw [bracket_gen, BitVec.add_assoc]
    rfl
  · rw [exec_bracketed_consumer hp hb] at h
    cases h
    simp

theorem gen_of_not_bracketed (hb : bracketed i s = none) (h : exec i s = .next t) : t.gen = s.gen := by
  rcases exec_cases h with ⟨code, -, rfl⟩ | ⟨imm, -, rfl⟩ | ⟨addr, -, -, rfl⟩ | ⟨data, -, rfl⟩ | ⟨imm, -, -, rfl⟩ |
    ⟨m, -, -, rfl⟩ | ⟨ws, -, hws, -⟩
  · exact answerError_gen _ _
  iterate 5 exact respond_gen _ _ _
  · rw [hb] at hws
    cases hws

theorem bracketed_wr_none {addr : BitVec 24} {d : Word} (h : ¬(checkAccess s .write addr = .ok ∧ addr ≠ statusAddr)) :
    bracketed (.wr addr d) s = none := if_neg h

/-- A WR that is not performed answers an error (rule R119). -/
theorem lastResponse_wr_error {addr : BitVec 24} {d : Word} (hc : checkAccess s .write addr ≠ .ok)
    (h : exec (.wr addr d) s = .next t) : t.lastResponse ≠ some ⟨.ok, 0⟩ := by
  rw [exec_wr_error rfl hc] at h
  cases h
  rw [answerError, lastResponse_respond]
  simpa using hc

/-- Settles O50: a performed WR to another address than STATUS is bracketed, and answers (OK, 0). -/
theorem genBracketsPortPCommands : Obligations.GenBracketsPortPCommands := by
  intro i s t h
  cases i with
  | nop | rd | fwr | frd => exact gen_of_not_bracketed rfl h
  | acc | dyn | env | thd | trig | srst => exact gen_of_bracketed rfl h
  | wr a d =>
    dsimp only
    by_cases hc : checkAccess s .write a = .ok
    · by_cases ha : a = statusAddr
      · rw [if_neg fun h => h.2 ha]
        exact gen_of_not_bracketed (bracketed_wr_none fun h => h.2 ha) h
      · have hb : bracketed (.wr a d) s = some (wrSteps a d s) := if_pos ⟨hc, ha⟩
        have hp : s.port = .producer := by
          cases hp : s.port
          · rfl
          · exact absurd (checkAccess_consumer_write hp hc) ha
        rw [gen_of_bracketed hb h, if_pos hp]
        rw [exec_bracketed hp hb, bracket_eq] at h
        cases h
        rw [if_pos ⟨lastResponse_respond _ _ _, ha⟩]
    · rw [if_neg fun h' => lastResponse_wr_error hc h h'.1]
      exact gen_of_not_bracketed (bracketed_wr_none fun h => hc h.1) h

/-! ### SEQ, READY and IRQ (rules R43, R294, R325) -/

/-- What a command does to SEQ, READY and IRQ_EN. -/
inductive Notification (s t : State) : Instr → Prop
  | none {i : Instr} (seq : t.regs.seq = s.regs.seq) (ready : t.status.ready = s.status.ready) (irqEn : t.irqEn = s.irqEn) :
    Notification s t i
  | acknowledge (d : Word) (seq : t.regs.seq = s.regs.seq) (ready : t.status.ready = (s.status.ready && !d.getLsbD 1))
    (irqEn : t.irqEn = s.irqEn) : Notification s t (.wr statusAddr d)
  | enable (d : Word) (hp : s.port = .producer) (seq : t.regs.seq = s.regs.seq) (ready : t.status.ready = s.status.ready)
    (irqEn : t.irqEn = d.getLsbD 0) : Notification s t (.wr 0x000002 d)
  | publish (imm : BitVec 24) (hp : s.port = .producer) (ready : s.status.ready = true → t.status.ready = true)
    (irqEn : t.irqEn = s.irqEn) : Notification s t (.acc imm)
  | reset (imm : BitVec 24) (hp : s.port = .producer) (ready : t.status.ready = false) (irqEn : t.irqEn = false) :
    Notification s t (.srst imm)

/-- What each step of a list keeps, the list keeps. -/
theorem applyAll_invariant {P : State → Prop} {ws : List Write} (hs : P s) (h : ∀ w ∈ ws, ∀ t, P t → P (w.step.apply t)) :
    P (applyAll ws s) := by
  induction ws generalizing s with
  | nil => exact hs
  | cons w ws ih => exact ih (h w List.mem_cons_self s hs) fun x hx => h x (List.mem_cons_of_mem _ hx)

theorem AccStep.irqEn_apply {mode : Mode} {bins : ℕ} {w : WriteStep} (h : AccStep mode bins w) (t : State) :
    (w.apply t).irqEn = t.irqEn := by
  cases h <;> rfl

/-- No step of ACC clears READY (rule R193). -/
theorem AccStep.ready_apply {mode : Mode} {bins : ℕ} {w : WriteStep} (h : AccStep mode bins w) {t : State}
    (ht : t.status.ready = true) : (w.apply t).status.ready = true := by
  cases h with
  | ready => rfl
  | _ => exact ht

/-- The steps of a bracketed command other than ACC, SRST and a WR of CTRL leave SEQ, READY and IRQ_EN. -/
theorem CommandStep.notification_apply {w : WriteStep} (h : CommandStep s i w) (hacc : ∀ imm, i ≠ .acc imm)
    (hsrst : ∀ imm, i ≠ .srst imm) (hctrl : ∀ d, i ≠ .wr 0x000002 d) (t : State) :
    ((w.apply t).regs.seq, (w.apply t).status.ready, (w.apply t).irqEn) = (t.regs.seq, t.status.ready, t.irqEn) := by
  cases h with
  | acc imm => exact absurd rfl (hacc imm)
  | srst imm => exact absurd rfl (hsrst imm)
  | wrCtrl d => exact absurd rfl (hctrl d)
  | thd _ _ hr => cases hr <;> rfl
  | dynPush => simp only [WriteStep.apply]
  | _ => rfl

theorem notification_bracket (hp : s.port = .producer) {ws : List Write} (hb : bracketed i s = some ws) :
    Notification s (bracket ws s) i := by
  by_cases hspecial : (∃ imm, i = .acc imm) ∨ (∃ imm, i = .srst imm) ∨ ∃ d, i = .wr 0x000002 d
  · rcases hspecial with ⟨imm, rfl⟩ | ⟨imm, rfl⟩ | ⟨d, rfl⟩
    · have hstep {w : Write} (hw : w ∈ ws) : AccStep s.mode s.bins w.step := by
        cases hb
        exact mem_accSteps hw
      refine .publish imm hp (fun hready => ?_) ?_ <;> rw [bracket_eq]
      · rw [respond_status]
        exact applyAll_invariant (P := fun t => t.status.ready = true) hready fun w hw t ht => (hstep hw).ready_apply ht
      · rw [respond_irqEn]
        exact applyAll_preserves s (·.irqEn) ws fun w hw t => (hstep hw).irqEn_apply t
    · cases hb
      refine .reset imm hp ?_ ?_ <;> rw [bracket_eq, applyAll_srstSteps]
      · rw [respond_status]
        rfl
      · rw [respond_irqEn]
    · rw [bracketed_wr_ctrl hp] at hb
      cases hb
      refine .enable d hp ?_ ?_ ?_ <;> rw [bracket_eq]
      · rw [respond_regs]
        rfl
      · rw [respond_status]
        rfl
      · rw [respond_irqEn]
        rfl
  · simp only [not_or, not_exists] at hspecial
    obtain ⟨hacc, hsrst, hctrl⟩ := hspecial
    have h := bracket_preserves hb (fun t => (t.regs.seq, t.status.ready, t.irqEn))
      (fun w hw t => hw.notification_apply hacc hsrst hctrl t) (fun _ _ => rfl)
      fun t code data => by simp only [respond_regs, respond_status, respond_irqEn]
    simp only [Prod.mk.injEq] at h
    obtain ⟨hseq, hready, hirq⟩ := h
    exact .none hseq hready hirq

theorem notification_of_exec (h : exec i s = .next t) : Notification s t i := by
  rcases exec_cases h with ⟨code, -, rfl⟩ | ⟨imm, -, rfl⟩ | ⟨addr, -, -, rfl⟩ | ⟨data, rfl, rfl⟩ | ⟨imm, -, -, rfl⟩ |
    ⟨m, -, -, rfl⟩ | ⟨ws, hp, hb, rfl⟩
  · refine .none (by rw [answerError_regs]) ?_ (answerError_irqEn _ _)
    rw [answerError, respond_status]
    cases code <;> rfl
  · exact .none (by rw [respond_regs]) (by rw [respond_status]) (respond_irqEn _ _ _)
  · exact .none (by rw [respond_regs]) (by rw [respond_status]) (respond_irqEn _ _ _)
  · refine .acknowledge data ?_ ?_ ?_ <;> rw [writeStatus]
    · rw [respond_regs]
    · rw [respond_status]
      rfl
    · rw [respond_irqEn]
  · exact .none (by rw [respond_regs]) (by rw [respond_status]) (respond_irqEn _ _ _)
  · exact .none (by rw [respond_regs]; rfl) (by rw [respond_status]; rfl) (respond_irqEn _ _ _)
  · exact notification_bracket hp hb

namespace Notification

theorem seq_cause (h : Notification s t i) (hne : t.regs.seq ≠ s.regs.seq) :
    s.port = .producer ∧ ((∃ imm, i = .acc imm) ∨ ∃ imm, i = .srst imm) := by
  cases h with
  | none seq => exact absurd seq hne
  | acknowledge _ seq => exact absurd seq hne
  | enable _ _ seq => exact absurd seq hne
  | publish imm hp => exact ⟨hp, .inl ⟨imm, rfl⟩⟩
  | reset imm hp => exact ⟨hp, .inr ⟨imm, rfl⟩⟩

theorem ready_rises (h : Notification s t i) (hs : s.status.ready = false) (ht : t.status.ready = true) :
    s.port = .producer ∧ ∃ imm, i = .acc imm := by
  cases h with
  | none _ ready => simp [ready, hs] at ht
  | acknowledge _ _ ready => simp [ready, hs] at ht
  | enable _ _ _ ready => simp [ready, hs] at ht
  | publish imm hp => exact ⟨hp, imm, rfl⟩
  | reset _ _ ready => simp [ready] at ht

theorem ready_falls (h : Notification s t i) (hs : s.status.ready = true) (ht : t.status.ready = false) :
    (∃ d : Word, i = .wr statusAddr d ∧ d.getLsbD 1 = true) ∨ s.port = .producer ∧ ∃ imm, i = .srst imm := by
  cases h with
  | none _ ready => simp [ready, hs] at ht
  | acknowledge d _ ready => exact .inl ⟨d, rfl, by simpa [ready, hs] using ht⟩
  | enable _ _ _ ready => simp [ready, hs] at ht
  | publish _ _ ready => simp [ready hs] at ht
  | reset imm hp => exact .inr ⟨hp, imm, rfl⟩

theorem irq_rises (h : Notification s t i) (hs : s.irq = false) (ht : t.irq = true) :
    s.port = .producer ∧
      ((∃ imm, i = .acc imm ∧ s.irqEn = true) ∨ ∃ d : Word, i = .wr 0x000002 d ∧ s.status.ready = true) := by
  rw [State.irq] at hs
  rw [State.irq, Bool.and_eq_true] at ht
  obtain ⟨htr, hte⟩ := ht
  cases h with
  | none _ ready irqEn => simp [← ready, ← irqEn, htr, hte] at hs
  | acknowledge _ _ ready irqEn =>
    rw [ready, Bool.and_eq_true] at htr
    simp [htr, ← irqEn, hte] at hs
  | enable d hp _ ready => exact ⟨hp, .inr ⟨d, rfl, ready.symm.trans htr⟩⟩
  | publish imm hp _ irqEn => exact ⟨hp, .inl ⟨imm, rfl, irqEn.symm.trans hte⟩⟩
  | reset _ _ ready => simp [ready] at htr

theorem irq_falls (h : Notification s t i) (hs : s.irq = true) (ht : t.irq = false) :
    (∃ d : Word, i = .wr statusAddr d ∧ d.getLsbD 1 = true) ∨
      s.port = .producer ∧ ((∃ d : Word, i = .wr 0x000002 d ∧ d.getLsbD 0 = false) ∨ ∃ imm, i = .srst imm) := by
  rw [State.irq, Bool.and_eq_true] at hs
  rw [State.irq] at ht
  obtain ⟨hsr, hse⟩ := hs
  cases h with
  | none _ ready irqEn => simp [ready, irqEn, hsr, hse] at ht
  | acknowledge d _ ready irqEn => exact .inl ⟨d, rfl, by simpa [ready, irqEn, hsr, hse] using ht⟩
  | enable d hp _ ready irqEn => exact .inr ⟨hp, .inl ⟨d, rfl, by simpa [ready, irqEn, hsr] using ht⟩⟩
  | publish _ _ ready irqEn => simp [ready hsr, irqEn, hse] at ht
  | reset imm hp => exact .inr ⟨hp, .inr ⟨imm, rfl⟩⟩

end Notification

/-- Settles O49: the five things a command can do to SEQ, READY and IRQ_EN give the causes of each change. -/
theorem notificationHasOneCause : Obligations.NotificationHasOneCause := fun _ _ _ h =>
  have hn := notification_of_exec h
  ⟨hn.seq_cause, hn.ready_rises, hn.ready_falls, hn.irq_rises, hn.irq_falls⟩

end Sys2Proof.Machine
end

section
/-! ## A command step by step and whole (rules R89, R91, R193) -/

namespace Sys2Proof.Machine

/-! ### A command begun and run to its end (rules R89, R91) -/

/-- No command changes what is under way: the write steps still to come are the ports' business. -/
theorem exec_inFlight {i : Instr} {s t : State} (h : exec i s = .next t) : t.inFlight = s.inFlight := by
  rcases exec_cases h with ⟨code, -, rfl⟩ | ⟨imm, -, rfl⟩ | ⟨addr, -, -, rfl⟩ | ⟨data, -, rfl⟩ | ⟨imm, -, -, rfl⟩ |
    ⟨m, -, -, rfl⟩ | ⟨ws, -, -, rfl⟩
  · exact answerError_inFlight _ _
  iterate 5 exact respond_inFlight _ _ _
  · exact bracket_inFlight _ _

/-- Settles O52: a bracketed command is begun with the single-word steps of its own steps, and any other is begun whole. -/
theorem begunCommandsFinishAsTheWhole : Obligations.BegunCommandsFinishAsTheWhole := by
  intro s t idle hm h
  cases hrec : s.received .producer with
  | command i rest =>
    simp only [beginP, runPort, hrec] at h ⊢
    have hidle : (s.take .producer rest).inFlight = none := by rw [take_inFlight, idle]
    cases hb : bracketed i (s.take .producer rest) with
    | some ws =>
      simp only [hb] at h
      cases h
      rw [exec_bracketed (take_port _ _ _) hb, drain_begun (take_port _ _ _) hidle (by rwa [take_mem])
        fun w => inRam_of_mem hb]
    | none =>
      simp only [hb] at h
      rw [h, drain_none ((exec_inFlight h).trans hidle)]
  | reserved opcode rest =>
    simp only [beginP, runPort, hrec] at h ⊢
    cases h
    rw [drain_none (by rw [answerError_inFlight, take_inFlight, idle])]
  | incomplete =>
    simp only [beginP, runPort, hrec] at h ⊢
    cases h
    rw [drain_none idle]

/-! ### The order of the write steps (rule R91) -/

/-- A step that no step before it blocks writes no word that they write, so what the command ends in does not depend on
whether it comes first. Of the invariant (`drain_write`) only the memory's clauses are needed. -/
theorem drain_nextSteps {s : State} {ws rest : List Write} {w : Write} (hf : s.inFlight = some ws) (hm : s.mem.wf = true)
    (hram : ∀ x ∈ ws, x.inRam = true) (hn : (w, rest) ∈ nextSteps ws) :
    State.drain { w.step.apply s with inFlight := some rest } = s.drain := by
  obtain ⟨pre, post, rfl, rfl, hb⟩ := mem_nextSteps.1 hn
  have hc : ∀ x ∈ pre, x.step.conflicts w.step = false := fun x hx => (Bool.or_eq_false_iff.1 (hb x hx)).1
  have hpull := applyAll_pull (s := { s with port := .producer, inFlight := none }) (post := post) hm
    (fun x hx => hram x (List.mem_append_left _ hx)) (hram w (by simp)) hc
  rw [drain_some rfl, drain_some hf, hpull, apply_setInFlight s w.step .producer none]

theorem length_nextSteps {ws rest : List Write} {w : Write} (hn : (w, rest) ∈ nextSteps ws) :
    rest.length + 1 = ws.length := by
  obtain ⟨pre, post, rfl, rfl, -⟩ := mem_nextSteps.1 hn
  simp only [List.length_append, List.length_cons]
  omega

/-- While steps are left, a choice picks one of those that may come next. -/
theorem stepP_write {s : State} {ws : List Write} (choice : ℕ) (hf : s.inFlight = some ws) (hne : ws ≠ []) :
    ∃ w rest, (w, rest) ∈ nextSteps ws ∧ stepP choice s = .next { w.step.apply s with inFlight := some rest } := by
  have hpos : 0 < (nextSteps ws).length := by
    obtain ⟨w, ws', rfl⟩ := List.exists_cons_of_ne_nil hne
    exact List.length_pos_of_ne_nil nextSteps_ne_nil
  obtain ⟨⟨w, rest⟩, hget⟩ : ∃ p, (nextSteps ws)[choice % (nextSteps ws).length]? = some p :=
    ⟨_, List.getElem?_eq_getElem (Nat.mod_lt choice hpos)⟩
  refine ⟨w, rest, List.mem_of_getElem? hget, ?_⟩
  simp only [stepP, hf, hget]

theorem stepP_close {s : State} (choice : ℕ) (hf : s.inFlight = some []) : stepP choice s = .next s.drain := by
  simp only [stepP, hf, nextSteps, List.getElem?_nil]

/-- Settles O53: the step is one that no step before it blocks, or the closing of the command. -/
theorem anyStepOrderEndsTheSame : Obligations.AnyStepOrderEndsTheSame := by
  intro choice s ws hf hm hram
  by_cases hne : ws = []
  · subst hne
    have hd := drain_inFlight s
    exact ⟨s.drain, stepP_close choice hf, drain_none hd, fun ws' h => (by rw [hd] at h; cases h), fun h => absurd rfl h⟩
  · obtain ⟨w, rest, hn, hstep⟩ := stepP_write choice hf hne
    refine ⟨_, hstep, drain_nextSteps hf hm hram hn, fun ws' h => ?_, fun _ => nofun⟩
    cases h
    exact length_nextSteps hn

/-! ### READY is the last step of its publication (rule R193) -/

/-- Each step that sets READY belongs to a publication, and no later step belongs to that publication. -/
def ReadyLast (ws : List Write) : Prop :=
  (∀ w ∈ ws, w.step = .flag .ready true → w.pub ≠ 0) ∧ ws.Pairwise fun w x => w.step = .flag .ready true → x.pub ≠ w.pub

theorem ReadyLast.nil : ReadyLast [] := ⟨nofun, .nil⟩

theorem ReadyLast.cons {w : Write} {ws : List Write} (h : ReadyLast ws)
    (hw : w.step = .flag .ready true → w.pub ≠ 0 ∧ ∀ x ∈ ws, x.pub ≠ w.pub) : ReadyLast (w :: ws) := by
  obtain ⟨hpub, hlast⟩ := h
  exact ⟨List.forall_mem_cons.2 ⟨fun hr => (hw hr).1, hpub⟩, List.pairwise_cons.2 ⟨fun x hx hr => (hw hr).2 x hx, hlast⟩⟩

theorem ReadyLast.append_other {ws : List Write} (h : ReadyLast ws) {others : List Write}
    (ho : ∀ w ∈ others, w.step ≠ .flag .ready true) : ReadyLast (others ++ ws) := by
  induction others with
  | nil => exact h
  | cons w others ih =>
    obtain ⟨hw, ho⟩ := List.forall_mem_cons.1 ho
    exact (ih ho).cons fun hr => absurd hr hw

/-- The publication is its other steps, then the one that sets READY. -/
theorem publicationSteps_eq (num : Numerics) (u : AccSetup) (seq : Word) (samples : List (Word × Word)) :
    ∃ ws, publicationSteps num u seq samples = ws ++ [.flag .ready true] ∧ ∀ w ∈ ws, w ≠ .flag .ready true := by
  refine ⟨spectrumSteps num u (samples.map Prod.fst) (samples.map Prod.snd) ++ [.flag .valid true] ++
    (if u.mode = .linear then [.flag .analyzing false] else []) ++ metricSteps num u (samples.map Prod.fst) ++
    [.reg .seq (seq + 1)], by simp only [publicationSteps, List.append_assoc, List.cons_append, List.nil_append], ?_⟩
  intro w hw
  simp only [List.mem_append, List.mem_singleton] at hw
  rcases hw with (((h | rfl) | h) | h) | rfl
  · obtain ⟨a, v, rfl, -⟩ := mem_spectrumSteps h
    nofun
  · nofun
  · split at h
    · rw [List.mem_singleton.1 h]
      nofun
    · cases h
  · obtain ⟨r, v, rfl, -⟩ := mem_metricSteps h
    nofun
  · nofun

/-- A publication before steps of no publication and of later ones. -/
theorem ReadyLast.publication {ws : List Write} (h : ReadyLast ws) (num : Numerics) (u : AccSetup) (seq : Word)
    (samples : List (Word × Word)) {pub : ℕ} (hpub : pub ≠ 0) (hlater : ∀ w ∈ ws, w.pub ≠ pub) :
    ReadyLast ((publicationSteps num u seq samples).map (Write.mk pub) ++ ws) := by
  obtain ⟨others, heq, ho⟩ := publicationSteps_eq num u seq samples
  rw [heq, List.map_append, List.append_assoc]
  refine ReadyLast.append_other (h.cons fun _ => ⟨hpub, hlater⟩) fun w hw => ?_
  obtain ⟨x, hx, rfl⟩ := List.mem_map.1 hw
  exact ho x hx

/-- The passes number their publications upwards. -/
theorem pub_of_mem_accPasses {num : Numerics} {u : AccSetup} {fuel pub : ℕ} {acc xs : List (Word × Word)} {analyzing : Bool}
    {seq : Word} {w : Write} (h : w ∈ accPasses num u fuel pub acc xs analyzing seq) : w.pub = 0 ∨ pub ≤ w.pub := by
  induction fuel generalizing pub acc xs analyzing seq with
  | zero => cases h
  | succ fuel ih =>
    unfold accPasses at h
    split at h
    · cases h
    · dsimp only at h
      split at h
      · rw [List.mem_append, List.mem_map, List.mem_cons] at h
        rcases h with ⟨x, -, rfl⟩ | rfl | h
        · exact .inr le_rfl
        · exact .inl rfl
        · exact (ih h).imp_right Nat.le_of_succ_le
      · rcases List.mem_cons.1 h with rfl | h
        · exact .inl rfl
        · exact ih h

theorem readyLast_accPasses (num : Numerics) (u : AccSetup) (fuel : ℕ) {pub : ℕ} (hpub : pub ≠ 0) (acc xs : List (Word × Word))
    (analyzing : Bool) (seq : Word) : ReadyLast (accPasses num u fuel pub acc xs analyzing seq) := by
  induction fuel generalizing pub acc xs analyzing seq with
  | zero => exact .nil
  | succ fuel ih =>
    unfold accPasses
    split
    · exact .nil
    · dsimp only
      split
      · refine ((ih (Nat.succ_ne_zero pub) _ _ _ _).cons (w := WriteStep.clearFill.plain) nofun).publication num u seq _ hpub
          fun w hw => ?_
        rcases List.mem_cons.1 hw with rfl | hw
        · exact hpub.symm
        · have := pub_of_mem_accPasses hw
          omega
      · exact (ih hpub _ _ _ _).cons nofun

/-- Settles O54: ACC's passes end each publication with READY, and a step that may come next has no step of its publication
before it that it waits for. -/
theorem readyIsSetLast : Obligations.ReadyIsSetLast := by
  refine ⟨fun num s pre post w h hr => ?_, fun ws rest w hn hr hpub => ?_⟩
  · have hlast : ReadyLast (pre ++ w :: post) := h ▸ readyLast_accPasses _ _ _ one_ne_zero _ _ _ _
    obtain ⟨hne, hpair⟩ := hlast
    have hpost := (List.pairwise_cons.1 (List.pairwise_append.1 hpair).2.1).1
    exact ⟨hne w (by simp) hr, fun x hx => hpost x hx hr⟩
  · obtain ⟨pre, post, hws, hrest, hb⟩ := mem_nextSteps.1 hn
    refine ⟨pre, post, hws, hrest, fun x hx hxw => ?_⟩
    have hwaits : x.readyWaits w = false := (Bool.or_eq_false_iff.1 (hb x hx)).2
    simp [Write.readyWaits, hr, hpub, hxw] at hwaits

end Sys2Proof.Machine
end

section
/-! ## Adapter bytes, received commands and TRIG (rules R85, R89, R90, R292) -/

namespace Sys2Proof

/-- The four bytes of a word, bits 7:0 first, make the word again (rule R85). -/
theorem bytes_append (w : Word) :
    w.extractLsb' 24 8 ++ w.extractLsb' 16 8 ++ w.extractLsb' 8 8 ++ w.extractLsb' 0 8 = w := by
  iterate 3 rw [BitVec.extractLsb'_append_extractLsb'_eq_extractLsb']
  · exact BitVec.extractLsb'_eq_self
  all_goals rfl

/-- Settles O6, by induction on the words sent. -/
theorem adapterBytesCarryWords : Obligations.AdapterBytesCarryWords := by
  refine fun ws => ⟨?_, fun w _ => rfl⟩
  induction ws with
  | nil => rfl
  | cons w ws ih =>
    show _ :: wordsOfBytes (ws.flatMap bytesOfWord) = _
    rw [bytes_append, ih]

namespace Machine

/-! ### The command that a step performs (rules R89, R90) -/

theorem runPort_command {s : State} {port : Port} {i : Instr} {rest : List Word} (h : s.received port = .command i rest) :
    runPort port s = exec i (s.take port rest) := by
  simp only [runPort, h]

theorem wholeP_idle {s : State} (h : s.inFlight = none) : wholeP s = runPort .producer s := by
  simp only [wholeP, h]

theorem step_decided {s : State} {turn : Turn} {ts : List Turn} (h : s.sched = turn :: ts) :
    step s = runTurn turn { s with sched := ts } := by
  simp only [step, State.nextTurn, h]

theorem hasWork_command {s : State} {port : Port} {i : Instr} {rest : List Word} (h : s.received port = .command i rest) :
    s.hasWork port = true := by
  simp [State.hasWork, h]

theorem hasWork_incomplete {s : State} {port : Port} (hf : s.inFlight = none) (h : s.received port = .incomplete) :
    s.hasWork port = false := by
  simp [State.hasWork, hf, h]

/-- Where no turn is decided, the port that alone has work moves (rule R90). -/
theorem step_alone {s : State} (hs : s.sched = []) :
    (s.hasWork .producer = true → s.hasWork .consumer = false → step s = wholeP s) ∧
      (s.hasWork .producer = false → s.hasWork .consumer = true → step s = runPort .consumer s) := by
  constructor <;> intro hp hc <;> simp only [step, State.nextTurn, hs, hp, hc, runTurn]

/-- Settles O7: the turn decided, or else the one port with work, performs the command that it has received. -/
theorem stepRunsTheReceivedCommand : Obligations.StepRunsTheReceivedCommand := by
  refine ⟨fun s ts i rest hs hf hp => ?_, fun s ts i rest hs hc => ?_, fun s i rest hs hf hp hc => ?_,
    fun s i rest hs hf hp hc => ?_⟩
  · rw [step_decided hs, runTurn]
    exact (wholeP_idle (s := { s with sched := ts }) hf).trans (runPort_command (port := .producer) hp)
  · rw [step_decided hs, runTurn]
    exact runPort_command (port := .consumer) hc
  · rw [(step_alone hs).1 (hasWork_command (port := .producer) hp) (hasWork_incomplete (port := .consumer) hf hc),
      wholeP_idle hf]
    exact runPort_command (port := .producer) hp
  · rw [(step_alone hs).2 (hasWork_incomplete (port := .producer) hf hp) (hasWork_command (port := .consumer) hc)]
    exact runPort_command (port := .consumer) hc

/-! ### TRIG (rule R292) -/

/-- Settles O47: the command has the one write step that sets ANALYZING. -/
theorem trigArmsTheCapture : Obligations.TrigArmsTheCapture := by
  intro imm s hp
  rw [exec_bracketed hp rfl, bracket_eq]
  rfl

end Machine

end Sys2Proof
end

section
/-! ## RD and WR (rules R82 to R84, R141 to R152, R295) -/

namespace Sys2Proof.Machine

/-! ### Addresses of regions and registers (rules R81, R82) -/

section

variable {s : State} {acc : Access} {region : Region} {r : Register} {index : ℕ}

theorem toNat_address (hi : index < 0x10000) :
    (BitVec.ofNat 24 (region.number * 0x10000 + index)).toNat = region.number * 0x10000 + index := by
  rw [BitVec.toNat_ofNat, Nat.mod_eq_of_lt]
  cases region <;> simp only [Region.number] <;> omega

theorem regionOf_address (hi : index < 0x10000) :
    regionOf (BitVec.ofNat 24 (region.number * 0x10000 + index)) = some region := by
  have hn : (BitVec.ofNat 24 (region.number * 0x10000 + index)).toNat / 0x10000 = region.number := by
    rw [toNat_address hi]
    omega
  rw [regionOf_eq hn]
  cases region <;> rfl

/-- An access that passes every check of rule R119 is performed. -/
theorem checkAccess_address (hi : index < region.bound s) (h16 : index < 0x10000)
    (hf : portForbids s.port acc region index = false) (hw : acc = .write → readOnlyWord region index = false) :
    checkAccess s acc (BitVec.ofNat 24 (region.number * 0x10000 + index)) = .ok := by
  have hmod : (BitVec.ofNat 24 (region.number * 0x10000 + index)).toNat % 0x10000 = index := by
    rw [toNat_address h16]
    omega
  have hmap : region = .regs → index ≤ 0x24 := by
    rintro rfl
    exact Nat.le_of_lt_succ hi
  rw [checkAccess_mapped (regionOf_address h16) (by rwa [hmod]), hmod, if_neg (by simp [hf]), if_neg (by omega), if_neg]
  rintro ⟨hacc, hro⟩
  simp [hw hacc] at hro

/-- No region has more than 2^16 words. -/
theorem bound_le (region : Region) (s : State) : region.bound s ≤ 0x10000 := by
  have hpow := Order.pow_le s.order
  have hblk := s.blkMax.2.2
  have hcap := s.fifoCap.2.2
  cases region <;> simp only [Region.bound, State.bins, State.nsize] <;> omega

/-! ### RD (rule R141) -/

theorem exec_rd_register (h : Register.ofIndex index = some r) :
    exec (.rd (BitVec.ofNat 24 index)) s = .next (respond .ok (r.read s) s) := by
  have hlt := Register.ofIndex_lt h
  have hok : checkAccess s .read (BitVec.ofNat 24 index) = .ok := by
    have := checkAccess_address (s := s) (acc := .read) (region := .regs) (index := index) hlt (by omega)
      (by cases s.port <;> rfl) nofun
    rwa [Region.number, Nat.zero_mul, Nat.zero_add] at this
  rw [exec_rd_ok hok, readWord_register s h]

theorem exec_rd_word (hne : region ≠ .regs) (hi : index < region.bound s)
    (hf : portForbids s.port .read region index = false) :
    exec (.rd (BitVec.ofNat 24 (region.number * 0x10000 + index))) s =
      .next (respond .ok (s.mem.read (region.number * 0x10000 + index)) s) := by
  have h16 := hi.trans_le (bound_le region s)
  have hword : readWord s (BitVec.ofNat 24 (region.number * 0x10000 + index)) =
      s.mem.read (region.number * 0x10000 + index) := by
    rw [readWord, regionOf_address h16, toNat_address h16]
    cases region <;> first | rfl | exact absurd rfl hne
  rw [exec_rd_ok (checkAccess_address hi h16 hf nofun), hword]

/-- Settles O14: each address is that of a register or of a word of a region within its bound. -/
theorem rdAnswersTheWord : Obligations.RdAnswersTheWord := by
  refine ⟨fun s index r h => exec_rd_register h, fun s k hp hk base hbase => ?_, fun s k hk base hbase => ?_,
    fun s k hp hk => exec_rd_word (region := .consBuf) nofun hk (by rw [hp]; rfl)⟩
  · simp only [List.mem_cons, List.not_mem_nil, or_false] at hbase
    rcases hbase with rfl | rfl | rfl
    · exact exec_rd_word (region := .preL) nofun hk (by rw [hp]; rfl)
    · exact exec_rd_word (region := .postL) nofun hk (by rw [hp]; rfl)
    · exact exec_rd_word (region := .postR) nofun hk (by rw [hp]; rfl)
  · simp only [List.mem_cons, List.not_mem_nil, or_false] at hbase
    rcases hbase with rfl | rfl | rfl | rfl
    · exact exec_rd_word (region := .magL) nofun hk (by cases s.port <;> rfl)
    · exact exec_rd_word (region := .magR) nofun hk (by cases s.port <;> rfl)
    · exact exec_rd_word (region := .phL) nofun hk (by cases s.port <;> rfl)
    · exact exec_rd_word (region := .phR) nofun hk (by cases s.port <;> rfl)

/-! ### WR to RAM (rules R151, R152) -/

/-- The RAM that Port P may write: the stage regions, and MAG_L and MAG_R as a test access (rule R83). -/
def Region.writableRam : Region → Bool
  | .preL | .postL | .postR | .magL | .magR => true
  | .regs | .phL | .phR | .consBuf => false

theorem writableRam_ne_regs (hw : region.writableRam = true) : region ≠ .regs := by
  rintro rfl
  cases hw

theorem writableRam_access (hw : region.writableRam = true) (acc : Access) (index : ℕ) :
    portForbids .producer acc region index = false ∧ readOnlyWord region index = false := by
  cases region <;> first | exact ⟨rfl, rfl⟩ | cases hw

theorem exec_wr_word (hp : s.port = .producer) (hw : region.writableRam = true) (hi : index < region.bound s) (d : Word) :
    exec (.wr (BitVec.ofNat 24 (region.number * 0x10000 + index)) d) s = .next (respond .ok 0
      { s with gen := s.gen + 2, mem := s.mem.write (region.number * 0x10000 + index) d }) := by
  have h16 := hi.trans_le (bound_le region s)
  obtain ⟨hport, hro⟩ := writableRam_access hw .write index
  have hok := checkAccess_address (acc := .write) hi h16 (by rwa [hp]) fun _ => hro
  have hstatus : BitVec.ofNat 24 (region.number * 0x10000 + index) ≠ statusAddr := fun h => by
    have hr : some region = some .regs := (regionOf_address h16).symm.trans (congrArg regionOf h)
    exact writableRam_ne_regs hw (Option.some.inj hr)
  have hsteps : wrSteps (BitVec.ofNat 24 (region.number * 0x10000 + index)) d s =
      [WriteStep.plain (.word (region.number * 0x10000 + index) d)] := by
    rw [wrSteps, regionOf_address h16, toNat_address h16]
    cases region <;> first | rfl | cases hw
  rw [exec_wr_ok hok hstatus, hsteps, bracket_eq]
  rfl

/-- WR to a word of RAM stores it and changes nothing else but GEN; RD then answers it. -/
theorem wr_word_stores (hp : s.port = .producer) (hw : region.writableRam = true) (hi : index < region.bound s) (d : Word) :
    ∃ t : State, exec (.wr (BitVec.ofNat 24 (region.number * 0x10000 + index)) d) s = .next t ∧
      t = respond .ok 0 { s with gen := s.gen + 2, mem := t.mem } ∧
      t.mem.read (region.number * 0x10000 + index) = d ∧
      (∀ a, a ≠ region.number * 0x10000 + index → t.mem.read a = s.mem.read a) ∧
      exec (.rd (BitVec.ofNat 24 (region.number * 0x10000 + index))) t = .next (respond .ok d t) := by
  refine ⟨_, exec_wr_word hp hw hi d, by rw [respond_mem], ?_, fun a ha => ?_, ?_⟩
  · rw [respond_mem, Memory.read_write_self]
  · rw [respond_mem, Memory.read_write_ne _ ha]
  · rw [exec_rd_word (writableRam_ne_regs hw), respond_mem, Memory.read_write_self]
    · cases region <;> simpa only [Region.bound, State.bins, State.nsize, respond_order, respond_blkMax, respond_fifoCap]
        using hi
    · rw [respond_port, hp]
      exact (writableRam_access hw .read index).1

/-- Settles O18: the three stage regions are RAM that Port P may write. -/
theorem wrStagesAWord : Obligations.WrStagesAWord := by
  intro s k d hp hk base hbase
  simp only [List.mem_cons, List.not_mem_nil, or_false] at hbase
  rcases hbase with rfl | rfl | rfl
  · exact wr_word_stores (region := .preL) hp rfl hk d
  · exact wr_word_stores (region := .postL) hp rfl hk d
  · exact wr_word_stores (region := .postR) hp rfl hk d

/-- Settles O19: MAG_L and MAG_R are RAM that Port P may write. -/
theorem wrMagIsATestAccess : Obligations.WrMagIsATestAccess := by
  intro s k d hp hk base hbase
  simp only [List.mem_cons, List.not_mem_nil, or_false] at hbase
  rcases hbase with rfl | rfl
  · exact wr_word_stores (region := .magL) hp rfl hk d
  · exact wr_word_stores (region := .magR) hp rfl hk d

/-! ### WR to a register (rules R143 to R147, R295) -/

theorem exec_wr_register (hp : s.port = .producer) (h : Register.ofIndex index = some r) (hw : r.writable = true)
    (h1 : index ≠ 1) (d : Word) : exec (.wr (BitVec.ofNat 24 index) d) s =
      .next (respond .ok 0 { applyAll (regWriteSteps r d s) s with gen := s.gen + 2 }) := by
  have hlt := Register.ofIndex_lt h
  have h16 : index < 0x10000 := by omega
  have haddr : BitVec.ofNat 24 index = BitVec.ofNat 24 (Region.regs.number * 0x10000 + index) := by
    rw [Region.number, Nat.zero_mul, Nat.zero_add]
  have hn : (BitVec.ofNat 24 index).toNat = index := by
    rw [BitVec.toNat_ofNat]
    omega
  have hr : regionOf (BitVec.ofNat 24 index) = some .regs := haddr ▸ regionOf_address h16
  have hok : checkAccess s .write (BitVec.ofNat 24 index) = .ok :=
    haddr ▸ checkAccess_address hlt h16 (by rw [hp]; rfl) fun _ => by simp [readOnlyWord, h, hw]
  have hne : BitVec.ofNat 24 index ≠ statusAddr := fun he => h1 (hn.symm.trans (congrArg BitVec.toNat he))
  have hi : indexOf (BitVec.ofNat 24 index) = index := by
    rw [indexOf_eq, hn]
    omega
  have hsteps : wrSteps (BitVec.ofNat 24 index) d s = regWriteSteps r d s := by
    simp only [wrSteps, hr, hi, h]
  rw [exec_wr_ok hok hne, hsteps, bracket_eq]

/-- A 1 in bit 1, 3, 4 or 5 clears that flag, and every other bit of STATUS stays (rule R144). -/
theorem toWord_writeOneToClear (st : Status) (d : Word) :
    (st.writeOneToClear d).toWord = st.toWord &&& ~~~(d &&& 0x0000003A) := by
  refine BitVec.eq_of_getLsbD_eq fun b hb => Bool.eq_iff_iff.2 ?_
  rw [BitVec.getLsbD_and, BitVec.getLsbD_not, BitVec.getLsbD_and, Bool.and_eq_true, Status.getLsbD_toWord,
    Status.getLsbD_toWord]
  rcases b with _ | _ | _ | _ | _ | _ | b <;> simp [Status.writeOneToClear]

/-- Settles O20: STATUS is written by masks, without a bracket. -/
theorem wrStatusClearsWhereOnes : Obligations.WrStatusClearsWhereOnes :=
  fun s d => ⟨s.status.writeOneToClear d, exec_wr_status s d, toWord_writeOneToClear s.status d⟩

theorem Order.ofNat?_illegal {n : ℕ} (h : n < 8 ∨ 15 < n) : Order.ofNat? n = none := dif_neg (by omega)

theorem Order.ofNat?_val (o : Order) : Order.ofNat? o.val = some o := dif_pos o.2

theorem regWriteSteps_order_ignored {d : Word} (h : d.toNat < 8 ∨ 15 < d.toNat ∨ d.toNat = s.order.val) :
    regWriteSteps .order d s = [] := by
  rcases or_assoc.2 h with h | h
  · simp only [regWriteSteps, Order.ofNat?_illegal h]
  · simp only [regWriteSteps, h, Order.ofNat?_val, resizeSteps, if_true]

/-- What a resize changes (rule R295). -/
theorem applyAll_order {d : Word} {o : Order} (hd : d.toNat = o.val) (hne : o ≠ s.order) :
    applyAll (regWriteSteps .order d s) s = { s with
      order := o, mem := s.mem.clearSpectrum, acc := [], status := { s.status with valid := false } } := by
  simp only [regWriteSteps, hd, Order.ofNat?_val, resizeSteps, if_neg hne]
  rfl

theorem exec_rd_beyond_bins (h4 : s.bins ≤ index) (hi : index < 0x10000) :
    exec (.rd (BitVec.ofNat 24 (0x040000 + index))) s =
      .next (respond .errAddr 0 { s with status := { s.status with errAddr := true } }) := by
  have hmod : (BitVec.ofNat 24 (0x040000 + index)).toNat % 0x10000 = index := by
    rw [BitVec.toNat_ofNat]
    omega
  have hr : regionOf (BitVec.ofNat 24 (0x040000 + index)) = some .magL := regionOf_address (region := .magL) hi
  exact exec_rd_error (checkAccess_outside hr nofun (by cases s.port <;> rfl) (.inl (by rwa [hmod]))) (by decide)

/-- Settles O23: the command has no write step, or those of a resize. -/
theorem wrOrderResizes : Obligations.WrOrderResizes := by
  intro s d hp
  have hexec := exec_wr_register hp (index := 4) rfl rfl (by decide) d
  refine ⟨fun h => ?_, fun h8 h15 hne => ?_⟩
  · rw [regWriteSteps_order_ignored h] at hexec
    exact hexec
  · obtain ⟨o, ho⟩ : ∃ o : Order, d.toNat = o.val := ⟨⟨d.toNat, h8, h15⟩, rfl⟩
    rw [applyAll_order ho fun h => hne (ho.trans (congrArg Subtype.val h))] at hexec
    refine ⟨_, hexec, by rw [respond_order, respond_mem], by rw [respond_order, ho], fun a lo hi => ?_, fun a lo hi => ?_,
      fun a ha => ?_, fun k hk hi => exec_rd_beyond_bins ?_ hi⟩
    · rw [respond_mem, Memory.read_clearSpectrum, if_pos (isSpectrum_iff.2 (by omega)), spectrumReset, if_pos hi]
      rfl
    · rw [respond_mem, Memory.read_clearSpectrum, if_pos (isSpectrum_iff.2 (by omega)), spectrumReset,
        if_neg (not_lt.2 lo)]
    · rw [respond_mem, Memory.read_clearSpectrum, if_neg (by rw [isSpectrum_iff]; omega)]
    · rwa [State.bins, State.nsize, respond_order, ← ho]

end

end Sys2Proof.Machine
end

section
/-! ## What a Port C command may change (rules R83, R329) -/

namespace Sys2Proof.Machine

/-- Nothing but the W1C and error bits of STATUS, the FIFO's read side, CONS_CNT, CONS_BUF and Port C's responses differs. -/
structure ReadSideChange (s t : State) : Prop where
  others : t = { s with
    status := t.status, mem := t.mem, regs := { s.regs with consCnt := t.regs.consCnt },
    fifo := { s.fifo with rd := t.fifo.rd, count := t.fifo.count }, outC := t.outC }
  valid : t.status.valid = s.status.valid
  analyzing : t.status.analyzing = s.status.analyzing
  ready : t.status.ready = true → s.status.ready = true
  words : ∀ a, a < 0x080000 ∨ 0x090000 ≤ a → t.mem.read a = s.mem.read a

namespace ReadSideChange

variable {s t : State}

theorem refl (s : State) : ReadSideChange s s := ⟨rfl, rfl, rfl, id, fun _ _ => rfl⟩

theorem respond (h : ReadSideChange s t) (hp : t.port = .consumer) (code : RespCode) (data : Word) :
    ReadSideChange s (respond code data t) := by
  rw [respond_consumer _ _ _ hp]
  exact { h with others := congrArg (fun u : State => { u with outC := t.outC ++ [Response.mk code data] }) h.others }

theorem setStatus {st : Status} (valid : st.valid = s.status.valid) (analyzing : st.analyzing = s.status.analyzing)
    (ready : st.ready = true → s.status.ready = true) : ReadSideChange s { s with status := st } :=
  ⟨rfl, valid, analyzing, ready, fun _ _ => rfl⟩

theorem answerError (hp : s.port = .consumer) (code : RespCode) : ReadSideChange s (answerError code s) := by
  cases code with
  | ok => exact (refl s).respond hp _ _
  | errCmd => exact (setStatus (st := s.status.setFlag .errCmd true) rfl rfl id).respond hp _ _
  | errAddr => exact (setStatus (st := s.status.setFlag .errAddr true) rfl rfl id).respond hp _ _
  | errPort => exact (setStatus (st := s.status.setFlag .errPort true) rfl rfl id).respond hp _ _

theorem writeStatus (hp : s.port = .consumer) (d : Word) : ReadSideChange s (writeStatus d s) :=
  (setStatus (st := s.status.writeOneToClear d) rfl rfl fun h => (Bool.and_eq_true_iff.1 h).1).respond hp _ _

/-- FRD's words lie in CONS_BUF, which has at least C words (rule R264). -/
theorem takeSamples {n : ℕ} (hn : n ≤ 0x10000) : ReadSideChange s (takeSamples n s) := by
  refine ⟨rfl, rfl, rfl, id, fun a ha => ?_⟩
  have hlen := List.length_take_le n (s.fifo.queue s.fifoCap.val)
  refine (Memory.read_writeList _ _ _ _).trans (if_neg ?_)
  simp only [baseCons]
  omega

end ReadSideChange

/-- Settles O51: the atomic commands that Port C may issue, and the errors that answer the others. -/
theorem portCOwnsOnlyTheReadSide : Obligations.PortCOwnsOnlyTheReadSide := by
  intro i s t hp hf h
  have hchange : ReadSideChange s t := by
    rcases exec_cases h with ⟨code, -, rfl⟩ | ⟨imm, -, rfl⟩ | ⟨addr, -, -, rfl⟩ | ⟨data, -, rfl⟩ | ⟨imm, -, hprod, -⟩ |
      ⟨m, -, -, rfl⟩ | ⟨ws, hprod, -, -⟩
    · exact .answerError hp code
    · exact (ReadSideChange.refl s).respond hp _ _
    · exact (ReadSideChange.refl s).respond hp _ _
    · exact .writeStatus hp data
    · cases hp.symm.trans hprod
    · have hcount : frdCount m s ≤ s.fifo.count := Nat.min_le_right _ _
      exact (ReadSideChange.takeSamples (hcount.trans (hf.count.trans s.fifoCap.2.2))).respond hp _ _
    · cases hp.symm.trans hprod
  obtain ⟨others, valid, analyzing, ready, words⟩ := hchange
  exact ⟨others, valid, analyzing, ready, words⟩

end Sys2Proof.Machine
end

section
/-! ## Command words, reserved opcodes and responses (rules R110 to R118, R320 to R322, R334) -/

namespace Sys2Proof

/-! ### What the decoder reads (rules R110 to R114, R116) -/

/-- A WR waits for its DATA word (rule R111). -/
theorem decode_wr_incomplete {w : Word} (h : opcodeOf w = 0x02) : decode [w] = .incomplete := if_pos h

/-- A WR takes the next word as its DATA word, whatever its bits (rule R111). -/
theorem decode_wr {w : Word} (h : opcodeOf w = 0x02) (d : Word) (ws : List Word) :
    decode (w :: d :: ws) = .command (.wr (immOf w) d) ws := if_pos h

/-- Every other command is one word long (rule R111). -/
theorem decode_oneWord {w : Word} (h : opcodeOf w ≠ 0x02) {i : Instr} (hi : decodeOneWord (opcodeOf w) (immOf w) = some i)
    (ws : List Word) : decode (w :: ws) = .command i ws := by
  simp only [decode, if_neg h, hi]

/-- So is a reserved one (rules R111, R116). -/
theorem decode_reserved {w : Word} (h : opcodeOf w ≠ 0x02) (hi : decodeOneWord (opcodeOf w) (immOf w) = none)
    (ws : List Word) : decode (w :: ws) = .reserved (opcodeOf w) ws := by
  simp only [decode, if_neg h, hi]

/-- The decoder sees a first word through its opcode and its immediate alone (rule R110). -/
theorem decode_firstWord {opc : BitVec 8} {imm : BitVec 24} (h : opc ≠ 0x02) {i : Instr}
    (hi : decodeOneWord opc imm = some i) (ws : List Word) : decode (firstWord opc imm :: ws) = .command i ws :=
  decode_oneWord (by rwa [opcodeOf_firstWord]) (by rwa [opcodeOf_firstWord, immOf_firstWord]) ws

/-- Settles O1, by the rows of the opcode table. -/
theorem decodeReadsEveryEncoding : Obligations.DecodeReadsEveryEncoding := by
  intro i rest
  cases i with
  | wr a d =>
    have h := decode_wr (opcodeOf_firstWord 0x02 a) d rest
    rwa [immOf_firstWord] at h
  | nop | rd | acc | fwr | dyn | env | thd | trig | srst | frd => exact decode_firstWord (by decide) rfl rest

/-- Settles O2: a word is its opcode and its immediate, which the decoded command keeps. -/
theorem decodedCommandsReencode : Obligations.DecodedCommandsReencode := by
  intro ws i rest h
  cases ws with
  | nil => cases h
  | cons w ws =>
    by_cases h2 : opcodeOf w = 0x02
    · cases ws with
      | nil =>
        rw [decode_wr_incomplete h2] at h
        cases h
      | cons d ws =>
        rw [decode_wr h2] at h
        cases h
        rw [encode, ← h2, firstWord_opcodeOf_immOf]
        rfl
    · cases hi : decodeOneWord (opcodeOf w) (immOf w) with
      | none =>
        rw [decode_reserved h2 hi] at h
        cases h
      | some j =>
        rw [decode_oneWord h2 hi] at h
        cases h
        rw [encode_decodeOneWord hi, firstWord_opcodeOf_immOf]
        rfl

/-- Settles O4: the opcode chooses the decoder's branch, and its immediate never does. -/
theorem lengthFollowsFromOpcode : Obligations.LengthFollowsFromOpcode := by
  refine fun w ws => ⟨fun h => ⟨decode_wr_incomplete h, fun d => decode_wr h d ws⟩, fun h => ?_⟩
  cases hi : decodeOneWord (opcodeOf w) (immOf w) with
  | none => exact .inr (decode_reserved h hi ws)
  | some i => exact .inl ⟨i, by rw [encode_decodeOneWord hi]; rfl, decode_oneWord h hi ws⟩

/-- Settles O5: the words written out are the words that `encode` gives, but for the reserved one. -/
theorem specWordsDecode : Obligations.SpecWordsDecode := by
  have h (i : Instr) : decode (encode i ++ []) = .command i [] := decodeReadsEveryEncoding i []
  exact ⟨h (.nop 0xABCDEF), h (.rd 0x08000A), h (.wr 0x000007 0x473B8000), h (.acc 0xFFFFFF), h (.fwr 0), h (.dyn 0),
    h (.env 0), h (.thd 0), h (.trig 0), h (.srst 0), h (.frd 2), decode_reserved (w := 0x03000000) (by decide) rfl []⟩

namespace Machine

/-! ### Reserved opcodes and an idle block (rules R116, R334) -/

theorem runPort_reserved {s : State} {port : Port} {opc : BitVec 8} {rest : List Word}
    (h : s.received port = .reserved opc rest) : runPort port s = .next (answerError .errCmd (s.take port rest)) := by
  simp only [runPort, h]

/-- Settles O3: the port receives a reserved opcode, and answers it as an error. -/
theorem reservedOpcodesAnswerErrCmd : Obligations.ReservedOpcodesAnswerErrCmd := by
  intro port s w ws hres hin
  have h2 : opcodeOf w ≠ 0x02 := fun h => by
    rw [h] at hres
    revert hres
    decide
  have hrec : s.received port = .reserved (opcodeOf w) ws := by
    have hd := decode_reserved h2 (decodeOneWord_reserved (immOf w) hres) ws
    cases port <;> exact (congrArg decode hin).trans hd
  rw [runPort_reserved hrec, answerError_errCmd, take_status]

/-- Settles O8: neither port has work, so no turn is taken. -/
theorem idleBlockDoesNotChange : Obligations.IdleBlockDoesNotChange := by
  intro s hs hf hp hc
  have workP : s.hasWork .producer = false := hasWork_incomplete hf hp
  have workC : s.hasWork .consumer = false := hasWork_incomplete hf hc
  simp only [step, State.nextTurn, hs, workP, workC]

/-! ### The response of a command (rules R118, R320 to R322) -/

/-- The data word of a command that is performed (rule R118). -/
def responseData (i : Instr) (s : State) : Word :=
  match i with
  | .rd a => readWord s a
  | .frd m => BitVec.ofNat 32 (frdCount m s)
  | _ => 0

theorem responseData_bracketed {i : Instr} {s : State} {ws : List Write} (h : bracketed i s = some ws) :
    responseData i s = 0 := by
  cases i with
  | rd | frd => cases h
  | _ => rfl

/-- Every command is performed to its end: the block has no trap (rules R118, R320). -/
theorem exists_exec_next (i : Instr) (s : State) : ∃ t, exec i s = .next t := by
  cases i with
  | rd a =>
    by_cases h : checkAccess s .read a = .ok
    · exact ⟨_, exec_rd_ok h⟩
    · exact ⟨_, exec_rd_error rfl h⟩
  | wr a d =>
    by_cases h : checkAccess s .write a = .ok
    · by_cases ha : a = statusAddr
      · exact ⟨_, ha ▸ exec_wr_status s d⟩
      · exact ⟨_, exec_wr_ok h ha⟩
    · exact ⟨_, exec_wr_error rfl h⟩
  | fwr imm | frd m =>
    cases hp : s.port <;> simp only [exec, execFwr, execFrd, hp] <;> exact ⟨_, rfl⟩
  | nop | acc | dyn | env | thd | trig | srst => exact ⟨_, rfl⟩

/-- A command answers an error, or is performed and answers (OK, its data word) as its last change (rule R118). -/
theorem exec_answers {i : Instr} {s t : State} (h : exec i s = .next t) :
    (∃ code, code ≠ .ok ∧ t = answerError code s) ∨
    ∃ u, t = respond .ok (responseData i s) u ∧ u.port = s.port ∧ u.outP = s.outP ∧ u.outC = s.outC := by
  rcases exec_cases h with herr | ⟨imm, rfl, rfl⟩ | ⟨addr, rfl, -, rfl⟩ | ⟨data, rfl, rfl⟩ | ⟨imm, rfl, -, rfl⟩ |
    ⟨m, rfl, -, rfl⟩ | ⟨ws, -, hb, rfl⟩
  · exact .inl herr
  iterate 5 exact .inr ⟨_, rfl, rfl, rfl, rfl⟩
  · rw [bracket_eq, responseData_bracketed hb]
    exact .inr ⟨_, rfl, applyAll_port _ _, applyAll_outP _ _, applyAll_outC _ _⟩

/-- Every error code has its sticky bit (rule R322). -/
theorem answerError_eq {code : RespCode} (h : code ≠ .ok) (s : State) :
    ∃ f, code.flag = some f ∧ answerError code s = respond code 0 { s with status := s.status.setFlag f true } := by
  cases code with
  | ok => exact absurd rfl h
  | errCmd | errAddr | errPort => exact ⟨_, rfl, rfl⟩

/-- What a response adds to the two ports' responses, where no other change of the command touched them (rule R118). -/
theorem respond_out {s u : State} (hport : u.port = s.port) (houtP : u.outP = s.outP) (houtC : u.outC = s.outC)
    (code : RespCode) (data : Word) :
    match s.port with
    | .producer => (respond code data u).outP = s.outP ++ [⟨code, data⟩] ∧ (respond code data u).outC = s.outC
    | .consumer => (respond code data u).outC = s.outC ++ [⟨code, data⟩] ∧ (respond code data u).outP = s.outP := by
  rw [respond, ← hport, ← houtP, ← houtC]
  cases u.port <;> exact ⟨rfl, rfl⟩

/-- Settles O9: an error answers 0, a performed command its data word. -/
theorem everyCommandReturnsOneResponse : Obligations.EveryCommandReturnsOneResponse := by
  refine ⟨⟨rfl, rfl, rfl, rfl⟩, fun i s => ?_⟩
  obtain ⟨t, ht⟩ := exists_exec_next i s
  rcases exec_answers ht with ⟨code, hcode, rfl⟩ | ⟨u, rfl, hport, houtP, houtC⟩
  · obtain ⟨f, -, heq⟩ := answerError_eq hcode s
    rw [heq] at ht
    have hout := respond_out (u := { s with status := s.status.setFlag f true }) rfl rfl rfl code 0
    exact ⟨_, ⟨code, 0⟩, ht, hout, (if_neg hcode).symm⟩
  · exact ⟨_, ⟨.ok, responseData i s⟩, ht, respond_out hport houtP houtC .ok _, rfl⟩

/-- Settles O10: a performed command answers OK, so an error answer is all that the command does. -/
theorem errorAnswersChangeOneStatusBit : Obligations.ErrorAnswersChangeOneStatusBit := by
  intro i s t r h hr hne
  rcases exec_answers h with ⟨code, hcode, rfl⟩ | ⟨u, rfl, -⟩
  · obtain ⟨f, hf, heq⟩ := answerError_eq hcode s
    rw [heq, lastResponse_respond] at hr
    cases hr
    exact ⟨f, hf, heq⟩
  · rw [lastResponse_respond] at hr
    cases hr
    exact absurd rfl hne

/-! ### The port of a command (rule R115) -/

/-- A command that its port may not issue is answered ERR_PORT (rule R115). -/
theorem exec_ill_formed {i : Instr} {s : State} (h : i.wellFormed s.port = false) :
    exec i s = .next (answerError .errPort s) := by
  cases hp : s.port <;> rw [hp] at h
  case producer =>
    cases i with
    | frd m => simp only [exec, execFrd, hp]
    | _ => cases h
  case consumer =>
    cases i with
    | acc | dyn | env | thd | trig | srst => exact exec_bracketed_consumer hp rfl
    | fwr imm => simp only [exec, execFwr, hp]
    | nop | rd | wr | frd => cases h

/-- Settles O12: NOP, RD of ID and WR of STATUS pass the access check on both ports. -/
theorem opcodesAreTiedToPorts : Obligations.OpcodesAreTiedToPorts := by
  refine ⟨fun i s h => exec_ill_formed h, fun port imm => ?_, fun s imm d => ⟨rfl, ?_, exec_wr_status s d⟩⟩
  · exact ⟨rfl, rfl, fun _ => rfl, rfl, rfl, rfl, rfl, rfl, rfl, rfl, rfl⟩
  · exact exec_rd_register (index := 0) (r := .id) rfl

end Machine

end Sys2Proof
end

section
/-! ## NOP and WR to SRATE, TFREQ and BLKLEN (rules R140, R148, R149, R150) -/

open Sys2Proof.Machine.Ideal

namespace Sys2Proof

/-! ### NOP (rule R140) -/

/-- A first word with opcode 0 is its immediate (rule R110). -/
theorem firstWord_zero (imm : BitVec 24) : firstWord 0x00 imm = BitVec.ofNat 32 imm.toNat := by
  have happend : firstWord 0x00 imm = 0#8 ++ imm := rfl
  have hlt : imm.toNat < 2 ^ 32 := imm.isLt.trans (by norm_num)
  refine BitVec.eq_of_toNat_eq ?_
  rw [happend, BitVec.toNat_append, Machine.toNat_ofNat_of_lt hlt, BitVec.toNat_ofNat, Nat.zero_mod, Nat.zero_shiftLeft,
    Nat.zero_or]

namespace Machine

/-- Settles O17: NOP has the opcode 0, and its meaning is the response alone. -/
theorem nopOnlyAnswers : Obligations.NopOnlyAnswers :=
  fun imm _ => ⟨congrArg (fun w => [w]) (firstWord_zero imm), rfl⟩

/-! ### The bounds of SRATE and TFREQ as reals (rules R148, R149) -/

theorem f32Real_eightThousand : f32Real f32EightThousand = 8000 := by
  simpa using f32Real_of_int (w := f32EightThousand) (n := 8000) (by decide +kernel)

theorem f32Real_hundredNinetyTwoThousand : f32Real f32HundredNinetyTwoThousand = 192000 := by
  simpa using f32Real_of_int (w := f32HundredNinetyTwoThousand) (n := 192000) (by decide +kernel)

theorem f32Real_twenty : f32Real f32Twenty = 20 := by
  simpa using f32Real_of_int (w := f32Twenty) (n := 20) (by decide +kernel)

theorem f32Real_twentyThousand : f32Real f32TwentyThousand = 20000 := by
  simpa using f32Real_of_int (w := f32TwentyThousand) (n := 20000) (by decide +kernel)

theorem f32Real_lt_iff {v w : Word} : f32Real v < f32Real w ↔ f32Int v < f32Int w :=
  lt_iff_lt_of_le_iff_le f32Real_le_iff

/-- The legal rates as reals (rule R148). -/
theorem legalRate_iff {w : Word} :
    legalRate w = true ↔ f32IsFinite w = true ∧ 8000 ≤ f32Real w ∧ f32Real w ≤ 192000 := by
  rw [← f32Real_eightThousand, ← f32Real_hundredNinetyTwoThousand, f32Real_le_iff, f32Real_le_iff]
  simp only [legalRate, Bool.and_eq_true, decide_eq_true_eq, and_assoc]

theorem f32IsNaN_eq_false_of_finite {w : Word} (h : f32IsFinite w = true) : f32IsNaN w = false := by
  rw [f32IsFinite, bne_iff_ne] at h
  rw [f32IsNaN, beq_false_of_ne h, Bool.false_and]

/-- What WR to TFREQ stores of a finite pattern (rule R149). -/
theorem tfreqSteps_finite {d : Word} (h : f32IsFinite d = true) : tfreqSteps d =
    if f32Real d < 20 then [.reg .tfreq f32Twenty]
    else if 20000 < f32Real d then [.reg .tfreq f32TwentyThousand]
    else [.reg .tfreq d] := by
  simp only [← f32Real_twenty, ← f32Real_twentyThousand, f32Real_lt_iff]
  rw [tfreqSteps, if_neg (Bool.eq_false_iff.1 (f32IsNaN_eq_false_of_finite h))]

/-- −Inf is below every frequency (rule R149). -/
theorem tfreqSteps_negInf : tfreqSteps 0xFF800000 = [.reg .tfreq f32Twenty] := by
  have hnan : f32IsNaN 0xFF800000 = false := by decide
  have hlt : f32Int 0xFF800000 < f32Int f32Twenty := by decide +kernel
  rw [tfreqSteps, if_neg (Bool.eq_false_iff.1 hnan), if_pos hlt]

/-- +Inf is above every frequency (rule R149). -/
theorem tfreqSteps_posInf : tfreqSteps f32Inf = [.reg .tfreq f32TwentyThousand] := by
  have hnan : f32IsNaN f32Inf = false := by decide
  have hge : f32Int f32Twenty ≤ f32Int f32Inf := by decide +kernel
  have hlt : f32Int f32TwentyThousand < f32Int f32Inf := by decide +kernel
  rw [tfreqSteps, if_neg (Bool.eq_false_iff.1 hnan), if_neg (not_lt.2 hge), if_pos hlt]

/-! ### WR with at most one register to set (rules R143, R148 to R150) -/

section

variable {s : State} {r : Register} {index : ℕ} {d : Word}

theorem exec_wr_ignored (hp : s.port = .producer) (h : Register.ofIndex index = some r) (hw : r.writable = true)
    (h1 : index ≠ 1) (hsteps : regWriteSteps r d s = []) :
    exec (.wr (BitVec.ofNat 24 index) d) s = .next (respond .ok 0 { s with gen := s.gen + 2 }) := by
  rw [exec_wr_register hp h hw h1, hsteps, applyAll_nil]

theorem exec_wr_sets (hp : s.port = .producer) (h : Register.ofIndex index = some r) (hw : r.writable = true)
    (h1 : index ≠ 1) {name : WordReg} {v : Word} (hsteps : regWriteSteps r d s = [WriteStep.plain (.reg name v)]) :
    exec (.wr (BitVec.ofNat 24 index) d) s =
      .next (respond .ok 0 { s with gen := s.gen + 2, regs := s.regs.set name v }) := by
  rw [exec_wr_register hp h hw h1, hsteps]
  rfl

theorem exec_wr_tfreq_sets (hp : s.port = .producer) {v : Word} (h : tfreqSteps d = [.reg .tfreq v]) :
    exec (.wr 0x000008 d) s =
      .next (respond .ok 0 { s with gen := s.gen + 2, regs := { s.regs with tfreq := v } }) :=
  exec_wr_sets (index := 8) hp rfl rfl (by decide) (congrArg (List.map WriteStep.plain) h)

end

/-- Settles O24: the command has a write step exactly for a legal rate. -/
theorem wrSrateStoresLegalRates : Obligations.WrSrateStoresLegalRates := by
  refine fun s d hp => ⟨fun hf hlo hhi => ?_, fun h => ?_⟩
  · exact exec_wr_sets (index := 7) hp rfl rfl (by decide) (if_pos (legalRate_iff.2 ⟨hf, hlo, hhi⟩))
  · refine exec_wr_ignored (index := 7) hp rfl rfl (by decide) (if_neg fun hl => ?_)
    obtain ⟨hf, hlo, hhi⟩ := legalRate_iff.1 hl
    rcases h with h | h | h
    · exact absurd (h.symm.trans hf) Bool.false_ne_true
    · exact absurd hlo (not_le.2 h)
    · exact absurd hhi (not_le.2 h)

/-- Settles O25: a finite pattern is clamped by its value, an infinity as the bound on its side. -/
theorem wrTfreqClamps : Obligations.WrTfreqClamps := by
  refine fun s d hp => ⟨fun hn => ?_, fun h => exec_wr_tfreq_sets hp ?_, fun h => exec_wr_tfreq_sets hp ?_,
    fun hf hlo hhi => exec_wr_tfreq_sets hp ?_⟩
  · exact exec_wr_ignored (index := 8) hp rfl rfl (by decide) (congrArg (List.map WriteStep.plain) (if_pos hn))
  · rcases h with rfl | ⟨hf, hlo⟩
    · exact tfreqSteps_negInf
    · rw [tfreqSteps_finite hf, if_pos hlo, f32Twenty]
  · rcases h with rfl | ⟨hf, hhi⟩
    · exact tfreqSteps_posInf
    · rw [tfreqSteps_finite hf, if_neg (by linarith), if_pos hhi, f32TwentyThousand]
  · rw [tfreqSteps_finite hf, if_neg (not_lt.2 hlo), if_neg (not_lt.2 hhi)]

/-- Settles O26: the command has a write step exactly for a length up to BLK_MAX. -/
theorem wrBlklenWithinBlkMax : Obligations.WrBlklenWithinBlkMax := fun _ _ hp =>
  ⟨fun h => exec_wr_sets (index := 9) hp rfl rfl (by decide) (if_pos h),
    fun h => exec_wr_ignored (index := 9) hp rfl rfl (by decide) (if_neg (not_le.2 h))⟩

end Machine

end Sys2Proof
end

section
/-! ## The blocks that ACC transforms (rules R180 to R183, R194) -/

namespace Sys2Proof.Machine

/-! ### The passes over the samples -/

/-- What the passes of ACC make of the samples: the blocks they fill, in order, and what is left accumulated. It follows
`accPasses` and forgets what is written (`applyAll_accPasses`), so the samples may be those of one channel (`accBlocks_map`). -/
def accBlocks (len : ℕ) (oneShot : Bool) {α : Type} : ℕ → List α → List α → Bool → List (List α) × List α
  | 0, acc, _, _ => ([], acc)
  | fuel + 1, acc, xs, analyzing =>
    if xs.isEmpty || (oneShot && !analyzing) then ([], acc)
    else
      let n := min (len - acc.length) xs.length
      let acc' := acc ++ xs.take n
      if acc'.length = len then
        let later := accBlocks len oneShot fuel [] (xs.drop n) (analyzing && !oneShot)
        (acc' :: later.1, later.2)
      else accBlocks len oneShot fuel acc' (xs.drop n) analyzing

/-- The consecutive blocks of `len` samples that a list holds whole. -/
def fullBlocks (len : ℕ) {α : Type} (xs : List α) : List (List α) :=
  (List.range (xs.length / len)).map fun i => (xs.drop (i * len)).take len

section

variable {α β : Type} {len fuel : ℕ} {oneShot analyzing : Bool} {acc xs : List α}

/-- The passes look at the number of the samples alone. -/
theorem accBlocks_map (f : α → β) : accBlocks len oneShot fuel (acc.map f) (xs.map f) analyzing =
    ((accBlocks len oneShot fuel acc xs analyzing).1.map (List.map f),
      (accBlocks len oneShot fuel acc xs analyzing).2.map f) := by
  induction fuel generalizing acc xs analyzing with
  | zero => rfl
  | succ fuel ih =>
    rw [accBlocks, accBlocks]
    simp only [List.isEmpty_map, List.length_map, ← List.map_take, ← List.map_drop, ← List.map_append]
    split
    · rfl
    · split
      · rw [← List.map_nil, ih]
        rfl
      · exact ih

theorem accBlocks_nil : accBlocks len oneShot fuel acc [] analyzing = ([], acc) := by
  cases fuel <;> rfl

/-- Untriggered, a one-shot capture takes no sample (rule R181). -/
theorem accBlocks_untriggered : accBlocks len true fuel acc xs false = ([], acc) := by
  cases fuel with
  | zero => rfl
  | succ fuel => rw [accBlocks, if_pos (by simp)]

/-- In a continuous mode ANALYZING has no part (rule R181). -/
theorem accBlocks_continuous_congr (analyzing' : Bool) :
    accBlocks len false fuel acc xs analyzing = accBlocks len false fuel acc xs analyzing' := by
  induction fuel generalizing acc xs analyzing analyzing' with
  | zero => rfl
  | succ fuel ih =>
    rw [accBlocks, accBlocks, Bool.false_and, Bool.false_and]
    dsimp only
    rw [ih (analyzing := analyzing && !false) (analyzing' && !false), ih (analyzing := analyzing) analyzing']

/-- Samples that do not fill the block stay accumulated (rule R182). -/
theorem accBlocks_of_lt (hgo : oneShot = true → analyzing = true) (hfuel : xs.length < fuel)
    (h : (acc ++ xs).length < len) : accBlocks len oneShot fuel acc xs analyzing = ([], acc ++ xs) := by
  rw [List.length_append] at h
  obtain ⟨fuel, rfl⟩ := Nat.exists_eq_add_one.2 (Nat.zero_lt_of_lt hfuel)
  by_cases hxs : xs = []
  · rw [hxs, accBlocks_nil, List.append_nil]
  · have hgo' : ¬(xs.isEmpty || (oneShot && !analyzing)) = true := by cases oneShot <;> simp_all
    have hn : min (len - acc.length) xs.length = xs.length := by omega
    rw [accBlocks, if_neg hgo']
    dsimp only
    rw [hn, List.take_length, List.drop_length, if_neg (by rw [List.length_append]; omega), accBlocks_nil]

/-- The sample that fills the block ends a pass, and the next pass begins with no sample accumulated (rules R182, R194). -/
theorem accBlocks_of_le (hgo : oneShot = true → analyzing = true) (hacc : acc.length < len) (h : len ≤ (acc ++ xs).length) :
    accBlocks len oneShot (fuel + 1) acc xs analyzing =
      let later := accBlocks len oneShot fuel [] ((acc ++ xs).drop len) (analyzing && !oneShot)
      ((acc ++ xs).take len :: later.1, later.2) := by
  rw [List.length_append] at h
  have hgo' : ¬(xs.isEmpty || (oneShot && !analyzing)) = true := by
    have hne : xs ≠ [] := List.ne_nil_of_length_pos (by omega)
    cases oneShot <;> simp_all
  have hn : min (len - acc.length) xs.length = len - acc.length := by omega
  have htake : acc ++ xs.take (len - acc.length) = (acc ++ xs).take len := by
    rw [List.take_append, List.take_of_length_le hacc.le]
  have hdrop : xs.drop (len - acc.length) = (acc ++ xs).drop len := by
    rw [List.drop_append, List.drop_of_length_le hacc.le, List.nil_append]
  rw [accBlocks, if_neg hgo']
  dsimp only
  rw [hn, htake, hdrop, if_pos (by rw [List.length_take, List.length_append]; omega)]

/-! ### Full blocks -/

theorem length_fullBlocks (xs : List α) : (fullBlocks len xs).length = xs.length / len := by
  rw [fullBlocks, List.length_map, List.length_range]

theorem fullBlocks_of_lt (h : xs.length < len) : fullBlocks len xs = [] := by
  rw [fullBlocks, Nat.div_eq_of_lt h]
  rfl

theorem fullBlocks_of_le (hlen : 0 < len) (h : len ≤ xs.length) :
    fullBlocks len xs = xs.take len :: fullBlocks len (xs.drop len) := by
  have hdiv : xs.length / len = (xs.length - len) / len + 1 := Nat.div_eq_sub_div hlen h
  rw [fullBlocks, fullBlocks, hdiv, List.range_succ_eq_map, List.map_cons, List.map_map, List.length_drop, Nat.zero_mul,
    List.drop_zero]
  refine congrArg _ (List.map_congr_left fun i _ => ?_)
  rw [Function.comp_apply, List.drop_drop, Nat.succ_mul, Nat.add_comm]

theorem getLast?_fullBlocks (hlen : 0 < len) (h : len ≤ xs.length) :
    (fullBlocks len xs).getLast? = some ((xs.drop ((xs.length / len - 1) * len)).take len) := by
  have hdiv : xs.length / len = xs.length / len - 1 + 1 := by
    have := Nat.div_pos h hlen
    omega
  rw [fullBlocks, List.getLast?_map, hdiv, List.range_succ, List.getLast?_concat]
  rfl

/-- In a continuous mode every `len` samples are a block, and the rest stays accumulated (rules R182, R194). -/
theorem accBlocks_continuous (hacc : acc.length < len) (hfuel : xs.length < fuel) :
    accBlocks len false fuel acc xs analyzing =
      (fullBlocks len (acc ++ xs), (acc ++ xs).drop ((acc ++ xs).length / len * len)) := by
  have hgo : false = true → analyzing = true := nofun
  induction fuel generalizing acc xs with
  | zero => exact absurd hfuel (Nat.not_lt_zero _)
  | succ fuel ih =>
    rcases Nat.lt_or_ge (acc ++ xs).length len with h | h
    · rw [accBlocks_of_lt hgo hfuel h, fullBlocks_of_lt h, Nat.div_eq_of_lt h, Nat.zero_mul, List.drop_zero]
    · have hlen : 0 < len := Nat.zero_lt_of_lt hacc
      have hshorter : ((acc ++ xs).drop len).length < fuel := by
        rw [List.length_append] at h
        rw [List.length_drop, List.length_append]
        omega
      have hdiv : (acc ++ xs).length / len * len = len + ((acc ++ xs).length - len) / len * len := by
        rw [Nat.div_eq_sub_div hlen h, Nat.succ_mul, Nat.add_comm]
      rw [accBlocks_of_le hgo hacc h, Bool.not_false, Bool.and_true, fullBlocks_of_le hlen h, ih (acc := []) hlen hshorter, hdiv,
        ← List.drop_drop, List.nil_append, List.length_drop]

/-- A triggered one-shot capture ends with the block, and the rest of the samples is discarded (rule R181). -/
theorem accBlocks_oneShot (hacc : acc.length < len) (h : len ≤ (acc ++ xs).length) :
    accBlocks len true (fuel + 1) acc xs true = ([(acc ++ xs).take len], []) := by
  rw [accBlocks_of_le (fun _ => rfl) hacc h, Bool.not_true, Bool.and_false, accBlocks_untriggered]

end

end Sys2Proof.Machine
end

section
/-! ## What a publication leaves (rules R187, R193, R220 to R228) -/

namespace Sys2Proof.Machine

/-! ### The distortion results -/

/-- The registers after Distortion() on the MAG_L words `mags` (rules R221 to R227). -/
def distortionRegs (num : Numerics) (order : Order) (srate tfreq : Word) (mags : List Word) (r : Regs) : Regs :=
  let fb := fundamentalBin order srate tfreq
  let levels := mags.map coerceLevel
  if fb < 1 ∨ levels.length ≤ fb then
    { r with fbin := BitVec.ofNat 32 fb, thd := 0, thdn := 0, hcnt := 0, harm := Vector.replicate 10 Config.magFloor }
  else
    { r with
      fbin := BitVec.ofNat 32 fb
      thd := thdWord num levels fb
      thdn := thdnWord num levels fb
      hcnt := BitVec.ofNat 32 (harmCount levels.length fb)
      harm := Vector.ofFn fun j => harmLevel levels fb j }

/-- The harmonic registers, written one by one, hold the level of each (rule R224). -/
theorem applyAll_harmSteps_eq (pub : ℕ) (level : Fin 10 → Word) (s : State) :
    applyAll ((harmSteps level).map (Write.mk pub)) s = { s with regs := { s.regs with harm := Vector.ofFn level } } := by
  obtain ⟨harm, he, hget⟩ := applyAll_harmSteps pub level s
  have hvec : harm = Vector.ofFn level := Vector.ext fun i hi => by
    rw [Vector.getElem_ofFn]
    exact hget ⟨i, hi⟩
  rw [he, hvec]

theorem applyAll_distortionSteps (pub : ℕ) (num : Numerics) (o : Order) (srate tfreq : Word) (mags : List Word) (s : State) :
    applyAll ((distortionSteps num o srate tfreq mags).map (Write.mk pub)) s =
      { s with regs := distortionRegs num o srate tfreq mags s.regs } := by
  rw [distortionSteps, distortionRegs]
  split
  · have hreplicate : Vector.ofFn (fun _ : Fin 10 => Config.magFloor) = Vector.replicate 10 Config.magFloor := rfl
    simp only [List.map_cons, applyAll_cons, applyAll_harmSteps_eq, hreplicate]
    rfl
  · rw [List.map_cons, applyAll_cons, applyAll_map_append, applyAll_harmSteps_eq]
    rfl

/-- The registers that an ACC may write. -/
def Regs.withResults (r q : Regs) : Regs :=
  { r with seq := q.seq, fbin := q.fbin, thd := q.thd, thdn := q.thdn, imd := q.imd, hcnt := q.hcnt, harm := q.harm }

theorem distortionRegs_withResults (num : Numerics) (o : Order) (srate tfreq : Word) (mags : List Word) (r q : Regs) :
    (distortionRegs num o srate tfreq mags r).withResults q = r.withResults q := by
  rw [distortionRegs]
  split <;> rfl

/-- A second run on the same levels finds every result in place, whatever SEQ has become. -/
theorem distortionRegs_again (num : Numerics) (o : Order) (srate tfreq : Word) (mags : List Word) (r : Regs) (seq : Word) :
    distortionRegs num o srate tfreq mags { distortionRegs num o srate tfreq mags r with seq := seq } =
      { distortionRegs num o srate tfreq mags r with seq := seq } := by
  simp only [distortionRegs]
  split <;> rfl

/-! ### The spectrum -/

/-- The memory after the spectrum of both channels is written (rules R187, R193). -/
def publishedMem (num : Numerics) (windowed : Bool) (bins : ℕ) (left right : List Word) (m : Memory) : Memory :=
  (((m.writeList baseMagL (magWords num windowed left bins)).writeList baseMagR (magWords num windowed right bins)).writeList
    basePhL (phWords num windowed left bins)).writeList basePhR (phWords num windowed right bins)

/-- Each region holds its words, and every other word is as before (rule R187). -/
theorem read_publishedMem (num : Numerics) (windowed : Bool) {bins : ℕ} (hbins : bins ≤ 0x10000) (left right : List Word)
    (m : Memory) (a : ℕ) :
    (publishedMem num windowed bins left right m).read a =
      if a % 0x10000 < bins then
        if a / 0x10000 = 4 then (magWords num windowed left bins).getD (a % 0x10000) 0
        else if a / 0x10000 = 5 then (magWords num windowed right bins).getD (a % 0x10000) 0
        else if a / 0x10000 = 6 then (phWords num windowed left bins).getD (a % 0x10000) 0
        else if a / 0x10000 = 7 then (phWords num windowed right bins).getD (a % 0x10000) 0
        else m.read a
      else m.read a := by
  have hregion (n : ℕ) : (n * 0x10000 ≤ a ∧ a < n * 0x10000 + bins) ↔ (a % 0x10000 < bins ∧ a / 0x10000 = n) := by omega
  have hindex {n : ℕ} (h : a / 0x10000 = n) : a - n * 0x10000 = a % 0x10000 := by omega
  simp only [publishedMem, Memory.read_writeList, length_magWords, length_phWords]
  rw [show baseMagL = 4 * 0x10000 from rfl, show baseMagR = 5 * 0x10000 from rfl, show basePhL = 6 * 0x10000 from rfl,
    show basePhR = 7 * 0x10000 from rfl]
  simp only [hregion]
  by_cases hb : a % 0x10000 < bins
  · simp only [hb, true_and, if_true]
    by_cases h4 : a / 0x10000 = 4
    · simp [h4, hindex h4]
    by_cases h5 : a / 0x10000 = 5
    · simp [h5, hindex h5]
    by_cases h6 : a / 0x10000 = 6
    · simp [h6, hindex h6]
    by_cases h7 : a / 0x10000 = 7
    · simp [h7, hindex h7]
    · simp [h4, h5, h6, h7]
  · simp [hb]

/-! ### A publication -/

/-- The registers after the metric that a mode runs at a transform (rules R193, R228). -/
def metricRegs (num : Numerics) (u : AccSetup) (left : List Word) (r : Regs) : Regs :=
  match u.mode with
  | .harmonic | .thdSweep =>
    distortionRegs num u.order u.srate u.tfreq (magWords num u.windowed left (2 ^ u.order.val / 2)) r
  | .imd => { r with imd := 0 }
  | .linear | .hammerstein | .whiteNoise | .sineSweep | .dynamics | .performance => r

/-- The state after the publication of a transform (rule R193). -/
def publish (num : Numerics) (u : AccSetup) (samples : List (Word × Word)) (s : State) : State :=
  { s with
    mem := publishedMem num u.windowed (2 ^ u.order.val / 2) (samples.map Prod.fst) (samples.map Prod.snd) s.mem
    status := { s.status with valid := true, ready := true, analyzing := s.status.analyzing && !decide (u.mode = .linear) }
    regs := { metricRegs num u (samples.map Prod.fst) s.regs with seq := s.regs.seq + 1 } }

theorem applyAll_metricSteps (pub : ℕ) (num : Numerics) (u : AccSetup) (left : List Word) (s : State) :
    applyAll ((metricSteps num u left).map (Write.mk pub)) s = { s with regs := metricRegs num u left s.regs } := by
  rw [metricSteps, metricRegs]
  cases u.mode with
  | harmonic => exact applyAll_distortionSteps ..
  | thdSweep => exact applyAll_distortionSteps ..
  | _ => rfl

theorem applyAll_spectrumSteps_eq (pub : ℕ) (num : Numerics) (u : AccSetup) (left right : List Word) (s : State) :
    applyAll ((spectrumSteps num u left right).map (Write.mk pub)) s =
      { s with mem := publishedMem num u.windowed (2 ^ u.order.val / 2) left right s.mem } := by
  simp only [spectrumSteps, applyAll_map_append, applyAll_wordSteps]
  rfl

theorem applyAll_publicationSteps (pub : ℕ) (num : Numerics) (u : AccSetup) (samples : List (Word × Word)) (s : State) :
    applyAll ((publicationSteps num u s.regs.seq samples).map (Write.mk pub)) s = publish num u samples s := by
  simp only [publicationSteps, applyAll_map_append, applyAll_spectrumSteps_eq, applyAll_metricSteps, publish]
  by_cases hm : u.mode = .linear
  · simp [hm, metricRegs, applyAll, WriteStep.apply, Regs.set, Status.setFlag]
  · simp [hm, applyAll, WriteStep.apply, Regs.set, Status.setFlag]

theorem metricRegs_withResults (num : Numerics) (u : AccSetup) (left : List Word) (r q : Regs) :
    (metricRegs num u left r).withResults q = r.withResults q := by
  rw [metricRegs]
  cases u.mode with
  | harmonic => exact distortionRegs_withResults ..
  | thdSweep => exact distortionRegs_withResults ..
  | _ => rfl

/-- A mode that runs no distortion leaves its results as they are (rule R193). -/
theorem metricRegs_of_ne {u : AccSetup} (hh : u.mode ≠ .harmonic) (ht : u.mode ≠ .thdSweep) (num : Numerics)
    (left : List Word) (r : Regs) : metricRegs num u left r = { r with imd := (metricRegs num u left r).imd } := by
  rw [metricRegs]
  cases hm : u.mode with
  | harmonic => exact absurd hm hh
  | thdSweep => exact absurd hm ht
  | _ => rfl

/-- Only an IMD transform writes IMD (rule R228). -/
theorem metricRegs_imd (num : Numerics) (u : AccSetup) (left : List Word) (r : Regs) :
    (metricRegs num u left r).imd = if u.mode = .imd then 0 else r.imd := by
  have hdistortion (o : Order) (srate tfreq : Word) (mags : List Word) :
      (distortionRegs num o srate tfreq mags r).imd = r.imd := by
    simp only [distortionRegs]
    split <;> rfl
  rw [metricRegs]
  cases u.mode with
  | harmonic => exact hdistortion ..
  | thdSweep => exact hdistortion ..
  | _ => rfl

/-! ### The publications of an ACC -/

/-- The state with other samples accumulated. -/
def State.setAcc (s : State) (acc : List (Word × Word)) : State := { s with acc := acc }

/-- The state after the publications of an ACC's blocks, in order (rule R194). -/
def publishAll (num : Numerics) (u : AccSetup) (blocks : List (List (Word × Word))) (s : State) : State :=
  blocks.foldl (fun t samples => publish num u samples t) s

section

variable {num : Numerics} {u : AccSetup} {blocks : List (List (Word × Word))} {s : State}

theorem publishAll_cons (samples : List (Word × Word)) :
    publishAll num u (samples :: blocks) s = publishAll num u blocks (publish num u samples s) := rfl

/-- What no publication changes, an ACC's publications do not change. -/
theorem publishAll_preserves {α : Type} (f : State → α) (h : ∀ samples t, f (publish num u samples t) = f t) :
    f (publishAll num u blocks s) = f s := by
  induction blocks generalizing s with
  | nil => rfl
  | cons samples blocks ih => rw [publishAll_cons, ih, h]

/-- What commutes with every publication commutes with an ACC's publications. -/
theorem publishAll_commutes (f : State → State) (h : ∀ samples t, publish num u samples (f t) = f (publish num u samples t)) :
    publishAll num u blocks (f s) = f (publishAll num u blocks s) := by
  induction blocks generalizing s with
  | nil => rfl
  | cons samples blocks ih => rw [publishAll_cons, h, ih, publishAll_cons]

/-- What is accumulated takes no part in the publications. -/
theorem publishAll_setAcc (acc : List (Word × Word)) :
    publishAll num u blocks (s.setAcc acc) = (publishAll num u blocks s).setAcc acc :=
  publishAll_commutes (·.setAcc acc) fun _ _ => rfl

/-- The last publication follows the others. -/
theorem publishAll_getLast {last : List (Word × Word)} (h : blocks.getLast? = some last) :
    publishAll num u blocks s = publish num u last (publishAll num u blocks.dropLast s) := by
  obtain ⟨others, rfl⟩ := List.getLast?_eq_some_iff.1 h
  rw [List.dropLast_concat, publishAll, List.foldl_append]
  rfl

/-- What no publication writes (rules R187, R193, R228). -/
theorem publishAll_frame : publishAll num u blocks s = { s with
    mem := (publishAll num u blocks s).mem
    status := { s.status with
      valid := (publishAll num u blocks s).status.valid
      ready := (publishAll num u blocks s).status.ready
      analyzing := (publishAll num u blocks s).status.analyzing }
    regs := s.regs.withResults (publishAll num u blocks s).regs } := by
  induction blocks generalizing s with
  | nil => rfl
  | cons samples blocks ih =>
    refine ih.trans ?_
    have hregs (q : Regs) : (publish num u samples s).regs.withResults q = s.regs.withResults q :=
      metricRegs_withResults num u (samples.map Prod.fst) s.regs q
    rw [hregs]
    rfl

/-- The flags after the publications: VALID and READY are set by any of them, and in Linear mode ANALYZING is cleared. -/
theorem publishAll_status : (publishAll num u blocks s).status = { s.status with
    valid := s.status.valid || decide (0 < blocks.length)
    ready := s.status.ready || decide (0 < blocks.length)
    analyzing := s.status.analyzing && !(decide (u.mode = .linear) && decide (0 < blocks.length)) } := by
  induction blocks generalizing s with
  | nil => simp [publishAll]
  | cons samples blocks ih =>
    rw [publishAll_cons, ih]
    by_cases hm : u.mode = .linear <;> simp [publish, hm]

/-- SEQ counts the publications (rule R193). -/
theorem publishAll_seq : (publishAll num u blocks s).regs.seq = s.regs.seq + BitVec.ofNat 32 blocks.length := by
  induction blocks generalizing s with
  | nil => exact (BitVec.add_zero _).symm
  | cons samples blocks ih =>
    have hseq : (publish num u samples s).regs.seq = s.regs.seq + 1 := rfl
    rw [publishAll_cons, ih, hseq, List.length_cons, Nat.add_comm, BitVec.ofNat_add, ← BitVec.add_assoc]
    rfl

/-- A publication writes the N/2 bins of the spectrum regions alone (rule R187). -/
theorem read_publish_outside {a : ℕ} (ha : a < 0x040000 ∨ 0x080000 ≤ a ∨ 2 ^ u.order.val / 2 ≤ a % 0x10000)
    (samples : List (Word × Word)) (t : State) : (publish num u samples t).mem.read a = t.mem.read a := by
  have hbins := Order.pow_le u.order
  refine (read_publishedMem num u.windowed (hbins.trans (by norm_num)) _ _ t.mem a).trans ?_
  split
  · rw [if_neg (by omega), if_neg (by omega), if_neg (by omega), if_neg (by omega)]
  · rfl

end

end Sys2Proof.Machine
end

section
/-! ## ACC (rules R180 to R194, R197, R360) -/

namespace Sys2Proof.Machine

/-! ### ACC as its publications -/

/-- The passes publish the blocks that the samples fill, in order, and what is left of the samples stays accumulated. -/
theorem applyAll_accPasses {num : Numerics} {u : AccSetup} {fuel pub : ℕ} {acc xs : List (Word × Word)} {analyzing : Bool}
    {seq : Word} {s : State} (hacc : s.acc = acc) (hseq : s.regs.seq = seq) :
    applyAll (accPasses num u fuel pub acc xs analyzing seq) s =
      let run := accBlocks (2 ^ u.order.val) (decide (u.mode = .linear)) fuel acc xs analyzing
      (publishAll num u run.1 s).setAcc run.2 := by
  induction fuel generalizing s pub acc xs analyzing seq with
  | zero =>
    subst hacc
    rfl
  | succ fuel ih =>
    rw [accPasses, accBlocks]
    split
    · subst hacc
      rfl
    · dsimp only
      split
      · subst hseq
        rw [applyAll_append, applyAll_publicationSteps, applyAll_cons]
        refine (ih (s := (publish num u _ s).setAcc []) rfl rfl).trans ?_
        dsimp only
        rw [publishAll_setAcc]
        rfl
      · subst hacc
        rw [applyAll_cons]
        refine (ih (acc := s.acc ++ xs.take _) (s := s.setAcc (s.acc ++ xs.take _)) rfl hseq).trans ?_
        dsimp only
        rw [publishAll_setAcc]
        rfl

/-- The blocks that an ACC fills, and what it leaves accumulated. -/
def accRun (s : State) : List (List (Word × Word)) × List (Word × Word) :=
  accBlocks (2 ^ s.order.val) (decide (s.mode = .linear)) (s.regs.blklen.toNat + 1) s.acc (hostBlock s) s.status.analyzing

/-- The state after the publications of an ACC. -/
def accPublished (s : State) : State := publishAll Config.numerics s.setup (accRun s).1 s

/-- The state that an ACC leaves, but for the response. -/
def accDone (s : State) : State := { accPublished s with gen := s.gen + 2, acc := (accRun s).2 }

/-- ACC on Port P, whole. -/
theorem exec_acc (imm : BitVec 24) {s : State} (hp : s.port = .producer) :
    exec (.acc imm) s = .next (respond .ok 0 (accDone s)) := by
  have hsteps : applyAll (accSteps Config.numerics s) s = (accPublished s).setAcc (accRun s).2 := applyAll_accPasses rfl rfl
  rw [exec_bracketed hp rfl, bracket_eq, hsteps]
  rfl

@[simp] theorem accDone_acc (s : State) : (accDone s).acc = (accRun s).2 := rfl
@[simp] theorem accDone_gen (s : State) : (accDone s).gen = s.gen + 2 := rfl
@[simp] theorem accDone_mem (s : State) : (accDone s).mem = (accPublished s).mem := rfl
@[simp] theorem accDone_regs (s : State) : (accDone s).regs = (accPublished s).regs := rfl
@[simp] theorem accDone_status (s : State) : (accDone s).status = (accPublished s).status := rfl
@[simp] theorem accDone_order (s : State) : (accDone s).order = s.order := publishAll_preserves State.order fun _ _ => rfl
@[simp] theorem accDone_port (s : State) : (accDone s).port = s.port := publishAll_preserves State.port fun _ _ => rfl
@[simp] theorem accDone_outP (s : State) : (accDone s).outP = s.outP := publishAll_preserves State.outP fun _ _ => rfl

section

variable {s : State}

/-- The host block, sample by sample (rule R180). -/
theorem hostBlock_eq (s : State) : hostBlock s =
    (List.range s.regs.blklen.toNat).map fun j => (s.mem.read (0x020000 + j), s.mem.read (0x030000 + j)) :=
  List.zip_map' ..

@[simp] theorem length_hostBlock (s : State) : (hostBlock s).length = s.regs.blklen.toNat := by simp [hostBlock_eq]

theorem accRun_continuous (hm : s.mode ≠ .linear) (hacc : s.acc.length < 2 ^ s.order.val) :
    accRun s = (fullBlocks (2 ^ s.order.val) (s.acc ++ hostBlock s),
      (s.acc ++ hostBlock s).drop ((s.acc ++ hostBlock s).length / 2 ^ s.order.val * 2 ^ s.order.val)) := by
  rw [accRun, decide_eq_false hm, accBlocks_continuous hacc (by rw [length_hostBlock]; omega)]

/-- An untriggered ACC in Linear mode (rule R181). -/
theorem accRun_untriggered (hm : s.mode = .linear) (hidle : s.status.analyzing = false) : accRun s = ([], s.acc) := by
  rw [accRun, decide_eq_true hm, hidle, accBlocks_untriggered]

/-- A triggered ACC in Linear mode whose samples fill the block (rules R181, R360). -/
theorem accRun_captured (hm : s.mode = .linear) (hrun : s.status.analyzing = true) (hacc : s.acc.length < 2 ^ s.order.val)
    (hfull : 2 ^ s.order.val ≤ (s.acc ++ hostBlock s).length) :
    accRun s = ([(s.acc ++ hostBlock s).take (2 ^ s.order.val)], []) := by
  rw [accRun, decide_eq_true hm, hrun, accBlocks_oneShot hacc hfull]

/-- An ACC whose samples do not fill the block (rule R182). -/
theorem accRun_of_lt (hgo : s.mode = .linear → s.status.analyzing = true)
    (h : (s.acc ++ hostBlock s).length < 2 ^ s.order.val) : accRun s = ([], s.acc ++ hostBlock s) :=
  accBlocks_of_lt (fun hm => hgo (of_decide_eq_true hm)) (by rw [length_hostBlock]; omega) h

/-- The last block that an ACC fills (rules R182, R194). -/
theorem getLast?_accRun (hgo : s.mode ≠ .linear ∨ s.status.analyzing = true) (hacc : s.acc.length < 2 ^ s.order.val)
    (hfull : 2 ^ s.order.val ≤ (s.acc ++ hostBlock s).length) :
    (accRun s).1.getLast? = some (if s.mode = .linear then (s.acc ++ hostBlock s).take (2 ^ s.order.val)
      else ((s.acc ++ hostBlock s).drop
        (((s.acc ++ hostBlock s).length / 2 ^ s.order.val - 1) * 2 ^ s.order.val)).take (2 ^ s.order.val)) := by
  by_cases hm : s.mode = .linear
  · rw [accRun_captured hm (hgo.resolve_left (not_not.2 hm)) hacc hfull, if_pos hm]
    rfl
  · rw [accRun_continuous hm hacc, if_neg hm]
    exact getLast?_fullBlocks (Nat.zero_lt_of_lt hacc) hfull

/-- Settles O27: in a continuous mode the blocks are the full blocks of the samples, and each publication advances SEQ. -/
theorem accCarriesSamplesAcrossTransforms : Obligations.AccCarriesSamplesAcrossTransforms := by
  intro imm s hp hm hacc
  rw [← hostBlock_eq]
  intro total transforms
  have hblocks : (accRun s).1.length = transforms := by
    rw [accRun_continuous hm hacc]
    exact length_fullBlocks total
  have hrest : (accRun s).2 = total.drop (transforms * 2 ^ s.order.val) := by rw [accRun_continuous hm hacc]
  refine ⟨_, exec_acc imm hp, ?_, ?_, ?_, ?_, ?_, ?_⟩
  · rw [respond_acc, accDone_acc, hrest]
  · rw [respond_acc, accDone_acc, hrest, List.length_drop, Nat.mod_eq_sub_div_mul]
  · rw [respond_regs, accDone_regs, ← hblocks]
    exact publishAll_seq
  · have hcontinuous : decide (s.setup.mode = .linear) = false := decide_eq_false hm
    rw [respond_status, accDone_status, ← hblocks, accPublished, publishAll_status, hcontinuous, Bool.false_and, Bool.not_false,
      Bool.and_true]
  · rw [respond_gen, accDone_gen]
  · rw [respond_producer _ _ _ ((accDone_port s).trans hp), accDone_outP]

/-! ### The Linear gate (rules R181, R360) -/

theorem publish_linear {u : AccSetup} (hm : u.mode = .linear) (num : Numerics) (samples : List (Word × Word)) (s : State) :
    publish num u samples s = { s with
      mem := (publish num u samples s).mem, regs := { s.regs with seq := s.regs.seq + 1 }
      status := { s.status with valid := true, ready := true, analyzing := false } } := by
  simp only [publish, metricRegs, hm, decide_true, Bool.not_true, Bool.and_false]

/-- A triggered capture that fills the block (rules R181, R360). -/
theorem accDone_captured (hm : s.mode = .linear) (hrun : s.status.analyzing = true) (hacc : s.acc.length < 2 ^ s.order.val)
    (hfull : 2 ^ s.order.val ≤ (s.acc ++ hostBlock s).length) : accDone s = { s with
      gen := s.gen + 2, acc := [], mem := (accDone s).mem, regs := { s.regs with seq := s.regs.seq + 1 }
      status := { s.status with valid := true, ready := true, analyzing := false } } := by
  have hpub : accPublished s =
      publish Config.numerics s.setup ((s.acc ++ hostBlock s).take (2 ^ s.order.val)) s := by
    rw [accPublished, accRun_captured hm hrun hacc hfull]
    rfl
  have hlinear : s.setup.mode = .linear := hm
  rw [accDone_mem, accDone, accRun_captured hm hrun hacc hfull, hpub, publish_linear hlinear]

theorem publish_setAnalyzing {u : AccSetup} (hm : u.mode ≠ .linear) (num : Numerics) (samples : List (Word × Word)) (t : State)
    (b : Bool) : publish num u samples { t with status := { t.status with analyzing := b } } =
      { publish num u samples t with status := { (publish num u samples t).status with analyzing := b } } := by
  simp only [publish, decide_eq_false hm, Bool.not_false, Bool.and_true]

theorem respond_setStatus (code : RespCode) (data : Word) (s : State) (st : Status) :
    respond code data { s with status := st } = { respond code data s with status := st } := by
  unfold respond
  cases s.port <;> rfl

/-- In a continuous mode ANALYZING stays what it is through ACC (rule R181). -/
theorem exec_acc_setAnalyzing (imm : BitVec 24) (hm : s.mode ≠ .linear) (hp : s.port = .producer) (b : Bool) : ∃ t : State,
    exec (.acc imm) s = .next t ∧ exec (.acc imm) { s with status := { s.status with analyzing := b } } =
      .next { t with status := { t.status with analyzing := b } } := by
  have hrun : accRun { s with status := { s.status with analyzing := b } } = accRun s := by
    rw [accRun, accRun, decide_eq_false hm]
    exact accBlocks_continuous_congr _
  have hset : accPublished { s with status := { s.status with analyzing := b } } =
      { accPublished s with status := { (accPublished s).status with analyzing := b } } := by
    rw [accPublished, hrun]
    exact publishAll_commutes (fun t => { t with status := { t.status with analyzing := b } }) fun samples t =>
      publish_setAnalyzing (u := s.setup) hm _ samples t b
  have hdone : accDone { s with status := { s.status with analyzing := b } } =
      { accDone s with status := { (accDone s).status with analyzing := b } } := by
    rw [accDone, hset, hrun]
    rfl
  refine ⟨_, exec_acc imm hp, (exec_acc imm (by exact hp)).trans ?_⟩
  rw [hdone, respond_setStatus, respond_status]

/-- Settles O28: in Linear mode an ACC fills no block, or one; in the other modes its blocks do not depend on ANALYZING. -/
theorem accLinearOneShotGate : Obligations.AccLinearOneShotGate := by
  refine ⟨fun imm s hp hm hacc => ?_, fun imm s b hm hp => exec_acc_setAnalyzing imm hm hp b⟩
  rw [← hostBlock_eq]
  refine ⟨fun hidle => ?_, fun hrun hlt => ?_, fun hrun hfull => ⟨_, exec_acc imm hp, ?_⟩⟩
  · rw [exec_acc imm hp, accDone, accPublished, accRun_untriggered hm hidle]
    rfl
  · rw [exec_acc imm hp, accDone, accPublished, accRun_of_lt (fun _ => hrun) hlt]
    rfl
  · rw [respond_mem]
    exact congrArg (respond .ok 0) (accDone_captured hm hrun hacc hfull)

/-! ### What ACC leaves as it was (rules R180, R181, R193) -/

theorem metricRegs_distortion {u : AccSetup} (hm : u.mode = .harmonic ∨ u.mode = .thdSweep) (num : Numerics)
    (left : List Word) (r : Regs) : metricRegs num u left r =
      distortionRegs num u.order u.srate u.tfreq (magWords num u.windowed left (2 ^ u.order.val / 2)) r := by
  rw [metricRegs]
  rcases hm with hm | hm <;> rw [hm]

/-- Outside the bins of the spectrum regions the memory is as before (rule R187). -/
theorem read_publishAll_outside {num : Numerics} {u : AccSetup} {a : ℕ}
    (ha : a < 0x040000 ∨ 0x080000 ≤ a ∨ 2 ^ u.order.val / 2 ≤ a % 0x10000) (blocks : List (List (Word × Word))) :
    (publishAll num u blocks s).mem.read a = s.mem.read a :=
  publishAll_preserves (fun t => t.mem.read a) fun samples t => read_publish_outside ha samples t

/-- No distortion result changes in a mode that runs no distortion (rule R193). -/
theorem publishAll_results_of_ne {u : AccSetup} (hh : u.mode ≠ .harmonic) (ht : u.mode ≠ .thdSweep) (num : Numerics)
    (blocks : List (List (Word × Word))) : { (publishAll num u blocks s).regs with seq := 0, imd := 0 } =
      { s.regs with seq := 0, imd := 0 } := by
  refine publishAll_preserves (fun t => { t.regs with seq := 0, imd := 0 }) fun samples t => ?_
  simp only [publish]
  rw [metricRegs_of_ne hh ht]

/-- The frame of ACC but for the response (rules R180, R181, R193). -/
theorem accDone_frame (s : State) : accDone s = { s with
    gen := s.gen + 2
    acc := (accDone s).acc
    mem := (accDone s).mem
    status := { s.status with
      valid := (accDone s).status.valid, ready := (accDone s).status.ready, analyzing := (accDone s).status.analyzing }
    regs := s.regs.withResults (accDone s).regs } :=
  congrArg (fun t : State => { t with gen := s.gen + 2, acc := (accRun s).2 }) publishAll_frame

/-- An ACC that fills no block (rules R181, R182). -/
theorem accRun_no_block (h : s.mode = .linear ∧ s.status.analyzing = false ∨
    s.acc.length + s.regs.blklen.toNat < 2 ^ s.order.val) : (accRun s).1 = [] := by
  by_cases hidle : s.mode = .linear ∧ s.status.analyzing = false
  · obtain ⟨hm, hidle⟩ := hidle
    rw [accRun_untriggered hm hidle]
  · have hgo (hm : s.mode = .linear) : s.status.analyzing = true := by simpa [hm] using hidle
    rw [accRun_of_lt hgo (by simpa using h.resolve_left hidle)]

/-- Settles O32: ACC is its publications, and each of them writes the spectrum, its flags, SEQ and its metric alone. -/
theorem accLeavesTheRest : Obligations.AccLeavesTheRest := by
  intro imm s hp
  refine ⟨_, exec_acc imm hp, ?_, fun hnone => ?_, fun a ha => ?_, fun hh ht => ?_, fun hne => ?_, fun him hacc hfull => ?_⟩
  · rw [respond_acc, respond_mem, respond_status, respond_regs]
    exact congrArg (respond .ok 0) (accDone_frame s)
  · rw [respond_acc, accDone_acc, accDone, accPublished, accRun_no_block hnone]
    rfl
  · rw [respond_mem]
    exact read_publishAll_outside ha _
  · rw [respond_regs, accDone_regs]
    have h := publishAll_results_of_ne (s := s) (u := s.setup) hh ht Config.numerics (accRun s).1
    exact ⟨(congrArg Regs.fbin h :), (congrArg Regs.thd h :), (congrArg Regs.thdn h :), (congrArg Regs.hcnt h :),
      (congrArg Regs.harm h :)⟩
  · rw [respond_regs, accDone_regs]
    refine publishAll_preserves (fun t => t.regs.imd) fun samples t => ?_
    exact (metricRegs_imd _ _ _ _).trans (if_neg hne)
  · have hlast := getLast?_accRun (.inl (by rw [him]; nofun)) hacc (by simpa using hfull)
    rw [respond_regs, accDone_regs, accPublished, publishAll_getLast hlast]
    exact (metricRegs_imd _ _ _ _).trans (if_pos him)

/-! ### What the last transform leaves (rules R183 to R193, R220) -/

theorem AccSetup.windowed_eq (u : AccSetup) : u.windowed = decide (u.mode ≠ .linear) := by
  rw [AccSetup.windowed]
  cases u.mode <;> rfl

/-- The bins of a publication's spectrum (rule R187). -/
theorem read_publish_bin (num : Numerics) (u : AccSetup) (samples : List (Word × Word)) (t : State) {k : ℕ}
    (hk : k < 2 ^ u.order.val / 2) :
    (publish num u samples t).mem.read (0x040000 + k) =
        (magWords num u.windowed (samples.map Prod.fst) (2 ^ u.order.val / 2)).getD k 0 ∧
      (publish num u samples t).mem.read (0x050000 + k) =
        (magWords num u.windowed (samples.map Prod.snd) (2 ^ u.order.val / 2)).getD k 0 ∧
      (publish num u samples t).mem.read (0x060000 + k) =
        (phWords num u.windowed (samples.map Prod.fst) (2 ^ u.order.val / 2)).getD k 0 ∧
      (publish num u samples t).mem.read (0x070000 + k) =
        (phWords num u.windowed (samples.map Prod.snd) (2 ^ u.order.val / 2)).getD k 0 := by
  have hbins : 2 ^ u.order.val / 2 ≤ 0x10000 := (Order.pow_le u.order).trans (by norm_num)
  have hmod {n : ℕ} : (n * 0x10000 + k) % 0x10000 = k := by omega
  have hdiv {n : ℕ} : (n * 0x10000 + k) / 0x10000 = n := by omega
  have hread (n : ℕ) := read_publishedMem num u.windowed hbins (samples.map Prod.fst) (samples.map Prod.snd) t.mem
    (n * 0x10000 + k)
  simp only [hmod, hdiv, if_pos hk] at hread
  exact ⟨hread 4, hread 5, hread 6, hread 7⟩

/-- MAG_L after a publication, whole. -/
theorem block_publish_magL (num : Numerics) (u : AccSetup) (samples : List (Word × Word)) (t : State) :
    (publish num u samples t).mem.block baseMagL (2 ^ u.order.val / 2) =
      magWords num u.windowed (samples.map Prod.fst) (2 ^ u.order.val / 2) := by
  refine List.ext_getElem (by simp) fun k h1 h2 => ?_
  rw [Memory.length_block] at h1
  obtain ⟨hmag, -⟩ := read_publish_bin num u samples t h1
  rw [← List.getD_eq_getElem _ 0 h2, ← hmag]
  simp [Memory.block]

/-- THD on a state whose distortion results are those of its spectrum changes nothing but GEN (rule R220). -/
theorem exec_thd_settled (imm : BitVec 24) (hp : s.port = .producer)
    (h : distortionRegs Config.numerics s.order s.regs.srate s.regs.tfreq (s.mem.block baseMagL s.bins) s.regs = s.regs) :
    exec (.thd imm) s = .next (respond .ok 0 { s with gen := s.gen + 2 }) := by
  have hsteps : applyAll (thdSteps Config.numerics s) s = s := by
    refine (applyAll_distortionSteps 0 _ _ _ _ _ s).trans ?_
    rw [h]
  rw [exec_bracketed hp rfl, bracket_eq, hsteps]

/-- After a publication with Distortion() its results are those of the stored spectrum (rules R193, R220). -/
theorem distortionRegs_publish {num : Numerics} {u : AccSetup} (hm : u.mode = .harmonic ∨ u.mode = .thdSweep)
    (samples : List (Word × Word)) (t : State) :
    distortionRegs num u.order u.srate u.tfreq ((publish num u samples t).mem.block baseMagL (2 ^ u.order.val / 2))
      (publish num u samples t).regs = (publish num u samples t).regs := by
  have hregs : (publish num u samples t).regs =
      { metricRegs num u (samples.map Prod.fst) t.regs with seq := t.regs.seq + 1 } := rfl
  rw [block_publish_magL, hregs, metricRegs_distortion hm, distortionRegs_again]

/-- Settles O29: the last publication writes every bin, and its distortion results last. -/
theorem accPublishesTheLastFullBlock : Obligations.AccPublishesTheLastFullBlock := by
  intro imm s hp hacc hgo
  rw [← hostBlock_eq]
  intro len total last windowed hfull
  have hlast : accPublished s =
      publish Config.numerics s.setup last (publishAll Config.numerics s.setup (accRun s).1.dropLast s) :=
    publishAll_getLast (getLast?_accRun hgo hacc hfull)
  have hwindowed : s.setup.windowed = windowed := s.setup.windowed_eq
  refine ⟨_, exec_acc imm hp, fun k hk => ?_, fun a ha => ?_, fun hm => exec_thd_settled imm ?_ ?_⟩
  · rw [respond_mem, accDone_mem, hlast, ← hwindowed]
    exact read_publish_bin _ s.setup last _ hk
  · rw [respond_mem]
    exact read_publishAll_outside ha _
  · rw [respond_port, accDone_port, hp]
  · obtain ⟨hsrate, htfreq⟩ : (accPublished s).regs.srate = s.regs.srate ∧ (accPublished s).regs.tfreq = s.regs.tfreq := by
      rw [accPublished, publishAll_frame]
      exact ⟨rfl, rfl⟩
    rw [State.bins, State.nsize, respond_order, respond_mem, respond_regs, accDone_order, accDone_mem, accDone_regs, hsrate,
      htfreq, hlast]
    exact distortionRegs_publish (u := s.setup) hm last _

/-! ### The channels (rule R197) -/

/-- What a word of the spectrum becomes, where it depends on one channel's samples alone. -/
theorem read_publishAll_congr {f : Word × Word → Word} {num : Numerics} {u u' : AccSetup} {a : ℕ}
    (h : ∀ samples samples' t t', samples.map f = samples'.map f → t.mem.read a = t'.mem.read a →
      (publish num u samples t).mem.read a = (publish num u' samples' t').mem.read a)
    {blocks blocks' : List (List (Word × Word))} {s' : State} (hblocks : blocks.map (List.map f) = blocks'.map (List.map f))
    (hs : s.mem.read a = s'.mem.read a) :
    (publishAll num u blocks s).mem.read a = (publishAll num u' blocks' s').mem.read a := by
  induction blocks generalizing blocks' s s' with
  | nil =>
    obtain rfl : blocks' = [] := List.map_eq_nil_iff.1 hblocks.symm
    exact hs
  | cons samples blocks ih =>
    cases blocks' with
    | nil => cases hblocks
    | cons samples' blocks' =>
      obtain ⟨hsamples, hblocks⟩ := List.cons.inj hblocks
      rw [publishAll_cons, publishAll_cons]
      exact ih hblocks (h samples samples' s s' hsamples hs)

/-- The samples of one channel alone decide what of them is in which block. -/
theorem accRun_congr {f : Word × Word → Word} {s' : State} (hm : s.mode = s'.mode) (ho : s.order = s'.order)
    (ha : s.status.analyzing = s'.status.analyzing) (hl : s.regs.blklen = s'.regs.blklen)
    (hacc : s.acc.map f = s'.acc.map f) (hhost : (hostBlock s).map f = (hostBlock s').map f) :
    (accRun s).1.map (List.map f) = (accRun s').1.map (List.map f) := by
  have hrun (s : State) : (accRun s).1.map (List.map f) = (accBlocks (2 ^ s.order.val) (decide (s.mode = .linear))
      (s.regs.blklen.toNat + 1) (s.acc.map f) ((hostBlock s).map f) s.status.analyzing).1 := by
    rw [accBlocks_map]
    rfl
  rw [hrun, hrun, hm, ho, ha, hl, hacc, hhost]

theorem AccSetup.windowed_congr {u u' : AccSetup} (hm : u.mode = u'.mode) : u.windowed = u'.windowed := by
  rw [AccSetup.windowed, AccSetup.windowed, hm]

/-- A publication writes MAG_L and PH_L from channel L, MAG_R and PH_R from channel R (rules R187, R197). -/
theorem read_publish_congr {num : Numerics} {u u' : AccSetup} {samples samples' : List (Word × Word)} {t t' : State} {a : ℕ}
    (hm : u.mode = u'.mode) (ho : u.order = u'.order)
    (hl : a / 0x10000 = 4 ∨ a / 0x10000 = 6 → samples.map Prod.fst = samples'.map Prod.fst)
    (hr : a / 0x10000 = 5 ∨ a / 0x10000 = 7 → samples.map Prod.snd = samples'.map Prod.snd)
    (ht : t.mem.read a = t'.mem.read a) : (publish num u samples t).mem.read a = (publish num u' samples' t').mem.read a := by
  have hbins (o : Order) : 2 ^ o.val / 2 ≤ 0x10000 := (Order.pow_le o).trans (by norm_num)
  rw [publish, publish, read_publishedMem _ _ (hbins _), read_publishedMem _ _ (hbins _), AccSetup.windowed_congr hm, ho]
  split_ifs with _ h4 h5 h6 h7
  · rw [hl (.inl h4)]
  · rw [hr (.inl h5)]
  · rw [hl (.inr h6)]
  · rw [hr (.inr h7)]
  · exact ht
  · exact ht

/-- A word of the spectrum that each publication writes from one channel follows from that channel's samples. -/
theorem exec_acc_channel (imm : BitVec 24) {f : Word × Word → Word} {s' : State} {a : ℕ} (hp : s.port = .producer)
    (hp' : s'.port = .producer) (hm : s.mode = s'.mode) (ho : s.order = s'.order)
    (ha : s.status.analyzing = s'.status.analyzing) (hl : s.regs.blklen = s'.regs.blklen)
    (hacc : s.acc.map f = s'.acc.map f)
    (hpost : ∀ j < s.regs.blklen.toNat, f (s.mem.read (0x020000 + j), s.mem.read (0x030000 + j)) =
      f (s'.mem.read (0x020000 + j), s'.mem.read (0x030000 + j)))
    (hread : s.mem.read a = s'.mem.read a)
    (h : ∀ samples samples' t t', samples.map f = samples'.map f → t.mem.read a = t'.mem.read a →
      (publish Config.numerics s.setup samples t).mem.read a = (publish Config.numerics s'.setup samples' t').mem.read a) :
    ∃ t t' : State, exec (.acc imm) s = .next t ∧ exec (.acc imm) s' = .next t' ∧ t.mem.read a = t'.mem.read a := by
  have hhost : (hostBlock s).map f = (hostBlock s').map f := by
    rw [hostBlock_eq, hostBlock_eq, ← hl, List.map_map, List.map_map]
    exact List.map_congr_left fun j hj => hpost j (List.mem_range.1 hj)
  refine ⟨_, _, exec_acc imm hp, exec_acc imm hp', ?_⟩
  rw [respond_mem, respond_mem]
  exact read_publishAll_congr h (accRun_congr hm ho ha hl hacc hhost) hread

/-- Settles O31: both runs fill blocks with the same samples of the channel, and each publication keeps its words equal. -/
theorem channelsAreIndependent : Obligations.ChannelsAreIndependent := by
  refine ⟨fun imm s s' hp hp' hm ho ha hl hacc hpost a hrange hread =>
      exec_acc_channel imm hp hp' hm ho ha hl hacc hpost hread fun samples samples' t t' hs ht => ?_,
    fun imm s s' hp hp' hm ho ha hl hacc hpost a hrange hread =>
      exec_acc_channel imm hp hp' hm ho ha hl hacc hpost hread fun samples samples' t t' hs ht => ?_⟩
  · exact read_publish_congr hm ho (fun _ => hs) (fun h => by omega) ht
  · exact read_publish_congr hm ho (fun h => by omega) (fun _ => hs) ht

end

end Sys2Proof.Machine
end

section
/-! ## The stored spectrum words (rules R190 to R192, R196) -/

open Sys2Proof.Machine.Ideal

namespace Sys2Proof.Machine

variable {num : Numerics} {windowed : Bool} {block : List Word} {bins k : ℕ}

/-- A channel with a non-finite sample, and one whose working values are all 0, has a flat spectrum (rules R190, R196). -/
theorem words_of_flat (hk : k < bins) (h : (degenerate block || silent windowed block) = true) :
    (magWords num windowed block bins).getD k 0 = Config.magFloor ∧ (phWords num windowed block bins).getD k 0 = 0 := by
  rw [magWords, phWords, if_pos h, if_pos h]
  simp [List.getD, hk]

theorem keepLevel_range {floor : Word} (hf : f32IsFinite floor = true) (w : Word) :
    f32IsFinite (keepLevel floor w) = true ∧ f32Real floor ≤ f32Real (keepLevel floor w) := by
  rw [keepLevel]
  split
  · rename_i h
    rw [Bool.and_eq_true, decide_eq_true_iff] at h
    obtain ⟨hfin, hle⟩ := h
    exact ⟨hfin, f32Real_le_of_int hle⟩
  · exact ⟨hf, le_rfl⟩

/-- A magnitude is finite and at or above −120 dB (rule R196 item 1). -/
theorem magWords_range (hk : k < bins) : f32IsFinite ((magWords num windowed block bins).getD k 0) = true ∧
    -120 ≤ f32Real ((magWords num windowed block bins).getD k 0) := by
  have hfloor : f32IsFinite Config.magFloor = true := by decide
  rw [← f32Real_magFloor]
  cases hd : degenerate block
  · rw [magWords_getD num windowed hd hk]
    split
    · exact ⟨hfloor, le_rfl⟩
    · exact keepLevel_range hfloor _
  · rw [(words_of_flat hk (by rw [hd, Bool.true_or])).1]
    exact ⟨hfloor, le_rfl⟩

/-- A pattern that is at most rne(π) without its sign is a finite value in [−rne(π), rne(π)] (rule R191). -/
theorem phase_range {w : Word} (h : (f32Abs w).toNat ≤ f32Pi.toNat) :
    f32IsFinite w = true ∧ |f32Real w| ≤ f32Real f32Pi := by
  have hpi : f32Pi.toNat < 0x7F800000 := by decide
  refine ⟨(f32IsFinite_iff w).2 (h.trans_lt hpi), ?_⟩
  rw [abs_f32Real, f32Real_of_lt (by decide)]
  exact realOf_strictMono.monotone h

/-- A phase is in range (rule R196 item 1). -/
theorem phWords_range (hk : k < bins) : f32IsFinite ((phWords num windowed block bins).getD k 0) = true ∧
    |f32Real ((phWords num windowed block bins).getD k 0)| ≤ f32Real f32Pi := by
  have hlen : k < (phWords num windowed block bins).length := by rwa [length_phWords]
  refine phase_range (phWords_le (num := num) (windowed := windowed) (block := block) (bins := bins) ?_)
  rw [List.getD_eq_getElem _ _ hlen]
  exact List.getElem_mem hlen

/-- Bin 0 has phase +0.0 (rule R192). -/
theorem phWords_zero (hk : 0 < bins) : (phWords num windowed block bins).getD 0 0 = 0 := by
  cases hd : degenerate block
  · rw [phWords_getD num windowed hd hk, if_pos (.inr rfl)]
  · exact (words_of_flat (num := num) (windowed := windowed) hk (by rw [hd, Bool.true_or])).2

/-- Settles O30: the machine keeps each word in its range, and a flat spectrum for a channel without a transform. -/
theorem spectrumWordsStayInRange : Obligations.SpectrumWordsStayInRange := by
  intro num windowed block bins k hk mag ph
  obtain ⟨hmag, hfloor⟩ : f32IsFinite mag = true ∧ -120 ≤ f32Real mag := magWords_range hk
  obtain ⟨hph, hpi⟩ : f32IsFinite ph = true ∧ |f32Real ph| ≤ f32Real f32Pi := phWords_range hk
  refine ⟨hmag, hfloor, hph, hpi, fun h0 => ?_, fun hinf => words_of_flat hk ?_, fun hzero => words_of_flat hk ?_⟩
  · subst h0
    exact phWords_zero hk
  · obtain ⟨w, hw, hinf⟩ := hinf
    rw [degenerate, List.any_eq_true.2 ⟨w, hw, by rw [hinf]; rfl⟩, Bool.true_or]
  · have hsilent : silent windowed block = true := silent_iff.2 fun n => by
      rcases Nat.lt_or_ge n block.length with hn | hn
      · exact (hzero n hn).2
      · exact working_of_length_le hn windowed
    rw [hsilent, Bool.or_true]

end Sys2Proof.Machine
end

section
/-! ## THD, DYN and ENV (rules R220 to R236) -/

namespace Sys2Proof.Machine

variable {s : State}

/-! ### The stored percentages (rule R227) -/

/-- Settles O35: percentages with their properties are stored as they are, and the larger of two keeps the property of the larger
ideal. -/
theorem storedPercentagesMeetThdOk : Obligations.StoredPercentagesMeetThdOk := by
  intro num levels fb h1 hlt hthd hthdn
  refine thdOk_of_valuesOk ?_ ?_
  · rwa [thdWord_stores hthd]
  · rwa [thdnValue_stores h1 hlt hthdn]

/-! ### THD (rules R220 to R227) -/

/-- Rule R223 with the condition of `keepLevel` as a proposition. -/
theorem coerceLevel_eq (w : Word) : coerceLevel w =
    if f32IsFinite w = true ∧ f32Int Config.magFloor ≤ f32Int w then w else Config.magFloor := by
  simp [coerceLevel, keepLevel]

/-- THD is Distortion() on MAG_L (rule R220). -/
theorem exec_thd (imm : BitVec 24) (hp : s.port = .producer) :
    exec (.thd imm) s = .next (respond .ok 0 { s with
      gen := s.gen + 2
      regs := distortionRegs Config.numerics s.order s.regs.srate s.regs.tfreq (s.mem.block baseMagL s.bins) s.regs }) := by
  rw [exec_bracketed hp rfl, bracket_eq]
  exact congrArg (fun t : State => Host.Outcome.next (respond .ok 0 { t with gen := s.gen + 2 }))
    (applyAll_distortionSteps 0 ..)

/-- A fundamental below bin B is the first of the harmonics that HCNT counts (rule R224). -/
theorem harmCount_eq {bins fb : ℕ} (h : fb < bins) :
    harmCount bins fb = 1 + ((List.range' 2 9).filter fun h => decide (h * fb < bins)).length := by
  have hfirst : List.range Config.harmMax = 0 :: List.range' 1 9 := rfl
  have hshift : List.range' 2 9 = (List.range' 1 9).map (· + 1) := rfl
  rw [harmCount, hfirst, List.filter_cons_of_pos (p := fun j => decide ((j + 1) * fb < bins)) (by simpa using h), hshift,
    List.filter_map, List.length_map, List.length_cons, Nat.add_comm]
  rfl

/-- The table holds the levels of the harmonics below B (rule R224). -/
theorem harmLevel_map_range (level : ℕ → Word) (bins fb j : ℕ) :
    harmLevel ((List.range bins).map level) fb j =
      if (j + 1) * fb < bins then level ((j + 1) * fb) else Config.magFloor := by
  rw [harmLevel, List.length_map, List.length_range]
  split
  · rename_i h
    simp [List.getD, h]
  · rfl

/-- Settles O37: the registers of Distortion() on the levels of MAG_L, in its two cases. -/
theorem thdWritesTheDistortionResults : Obligations.ThdWritesTheDistortionResults := by
  intro imm s hp bins fb level levels
  have hlevels : (s.mem.block baseMagL s.bins).map coerceLevel = levels := by
    rw [Memory.block, List.map_map]
    exact List.map_congr_left fun i _ => coerceLevel_eq _
  have hlen : levels.length = bins := by rw [List.length_map, List.length_range]
  rw [exec_thd imm hp, distortionRegs, hlevels, hlen]
  refine ⟨fun h => ?_, fun h1 hlt => ?_⟩
  · rw [if_pos h]
    rfl
  · rw [if_neg (by omega), harmCount_eq hlt]
    simp only [levels, harmLevel_map_range]
    rfl

/-! ### Levels (rule R230) -/

theorem degenerate_iff {samples : List Word} :
    degenerate samples = true ↔ ∃ w ∈ samples, f32IsFinite w = false := by
  simp [degenerate]

/-- The blocks that have no level (rule R230). -/
theorem levelWord_eq_floor (num : Numerics) {samples : List Word}
    (h : (degenerate samples || samples.all f32IsZero) = true) : levelWord num samples = Config.dynFloor := if_pos h

/-- In `tolerant` mode the machine keeps −100.0 for blocks of zeros (rule R230). -/
theorem keepRms_tolerant_ne (w : Word) : keepRms .tolerant w ≠ Config.dynFloor := by
  rw [keepRms]
  split
  · rename_i h
    rw [Bool.and_eq_true] at h
    obtain ⟨-, hne⟩ := h
    simpa using hne
  · decide

/-- Settles O39: the machine keeps each level in its range, and −100.0 for a block without a level. -/
theorem levelsStayInRange : Obligations.LevelsStayInRange := by
  intro num samples
  have hrange := levelInRange_levelWord num samples
  rw [levelInRange, Bool.and_eq_true, decide_eq_true_iff] at hrange
  obtain ⟨hfin, hge⟩ := hrange
  refine ⟨hfin, f32Real_dynFloor ▸ f32Real_le_of_int hge, fun hinf => levelWord_eq_floor num ?_,
    fun hzero => levelWord_eq_floor num ?_, fun hm hall hfloor w hw => ?_⟩
  · rw [degenerate_iff.2 hinf, Bool.true_or]
  · rw [List.all_eq_true.2 fun w hw => isZero_of_f32Real (hzero w hw).2, Bool.or_true]
  · have hd : degenerate samples = false := Bool.eq_false_of_not_eq_true fun h => by
      obtain ⟨w, hw, hinf⟩ := degenerate_iff.1 h
      exact Bool.false_ne_true (hinf.symm.trans (hall w hw))
    rw [levelWord, hd, Bool.false_or, hm] at hfloor
    split at hfloor
    · rename_i hz
      exact f32Real_of_isZero (List.all_eq_true.1 hz w hw)
    · exact absurd hfloor (keepRms_tolerant_ne _)

/-! ### The one register that DYN and ENV may write beside -/

theorem Regs.set_set (regs : Regs) (r : WordReg) (v w : Word) : (regs.set r v).set r w = regs.set r w := by
  cases r with
  | harm j =>
    simp only [Regs.set, Regs.mk.injEq, true_and, and_true]
    exact Vector.set_set ..
  | _ => rfl

/-- Steps that all write one register leave everything as it was, or leave a value in that register. -/
theorem applyAll_of_register {r : WordReg} {ws : List WriteStep} (h : ∀ w ∈ ws, ∃ v, w = .reg r v) (s : State) :
    applyAll (ws.map WriteStep.plain) s = s ∨
      ∃ v, applyAll (ws.map WriteStep.plain) s = { s with regs := s.regs.set r v } := by
  induction ws generalizing s with
  | nil => exact .inl rfl
  | cons w ws ih =>
    obtain ⟨v, rfl⟩ := h w List.mem_cons_self
    rw [List.map_cons, applyAll_cons]
    rcases ih (fun w hw => h w (List.mem_cons_of_mem _ hw)) ((WriteStep.reg r v).apply s) with he | ⟨v', he⟩
    · exact .inr ⟨v, he⟩
    · refine .inr ⟨v', he.trans ?_⟩
      rw [← Regs.set_set s.regs r v v']
      rfl

theorem applyAll_ratioSteps (series : List (Word × Word)) (s : State) : ∃ v,
    applyAll ((ratioSteps series).map WriteStep.plain) s = { s with regs := { s.regs with cratio := v } } := by
  rcases applyAll_of_register (fun _ => mem_ratioSteps (series := series)) s with h | h
  exacts [⟨s.regs.cratio, h⟩, h]

theorem applyAll_attackSteps (srate : Word) (series : List Word) (s : State) : ∃ v,
    applyAll ((attackSteps srate series).map WriteStep.plain) s = { s with regs := { s.regs with attack := v } } := by
  rcases applyAll_of_register (fun _ => mem_attackSteps (srate := srate) (series := series)) s with h | h
  exacts [⟨s.regs.attack, h⟩, h]

/-- A bracketed command without a write step changes nothing but GEN. -/
theorem exec_bracketed_nil {i : Instr} (hp : s.port = .producer) (h : bracketed i s = some []) :
    exec i s = .next (respond .ok 0 { s with gen := s.gen + 2 }) := by
  rw [exec_bracketed hp h, bracket_eq, applyAll_nil]

/-! ### DYN (rules R229 to R232) -/

/-- DYN with samples staged: the pair, its two registers, and CRATIO at most. -/
theorem exec_dyn (imm : BitVec 24) (hp : s.port = .producer) (hlen : s.regs.blklen ≠ 0) {lin lout : Word}
    (hin : levelWord Config.numerics (s.mem.block basePreL s.regs.blklen.toNat) = lin)
    (hout : levelWord Config.numerics (s.mem.block basePostL s.regs.blklen.toNat) = lout) : ∃ v,
    exec (.dyn imm) s = .next (respond .ok 0 { s with
      gen := s.gen + 2, dyn := pushPair s.dyn (lin, lout)
      regs := { s.regs with dynIn := lin, dynOut := lout, cratio := v } }) := by
  obtain ⟨v, hv⟩ := applyAll_ratioSteps (pushPair s.dyn (lin, lout))
    { s with dyn := pushPair s.dyn (lin, lout), regs := { s.regs with dynIn := lin, dynOut := lout } }
  refine ⟨v, ?_⟩
  rw [exec_bracketed hp rfl, bracket_eq, dynSteps]
  simp only [if_neg (toNat_ne_zero hlen), hin, hout, List.map_cons, applyAll_cons, WriteStep.plain, WriteStep.apply, Regs.set,
    hv]

theorem pushPair_of_lt {series : List (Word × Word)} (h : series.length < Config.dynCap) (pair : Word × Word) :
    pushPair series pair = series ++ [pair] := by
  rw [pushPair, Nat.sub_eq_zero_of_le h, List.drop_zero]

/-- At the cap the oldest pair makes room (rule R231). -/
theorem pushPair_of_eq {series : List (Word × Word)} (h : series.length = Config.dynCap) (pair : Word × Word) :
    pushPair series pair = series.tail ++ [pair] := by
  have hne : series ≠ [] := List.ne_nil_of_length_pos (by rw [h]; decide)
  rw [pushPair, h, Nat.add_sub_cancel_left, List.drop_one, List.tail_append_of_ne_nil hne]

/-- Settles O38: a pair is pushed, and CRATIO is the one register written beside. -/
theorem dynAppendsALevelPair : Obligations.DynAppendsALevelPair := by
  refine fun imm s hp => ⟨fun h0 => exec_bracketed_nil hp ?_, fun hlen => ?_⟩
  · simp [bracketed, dynSteps, h0]
  · intro block lin lout
    obtain ⟨v, hexec⟩ := exec_dyn imm hp hlen (lin := lin) (lout := lout) rfl rfl
    refine ⟨_, hexec, by simp, ?_⟩
    simp only [respond_dyn]
    exact ⟨getLast?_pushPair _ _, fun h => pushPair_of_lt h _, fun h => pushPair_of_eq h _⟩

/-! ### ENV (rules R233 to R236) -/

/-- A value appended to a series that was cut to the cap, and cut again, is as if it had not been cut before (rule R236). -/
theorem rtake_rtake_append_singleton (l : List Word) (cap : ℕ) (v : Word) :
    (l.rtake cap ++ [v]).rtake cap = (l ++ [v]).rtake cap := by
  cases cap with
  | zero => rw [List.rtake_zero, List.rtake_zero]
  | succ cap =>
    rw [List.rtake_concat_succ, List.rtake_concat_succ]
    simp only [List.rtake_eq_reverse_take_reverse, List.reverse_reverse, List.take_take]
    rw [Nat.min_eq_left (Nat.le_succ cap)]

/-- The newest entries up to the cap are kept (rule R236). -/
theorem pushEnv_eq_rtake (series : List Word) (v : Word) (cap : ℕ) : pushEnv series v cap = (series ++ [v]).rtake cap := by
  rw [pushEnv, List.rtake, List.length_append, List.length_singleton]

theorem foldl_pushEnv_rtake (cap : ℕ) (values series : List Word) :
    values.foldl (fun series v => pushEnv series v cap) (series.rtake cap) = (series ++ values).rtake cap := by
  induction values generalizing series with
  | nil => rw [List.foldl_nil, List.append_nil]
  | cons v values ih =>
    rw [List.foldl_cons, pushEnv_eq_rtake, rtake_rtake_append_singleton, ih, List.append_assoc, List.singleton_append]

/-- Cutting the series after every value is cutting it once (rules R234, R236). -/
theorem foldl_pushEnv (cap : ℕ) {values : List Word} (hne : values ≠ []) (series : List Word) :
    values.foldl (fun series v => pushEnv series v cap) series = (series ++ values).rtake cap := by
  cases values with
  | nil => exact absurd rfl hne
  | cons v values =>
    rw [List.foldl_cons, pushEnv_eq_rtake, foldl_pushEnv_rtake, List.append_assoc, List.singleton_append]

/-- The cap is `floor(10 × SRATE)` of the real rate (rule R236). -/
theorem envCap_eq_floor {srate : Word} (h : legalRate srate = true) :
    envCap srate = ⌊10 * Ideal.f32Real srate⌋.toNat := by
  have hpos := legalRate_ge h
  have hq : 10 * Ideal.f32Real srate = ((10 * f32Mag srate : ℕ) : ℝ) / (2 ^ 149 : ℕ) := by
    rw [f32Real_of_pos (by omega), ← mul_div_assoc, Nat.cast_mul, Nat.cast_pow, Nat.cast_ofNat, Nat.cast_ofNat]
  rw [hq, Int.floor_toNat, Nat.floor_div_eq_div]
  rfl

/-- ENV with samples staged: the series, and ATTACK at most. -/
theorem exec_env (imm : BitVec 24) (hp : s.port = .producer) (hlen : s.regs.blklen ≠ 0) {values : List Word}
    (hvalues : (s.mem.block basePostL s.regs.blklen.toNat).map envValue = values) : ∃ v,
    exec (.env imm) s = .next (respond .ok 0 { s with
      gen := s.gen + 2, env := (s.env ++ values).rtake (envCap s.regs.srate), regs := { s.regs with attack := v } }) := by
  have hne : values ≠ [] := List.ne_nil_of_length_pos (by
    rw [← hvalues, List.length_map, Memory.length_block]
    exact Nat.pos_of_ne_zero (toNat_ne_zero hlen))
  obtain ⟨v, hv⟩ := applyAll_attackSteps s.regs.srate ((s.env ++ values).rtake (envCap s.regs.srate))
    { s with env := (s.env ++ values).rtake (envCap s.regs.srate) }
  refine ⟨v, ?_⟩
  rw [exec_bracketed hp rfl, bracket_eq, envSteps]
  simp only [if_neg (toNat_ne_zero hlen), hvalues, List.map_append, applyAll_append, applyAll_envPush, foldl_pushEnv _ hne, hv]

/-- Settles O41: the samples' magnitudes are appended, and ATTACK is the one register written beside. -/
theorem envAppendsMagnitudes : Obligations.EnvAppendsMagnitudes := by
  refine fun imm s hp hrate => ⟨fun h0 => exec_bracketed_nil hp ?_, fun hlen => ?_⟩
  · simp [bracketed, envSteps, h0]
  · intro values all
    have hvalues : (s.mem.block basePostL s.regs.blklen.toNat).map envValue = values := by
      rw [Memory.block, List.map_map]
      rfl
    obtain ⟨v, hexec⟩ := exec_env imm hp hlen hvalues
    refine ⟨_, hexec, by simp, ?_⟩
    rw [respond_env, ← envCap_eq_floor hrate]
    rfl

end Sys2Proof.Machine
end

section
/-! ## The sample FIFO (rules R260 to R267) -/

namespace Sys2Proof.Machine

variable {s t u : State}

/-! ### FWR and FRD on their own ports (rules R261 to R264) -/

theorem exec_fwr (imm : BitVec 24) (hp : s.port = .producer) : exec (.fwr imm) s = .next (respond .ok 0
    { s with fifo := s.fifo.push s.fifoCap.val (s.mem.block basePostL s.regs.blklen.toNat) }) := by
  simp only [exec, execFwr, hp]

theorem exec_frd (m : BitVec 24) (hp : s.port = .consumer) : exec (.frd m) s =
    .next (respond .ok (BitVec.ofNat 32 (frdCount m s)) (takeSamples (frdCount m s) s)) := by
  simp only [exec, execFrd, hp]

/-- On Port C FWR answers ERR_PORT (rule R115). -/
theorem exec_fwr_consumer (imm : BitVec 24) (hp : s.port = .consumer) :
    exec (.fwr imm) s = .next (answerError .errPort s) := exec_ill_formed (by rw [hp]; rfl)

/-- On Port P FRD answers ERR_PORT (rule R115). -/
theorem exec_frd_producer (m : BitVec 24) (hp : s.port = .producer) :
    exec (.frd m) s = .next (answerError .errPort s) := exec_ill_formed (by rw [hp]; rfl)

theorem frdCount_le_count (m : BitVec 24) (s : State) : frdCount m s ≤ s.fifo.count := Nat.min_le_right _ _

/-- Reading back what was written to consecutive words. -/
theorem Memory.block_writeList (m : Memory) (base : ℕ) (xs : List Word) :
    (m.writeList base xs).block base xs.length = xs := by
  refine List.ext_getElem (Memory.length_block _ _ _) fun j _ hj => ?_
  simp only [Memory.block, List.getElem_map, List.getElem_range]
  rw [Memory.read_writeList, if_pos (by omega), Nat.add_sub_cancel_left, List.getD_eq_getElem _ _ hj]

/-- The samples that FRD moves are as many as it answers (rule R263). -/
theorem length_take_queue {n : ℕ} (f : Fifo) (cap : ℕ) (hn : n ≤ f.count) : ((f.queue cap).take n).length = n := by
  rw [List.length_take, Fifo.length_queue, Nat.min_eq_left hn]

/-- After FRD, CONS_BUF[0, n) holds the oldest samples in order (rule R264). -/
theorem takeSamples_block {n : ℕ} (hn : n ≤ s.fifo.count) :
    (takeSamples n s).mem.block baseCons n = (s.fifo.queue s.fifoCap.val).take n := by
  have h := Memory.block_writeList s.mem baseCons ((s.fifo.queue s.fifoCap.val).take n)
  rwa [length_take_queue _ _ hn] at h

/-- Word by word: the oldest samples in CONS_BUF[0, n), every other word as before (rule R264). -/
theorem takeSamples_read {n : ℕ} (hn : n ≤ s.fifo.count) (a : ℕ) : (takeSamples n s).mem.read a =
    if baseCons ≤ a ∧ a < baseCons + n then (s.fifo.queue s.fifoCap.val).getD (a - baseCons) 0 else s.mem.read a := by
  refine (Memory.read_writeList _ _ _ _).trans ?_
  rw [length_take_queue _ _ hn]
  split
  · rename_i h
    rw [List.getD_eq_getElem?_getD, List.getD_eq_getElem?_getD, List.getElem?_take_of_lt (by omega)]
  · rfl

/-- Settles O43: the block is pushed, as `Fifo.push_spec` says. -/
theorem fwrAppendsWhatFits : Obligations.FwrAppendsWhatFits := by
  intro imm s hp hf block
  have hpush := Fifo.push_spec hf (s.mem.block basePostL s.regs.blklen.toNat)
  rw [Memory.length_block] at hpush
  exact ⟨_, exec_fwr imm hp, hpush⟩

/-- Settles O44: the samples are popped, as `Fifo.pop_spec` says, and written to CONS_BUF. -/
theorem frdTakesTheOldest : Obligations.FrdTakesTheOldest := by
  intro m s hp hf n queue
  have hn : n ≤ s.fifo.count := frdCount_le_count m s
  obtain ⟨hqueue, hok⟩ := Fifo.pop_spec hf hn
  refine ⟨_, exec_frd m hp, ?_⟩
  rw [respond_mem, respond_fifo]
  refine ⟨rfl, hqueue, rfl, hok, fun j hj => ?_, fun a ha => ?_⟩
  · refine (takeSamples_read hn _).trans ?_
    rw [if_pos ⟨Nat.le_add_right _ _, Nat.add_lt_add_left hj _⟩, Nat.add_sub_cancel_left]
  · refine (takeSamples_read hn a).trans (if_neg ?_)
    simp only [baseCons]
    omega

/-! ### Which commands touch the FIFO (rule R267) -/

/-- What FWR, FRD and SRST alone may change: the FIFO, CONS_CNT and CONS_BUF. -/
def State.fifoSide (s : State) : Fifo × Word × (Fin 0x10000 → Word) :=
  (s.fifo, s.regs.consCnt, fun j => s.mem.read (baseCons + j))

theorem fifoSide_eq_iff : t.fifoSide = s.fifoSide ↔ t.fifo = s.fifo ∧ t.regs.consCnt = s.regs.consCnt ∧
    ∀ a, 0x080000 ≤ a → a < 0x090000 → t.mem.read a = s.mem.read a := by
  simp only [State.fifoSide, Prod.mk.injEq]
  refine and_congr_right' (and_congr_right' ⟨fun h a lo hi => ?_, fun h => funext fun j => h _ ?_ ?_⟩)
  · have hj := congrFun h ⟨a - baseCons, by simp only [baseCons]; omega⟩
    simpa only [Nat.add_sub_cancel' lo] using hj
  · exact Nat.le_add_right _ _
  · have := j.isLt
    simp only [baseCons]
    omega

@[simp] theorem respond_fifoSide (code : RespCode) (data : Word) (s : State) :
    (respond code data s).fifoSide = s.fifoSide := by simp [State.fifoSide]

@[simp] theorem answerError_fifoSide (code : RespCode) (s : State) : (answerError code s).fifoSide = s.fifoSide := by
  simp [State.fifoSide]

/-- A write step to none of the words of the FIFO's side. -/
def WriteStep.SparesFifo : WriteStep → Prop
  | .reg r _ => r ≠ .consCnt
  | .word a _ => a < baseCons
  | .clearFifo => False
  | _ => True

theorem WriteStep.SparesFifo.apply_fifoSide {w : WriteStep} (h : w.SparesFifo) (s : State) :
    (w.apply s).fifoSide = s.fifoSide := by
  cases w with
  | reg r v =>
    cases r with
    | consCnt => exact absurd rfl h
    | _ => rfl
  | word a v =>
    have ha : a < baseCons := h
    exact fifoSide_eq_iff.2 ⟨rfl, rfl, fun b lo _ => Memory.read_write_ne _ (Nat.ne_of_gt (ha.trans_le lo)) v⟩
  | clearSpectrum =>
    refine fifoSide_eq_iff.2 ⟨rfl, rfl, fun b lo _ => (Memory.read_clearSpectrum _ b).trans (if_neg ?_)⟩
    rw [isSpectrum_iff]
    omega
  | clearFifo => exact h.elim
  | dynPush pair => simp only [WriteStep.apply, State.fifoSide]
  | _ => rfl

theorem DistortionReg.ne_consCnt {r : WordReg} (h : DistortionReg r) : r ≠ .consCnt := by
  cases h <;> nofun

theorem AccStep.sparesFifo {mode : Mode} {bins : ℕ} {w : WriteStep} (h : AccStep mode bins w) : w.SparesFifo := by
  cases h with
  | word v lo hi bin => exact hi
  | metric v hm hr => exact hr.ne_consCnt
  | seq v => exact nofun
  | imd hm => exact nofun
  | _ => trivial

/-- No bracketed command but SRST writes to the FIFO's side. -/
theorem CommandStep.sparesFifo {i : Instr} {w : WriteStep} (h : CommandStep s i w) (hs : ∀ imm, i ≠ .srst imm) :
    w.SparesFifo := by
  cases h with
  | acc imm h => exact h.sparesFifo
  | thd imm v hr => exact hr.ne_consCnt
  | srst imm h => exact absurd rfl (hs imm)
  | wrStage addr d lo hi => exact hi.trans (by decide)
  | wrMag addr d lo hi bin => exact hi.trans (by decide)
  | dynIn | dynOut | cratio | attack | wrSrate | wrTfreq | wrBlklen => exact nofun
  | _ => trivial

theorem bracket_fifoSide {i : Instr} {ws : List Write} (hb : bracketed i s = some ws) (hs : ∀ imm, i ≠ .srst imm) :
    (bracket ws s).fifoSide = s.fifoSide :=
  bracket_preserves hb State.fifoSide (fun _ hw => (hw.sparesFifo hs).apply_fifoSide) (fun _ _ => rfl)
    fun t code data => respond_fifoSide code data t

/-- No command but FWR and SRST on Port P and FRD on Port C changes the FIFO's side (rules R115, R267). -/
theorem exec_fifoSide {i : Instr} (h : exec i s = .next t) (hfwr : ∀ imm, i = .fwr imm → s.port ≠ .producer)
    (hfrd : ∀ m, i = .frd m → s.port ≠ .consumer) (hsrst : ∀ imm, i = .srst imm → s.port ≠ .producer) :
    t.fifoSide = s.fifoSide := by
  rcases exec_cases h with ⟨code, -, rfl⟩ | ⟨imm, -, rfl⟩ | ⟨addr, -, -, rfl⟩ | ⟨data, -, rfl⟩ | ⟨imm, hi, hp, -⟩ |
    ⟨m, hi, hp, -⟩ | ⟨ws, hp, hb, rfl⟩
  · exact answerError_fifoSide _ _
  · exact respond_fifoSide _ _ _
  · exact respond_fifoSide _ _ _
  · exact respond_fifoSide _ _ _
  · exact absurd hp (hfwr imm hi)
  · exact absurd hp (hfrd m hi)
  · exact bracket_fifoSide hb fun imm hi => hsrst imm hi hp

/-! ### FWR and FRD do not depend on MODE (rule R267) -/

theorem port_cases (port : Port) : port = .producer ∨ port = .consumer := by cases port <;> simp

theorem respond_setMode (code : RespCode) (data : Word) (s : State) (mode : Mode) :
    respond code data { s with mode := mode } = { respond code data s with mode := mode } := by
  unfold respond
  cases s.port <;> rfl

/-- What a response changes. -/
theorem respond_frame (code : RespCode) (data : Word) (s : State) : respond code data s =
    { s with outP := (respond code data s).outP, outC := (respond code data s).outC } := by
  unfold respond
  cases s.port <;> rfl

/-- Settles O46: FWR and FRD on their own ports, and the error that answers them on the other. -/
theorem fifoIsIndependent : Obligations.FifoIsIndependent := by
  refine ⟨fun i s t h hfwr hfrd hsrst => ?_, fun imm s mode => ?_, fun m s mode hf => ?_⟩
  · exact fifoSide_eq_iff.1 (exec_fifoSide h (fun imm hi => absurd hi (hfwr imm)) (fun m hi => absurd hi (hfrd m))
      fun imm hi => absurd hi (hsrst imm))
  · rcases port_cases s.port with hp | hp
    · refine ⟨_, exec_fwr imm hp, ?_, fun _ => respond_status _ _ _, ?_⟩
      · rw [respond_fifo, respond_status]
        exact respond_frame _ _ { s with fifo := _ }
      · rw [← respond_setMode]
        exact exec_fwr (s := { s with mode := mode }) imm hp
    · refine ⟨_, exec_fwr_consumer imm hp, ?_, fun hprod => absurd (hp.symm.trans hprod) nofun, ?_⟩
      · rw [answerError_errPort, respond_fifo, respond_status]
        exact respond_frame _ _ { s with status := _ }
      · rw [answerError_errPort, ← respond_setMode]
        exact exec_fwr_consumer (s := { s with mode := mode }) imm hp
  · rcases port_cases s.port with hp | hp
    · refine ⟨_, exec_frd_producer m hp, ?_, fun hcons => absurd (hp.symm.trans hcons) nofun, fun a _ => ?_, ?_⟩
      · rw [answerError_errPort, respond_fifo, respond_mem, respond_regs, respond_status]
        exact respond_frame _ _ { s with status := _ }
      · rw [answerError_mem]
      · rw [answerError_errPort, ← respond_setMode]
        exact exec_frd_producer (s := { s with mode := mode }) m hp
    · have hn : frdCount m s ≤ 0x10000 := (frdCount_le_count m s).trans (hf.count.trans s.fifoCap.2.2)
      refine ⟨_, exec_frd m hp, ?_, fun _ => respond_status _ _ _, fun a ha => ?_, ?_⟩
      · rw [respond_fifo, respond_mem, respond_regs, respond_status]
        exact respond_frame _ _ (takeSamples _ s)
      · rw [respond_mem]
        exact (ReadSideChange.takeSamples hn).words a ha
      · rw [← respond_setMode]
        exact exec_frd (s := { s with mode := mode }) m hp

/-! ### Samples pass in order (rules R265, R266) -/

/-- Between two states the FIFO took in some samples and gave out some, in order, within its invariant. -/
structure SamplesPass (s t : State) (stored taken : List Word) : Prop where
  cap : t.fifoCap = s.fifoCap
  ok : FifoOk t.fifoCap.val t.fifo
  inOrder : s.fifo.queue s.fifoCap.val ++ stored = taken ++ t.fifo.queue t.fifoCap.val

theorem SamplesPass.of_fifo_eq (hf : FifoOk s.fifoCap.val s.fifo) (cap : t.fifoCap = s.fifoCap) (h : t.fifo = s.fifo) :
    SamplesPass s t [] [] := by
  refine ⟨cap, ?_, ?_⟩ <;> rw [cap, h]
  · exact hf
  · rw [List.append_nil, List.nil_append]

theorem SamplesPass.trans {stored stored' taken taken' : List Word} (h : SamplesPass s t stored taken)
    (h' : SamplesPass t u stored' taken') : SamplesPass s u (stored ++ stored') (taken ++ taken') where
  cap := h'.cap.trans h.cap
  ok := h'.ok
  inOrder := by rw [← List.append_assoc, h.inOrder, List.append_assoc, h'.inOrder, List.append_assoc]

/-- From an empty FIFO what was taken is how the stored samples begin, and the FIFO holds the rest (rule R266). -/
theorem SamplesPass.of_empty {stored taken : List Word} (h : SamplesPass s t stored taken) (h0 : s.fifo.count = 0) :
    taken <+: stored ∧ taken.length ≤ stored.length ∧ stored.length - taken.length = t.fifo.count := by
  have hempty : s.fifo.queue s.fifoCap.val = [] := List.eq_nil_of_length_eq_zero (by rw [Fifo.length_queue, h0])
  have hsplit : stored = taken ++ t.fifo.queue t.fifoCap.val := by
    rw [← h.inOrder, hempty, List.nil_append]
  have hlen : stored.length = taken.length + t.fifo.count := by
    rw [hsplit, List.length_append, Fifo.length_queue]
  exact ⟨⟨_, hsplit.symm⟩, by omega, by omega⟩

/-- C is a constant (rule R53). -/
theorem exec_fifoCap {i : Instr} (h : exec i s = .next t) : t.fifoCap = s.fifoCap := by
  rcases exec_cases h with ⟨code, -, rfl⟩ | ⟨imm, -, rfl⟩ | ⟨addr, -, -, rfl⟩ | ⟨data, -, rfl⟩ | ⟨imm, -, -, rfl⟩ |
    ⟨m, -, -, rfl⟩ | ⟨ws, -, -, rfl⟩
  · exact answerError_fifoCap _ _
  iterate 5 exact respond_fifoCap _ _ _
  · exact bracket_fifoCap _ _

theorem issue_eq {port : Port} {i : Instr} (h : exec i { s with port := port } = .next t) : issue port i s = t := by
  rw [issue, h]

/-- A command that is none of the FIFO's passes no sample. -/
theorem issue_passes_none {port : Port} {i : Instr} (hf : FifoOk s.fifoCap.val s.fifo)
    (hfwr : ∀ imm, i = .fwr imm → port ≠ .producer) (hfrd : ∀ m, i = .frd m → port ≠ .consumer)
    (hsrst : ∀ imm, i = .srst imm → port ≠ .producer) : SamplesPass s (issue port i s) [] [] := by
  obtain ⟨t, ht⟩ := exists_exec_next i { s with port := port }
  obtain ⟨hfifo, -, -⟩ := fifoSide_eq_iff.1 (exec_fifoSide ht hfwr hfrd hsrst)
  rw [issue_eq ht]
  exact .of_fifo_eq hf (exec_fifoCap (s := { s with port := port }) ht) hfifo

/-- FWR stores the samples of the block that fit (rules R261, R262). -/
theorem issue_fwr_passes (imm : BitVec 24) (hf : FifoOk s.fifoCap.val s.fifo) :
    SamplesPass s (issue .producer (.fwr imm) s) (samplesStored .producer (.fwr imm) s) [] := by
  obtain ⟨hqueue, -, hok⟩ := Fifo.push_spec hf (s.mem.block basePostL s.regs.blklen.toNat)
  rw [issue_eq (exec_fwr imm rfl)]
  exact ⟨rfl, hok, hqueue.symm⟩

/-- FRD delivers the oldest samples: CONS_CNT of them, in CONS_BUF (rules R263, R264). -/
theorem issue_frd_passes (m : BitVec 24) (hf : FifoOk s.fifoCap.val s.fifo) :
    SamplesPass s (issue .consumer (.frd m) s) [] (samplesRead .consumer (.frd m) s) := by
  have hn := frdCount_le_count m s
  obtain ⟨hqueue, hok⟩ := Fifo.pop_spec hf hn
  have hcnt : (BitVec.ofNat 32 (frdCount m s)).toNat = frdCount m s := by
    have hcount := hf.count
    have hcap := s.fifoCap.2.2
    rw [BitVec.toNat_ofNat]
    exact Nat.mod_eq_of_lt (by omega)
  have hread : samplesRead .consumer (.frd m) s = (s.fifo.queue s.fifoCap.val).take (frdCount m s) := by
    rw [samplesRead, issue_eq (exec_frd m rfl), respond_mem, respond_regs, ← takeSamples_block hn]
    exact congrArg (Memory.block _ baseCons) hcnt
  rw [hread, issue_eq (exec_frd m rfl)]
  refine ⟨rfl, hok, ?_⟩
  rw [List.append_nil, respond_fifo, respond_fifoCap]
  exact (List.take_append_drop _ _).symm.trans (congrArg _ hqueue.symm)

/-- Every command but a soft reset passes its samples in order. -/
theorem issue_passes {port : Port} {i : Instr} (hf : FifoOk s.fifoCap.val s.fifo)
    (hsrst : ∀ imm, (port, i) ≠ (.producer, .srst imm)) :
    SamplesPass s (issue port i s) (samplesStored port i s) (samplesRead port i s) := by
  cases i with
  | fwr imm =>
    cases port with
    | producer => exact issue_fwr_passes imm hf
    | consumer => exact issue_passes_none hf (fun _ _ => nofun) nofun nofun
  | frd m =>
    cases port with
    | producer => exact issue_passes_none hf nofun (fun _ _ => nofun) nofun
    | consumer => exact issue_frd_passes m hf
  | srst imm => exact issue_passes_none hf nofun nofun fun _ _ hp => hsrst imm (by rw [hp])
  | nop | rd | wr | acc | dyn | env | thd | trig => exact issue_passes_none hf nofun nofun nofun

theorem streamOf_passes {cmds : List (Port × Instr)} (hf : FifoOk s.fifoCap.val s.fifo)
    (hsrst : ∀ c ∈ cmds, ∀ imm, c ≠ (.producer, .srst imm)) :
    SamplesPass s (streamOf cmds s).1 (streamOf cmds s).2.1 (streamOf cmds s).2.2 := by
  induction cmds generalizing s with
  | nil => exact .of_fifo_eq hf rfl rfl
  | cons c cmds ih =>
    have hfirst := issue_passes hf (hsrst c List.mem_cons_self)
    exact hfirst.trans (ih hfirst.ok fun c hc => hsrst c (List.mem_cons_of_mem _ hc))

/-- Settles O45, by induction over the commands: each passes its samples in order. -/
theorem fifoDeliversInOrder : Obligations.FifoDeliversInOrder := by
  intro cmds s hf hsrst r
  have hpass := streamOf_passes hf hsrst
  refine ⟨?_, hpass.of_empty⟩
  rw [← hpass.cap]
  simpa only [hpass.cap] using hpass.inOrder

end Sys2Proof.Machine
end

section
/-! ## MODE and SRST (rules R146, R290, R291, R293, R351) -/

namespace Sys2Proof.Machine

/-! ### The codes of the modes (rule R36) -/

theorem Mode.ofCode_code (m : Mode) : Mode.ofCode m.code = some m := by cases m <;> rfl

theorem Mode.code_lt (m : Mode) : m.code < 9 := by cases m <;> decide

theorem Mode.ofCode_illegal : ∀ {n : ℕ}, 8 < n → Mode.ofCode n = none
  | _ + 9, _ => rfl

theorem Mode.exists_code_eq {n : ℕ} (h : n ≤ 8) : ∃ m : Mode, m.code = n := by
  interval_cases n
  exacts [⟨.linear, rfl⟩, ⟨.harmonic, rfl⟩, ⟨.hammerstein, rfl⟩, ⟨.whiteNoise, rfl⟩, ⟨.sineSweep, rfl⟩, ⟨.thdSweep, rfl⟩,
    ⟨.imd, rfl⟩, ⟨.dynamics, rfl⟩, ⟨.performance, rfl⟩]

variable {s : State} {d : Word}

theorem eq_read_mode_iff : d = Register.mode.read s ↔ d.toNat = s.mode.code := by
  have hcode : (Register.mode.read s).toNat = s.mode.code := by
    have hlt := s.mode.code_lt
    rw [Register.read, BitVec.toNat_ofNat]
    omega
  rw [← hcode, BitVec.toNat_inj]

/-! ### WR to MODE (rules R146, R290, R291) -/

theorem regWriteSteps_mode {m : Mode} (h : m.code = d.toNat) : regWriteSteps .mode d s = setModeSteps m s := by
  simp only [regWriteSteps, ← h, Mode.ofCode_code]

theorem regWriteSteps_mode_ignored (h : 8 < d.toNat ∨ d = Register.mode.read s) : regWriteSteps .mode d s = [] := by
  rcases h with h | h
  · simp only [regWriteSteps, Mode.ofCode_illegal h]
  · rw [regWriteSteps_mode (eq_read_mode_iff.1 h).symm, setModeSteps, if_pos rfl]

/-- What a switch to another mode changes (rule R291). -/
theorem applyAll_setModeSteps {m : Mode} (h : m ≠ s.mode) :
    applyAll (setModeSteps m s) s =
      { s with mode := m, acc := [], status := { s.status with analyzing := false } } := by
  rw [setModeSteps, if_neg h]
  rfl

/-- Settles O22: the command has no write step, or those of a switch to the mode with the code written. -/
theorem wrModeSwitchesAndResets : Obligations.WrModeSwitchesAndResets := by
  refine fun s d hp => ⟨fun h => ?_, fun hle hne => ?_⟩
  · exact exec_wr_ignored (index := 3) hp rfl rfl (by decide) (regWriteSteps_mode_ignored h)
  · obtain ⟨m, hm⟩ := Mode.exists_code_eq hle
    have hother : m ≠ s.mode := fun h => hne (eq_read_mode_iff.2 (hm.symm.trans (congrArg Mode.code h)))
    have hexec := exec_wr_register hp (index := 3) rfl rfl (by decide) d
    rw [regWriteSteps_mode hm, applyAll_setModeSteps hother] at hexec
    exact ⟨m, hm, hexec⟩

/-! ### SRST (rules R293, R351) -/

theorem exec_srst (imm : BitVec 24) (hp : s.port = .producer) :
    exec (.srst imm) s = .next (respond .ok 0 { applyAll (srstSteps s) s with gen := s.gen + 2 }) := by
  rw [exec_bracketed hp rfl, bracket_eq]

/-- Settles O48: the write steps leave the power-on values, and of RAM they clear the spectrum words alone. -/
theorem srstGivesThePowerOnState : Obligations.SrstGivesThePowerOnState := by
  intro imm s hp
  have hexec := exec_srst imm hp
  rw [applyAll_srstSteps] at hexec
  refine ⟨_, hexec, by rw [respond_mem]; rfl, fun a lo hi => ?_, fun a ha => ?_⟩
  · have ha : isSpectrum a = true := isSpectrum_iff.2 ⟨lo, hi⟩
    rw [respond_mem, Memory.read_clearSpectrum, if_pos ha, read_reset, unlisted, if_pos ha]
  · rw [respond_mem, Memory.read_clearSpectrum, if_neg (by rw [isSpectrum_iff]; omega)]

end Sys2Proof.Machine
end

section
/-! ## The sticky error bits (rule R322) -/

namespace Sys2Proof.Machine

/-- The error bits of STATUS. In the order of such triples a greater one keeps every bit that is 1. -/
def Status.errBits (st : Status) : Bool × Bool × Bool := (st.errCmd, st.errAddr, st.errPort)

theorem Status.errBits_le_iff {st st' : Status} : st.errBits ≤ st'.errBits ↔
    (st.errCmd → st'.errCmd) ∧ (st.errAddr → st'.errAddr) ∧ (st.errPort → st'.errPort) := by
  simp only [Status.errBits, Prod.mk_le_mk, Bool.le_iff_imp]

theorem Status.errBits_le_setFlag_true (st : Status) (f : Flag) : st.errBits ≤ (st.setFlag f true).errBits := by
  rw [Status.errBits_le_iff]
  cases f with
  | errCmd => exact ⟨fun _ => rfl, id, id⟩
  | errAddr => exact ⟨id, fun _ => rfl, id⟩
  | errPort => exact ⟨id, id, fun _ => rfl⟩
  | valid | ready | analyzing => exact ⟨id, id, id⟩

variable {s t : State} {i : Instr} {w : WriteStep}

/-- An error answer sets one sticky bit and clears none. -/
theorem errBits_le_answerError {code : RespCode} (h : code ≠ .ok) (s : State) :
    s.status.errBits ≤ (answerError code s).status.errBits := by
  obtain ⟨f, -, heq⟩ := answerError_eq h s
  rw [heq, respond_status]
  exact s.status.errBits_le_setFlag_true f

/-- The flags ACC writes are VALID, READY and ANALYZING. -/
theorem AccStep.errBits_apply {mode : Mode} {bins : ℕ} (h : AccStep mode bins w) (t : State) :
    (w.apply t).status.errBits = t.status.errBits := by
  cases h <;> rfl

/-- Of the bracketed commands SRST alone writes the error bits. -/
theorem CommandStep.errBits_apply (h : CommandStep s i w) (hs : ∀ imm, i ≠ .srst imm) (t : State) :
    (w.apply t).status.errBits = t.status.errBits := by
  cases h with
  | acc imm h => exact h.errBits_apply t
  | srst imm h => exact absurd rfl (hs imm)
  | dynPush => simp only [WriteStep.apply]
  | _ => rfl

theorem bracket_errBits {ws : List Write} (hb : bracketed i s = some ws) (hs : ∀ imm, i ≠ .srst imm) :
    (bracket ws s).status.errBits = s.status.errBits :=
  bracket_preserves hb (·.status.errBits) (fun _ hw => hw.errBits_apply hs) (fun _ _ => rfl)
    fun t code data => by rw [respond_status]

/-- Only an error answer, a WR of STATUS and SRST write the error bits, and an error answer clears none. -/
theorem exec_errBits_le (h : exec i s = .next t) (hwr : ∀ d, i ≠ .wr statusAddr d) (hs : ∀ imm, i ≠ .srst imm) :
    s.status.errBits ≤ t.status.errBits := by
  rcases exec_cases h with ⟨code, hcode, rfl⟩ | ⟨imm, -, rfl⟩ | ⟨addr, -, -, rfl⟩ | ⟨data, hi, -⟩ | ⟨imm, -, -, rfl⟩ |
    ⟨m, -, -, rfl⟩ | ⟨ws, -, hb, rfl⟩
  · exact errBits_le_answerError hcode s
  · rw [respond_status]
  · rw [respond_status]
  · exact absurd hi (hwr data)
  · rw [respond_status]
  · rw [respond_status, takeSamples]
  · exact (bracket_errBits hb hs).ge

/-- Settles O11: the error bits after the command are at or above those before it. -/
theorem errorBitsAreSticky : Obligations.ErrorBitsAreSticky :=
  fun _ _ _ h hwr hs => Status.errBits_le_iff.1 (exec_errBits_le h hwr hs)

end Sys2Proof.Machine
end
